-- ==== Sys2Proof/Word.lean ====
section
/-!
DEFINITION. The word types of the engine: 32-bit command and micro-op words (R57, R62) and 8-bit bytes (R41).
-/

namespace Sys2Proof

/-- A command word or a micro-op word: both formats are 32 bits (R61). -/
abbrev Word := BitVec 32

/-- A byte of the caller's buffer, or a byte on the wire (R41, R67). -/
abbrev Byte := BitVec 8

end Sys2Proof
end

