-- ==== Sys2Proof/Config.lean ====
section
/-!
DEFINITION. What an implementation fixes (R6) and the free values: what the spec leaves to the environment, to the
host's scheduler or to the pin layer. A free value is an opaque constant without a body, so a proof cannot see it.
-/

namespace Sys2Proof

/-- The electrical direction of a line (R19). -/
inductive LineMode where
  | inp
  | out
  deriving DecidableEq, Repr, Inhabited

/-- The pin port: a direction and an output latch per line (R19). A latch is true for 1 (released) and false for 0. -/
structure Port where
  sdaMode : LineMode
  sdaLat : Bool
  sclMode : LineMode
  sclLat : Bool
  deriving DecidableEq, Repr, Inhabited

/-- PINS: the reference to one clock line and one data line (R16). It is only ever compared, never computed with. -/
structure Pins where
  scl : Nat
  sda : Nat
  deriving DecidableEq, Repr

/-- The open width parameters (R6, D8, D9). They are data of the state, so a statement over all states holds for every
value of them. -/
structure Params where
  /-- ADDR_WIDTH: the width in bits of a buffer address. -/
  addrWidth : Nat
  /-- COUNT_WIDTH: the width in bits of the byte count. -/
  countWidth : Nat
  deriving DecidableEq, Repr

/-- The values of the parameters that R6 allows: ADDR_WIDTH positive, COUNT_WIDTH from 1 to 24. -/
def Params.legal (p : Params) : Bool :=
  decide (0 < p.addrWidth) && decide (1 ≤ p.countWidth) && decide (p.countWidth ≤ 24)

/-- ACK_POLLS (R6, D7): the largest number of SDA samples in one acknowledge check. UNVERIFIED against the real code,
as the spec itself notes (log 25). -/
def Config.ackPolls : Nat := 10

/-- FREE VALUE (R22, log 3). The n-th free draw of the environment attached to a pin pair, for RD_SDA, RD_SCL and
BUSY. -/
opaque Config.freeAnswer : Pins → Nat → Bool

/-- FREE VALUE (R22, R37, log 4). The port elements of the instance on a pin pair where they are unspecified. -/
opaque Config.freePort : Pins → Nat → Port

/-- FREE VALUE (R7, D11, log 15). Which host thread takes the n-th turn where the schedule does not say. -/
opaque Config.freeThread : Nat → Nat

/-- FREE VALUE (R6, D6, log 5). One less than T_HALF of the instance in State.reset. -/
opaque Config.halfPeriodPred : Nat

/-- T_HALF of the instance in State.reset: some positive number of microseconds (R15, log 5). -/
def Config.tHalf : Nat := Config.halfPeriodPred + 1

end Sys2Proof
end

