-- ==== Sys2Proof/Syntax.lean ====
section
/-!
DEFINITION. The instructions: one constructor per row of spec/opcode_table.json, the eight commands of R58 and the
eleven micro-ops of R63; the two word formats; the command descriptor of R56; the reasons a word is refused.
-/

namespace Sys2Proof

/-- The commands (R58) and the micro-ops (R63). -/
inductive Instr where
  /-- INIT (R101). -/
  | init
  /-- DEINIT (R102). -/
  | deinit
  /-- PROBE dev (R100). -/
  | probe (dev : BitVec 7)
  /-- READ8 dev, reg8 (R95). -/
  | read8 (dev : BitVec 7) (reg : BitVec 8)
  /-- READ16 dev, reg16 (R96). -/
  | read16 (dev : BitVec 7) (reg : BitVec 16)
  /-- READNA dev (R97). -/
  | readna (dev : BitVec 7)
  /-- WRITE8 dev, reg8 (R98). -/
  | write8 (dev : BitVec 7) (reg : BitVec 8)
  /-- WRITE16 dev, reg16 (R99). -/
  | write16 (dev : BitVec 7) (reg : BitVec 16)
  /-- IDLE (R75). -/
  | idle
  /-- START (R76). -/
  | start
  /-- STOP (R84). -/
  | stop
  /-- TXI imm8 (R78). -/
  | txi (imm : BitVec 8)
  /-- TXM i (R79). -/
  | txm (i : BitVec 24)
  /-- ACKCHK (R80). -/
  | ackchk
  /-- RXM i (R81). -/
  | rxm (i : BitVec 24)
  /-- SENDACK (R82). -/
  | sendack
  /-- SENDNACK (R83). -/
  | sendnack
  /-- LOCK (R85). -/
  | lock
  /-- UNLOCK (R86). -/
  | unlock
  deriving DecidableEq, Repr

/-- The two word formats (R55): command words, which host threads issue, and micro-op words, which the sequencer runs. -/
inductive Format where
  | cmd
  | uop
  deriving DecidableEq, Repr

/-- The format of an instruction's word: the table's column "format". -/
def Instr.format : Instr → Format
  | .init | .deinit | .probe _ | .read8 _ _ | .read16 _ _ | .readna _ | .write8 _ _ | .write16 _ _ => .cmd
  | .idle | .start | .stop | .txi _ | .txm _ | .ackchk | .rxm _ | .sendack | .sendnack | .lock | .unlock => .uop

/-- The code in bits 3:0 of an instruction's word: OP of R58 or UOP of R63. -/
def Instr.code : Instr → BitVec 4
  | .init => 0x1
  | .deinit => 0x2
  | .probe _ => 0x3
  | .read8 _ _ => 0x4
  | .read16 _ _ => 0x5
  | .readna _ => 0x6
  | .write8 _ _ => 0x7
  | .write16 _ _ => 0x8
  | .idle => 0x1
  | .start => 0x2
  | .stop => 0x3
  | .txi _ => 0x4
  | .txm _ => 0x5
  | .ackchk => 0x6
  | .rxm _ => 0x7
  | .sendack => 0x8
  | .sendnack => 0x9
  | .lock => 0xA
  | .unlock => 0xB

/-- Why a word is refused (R60, R64, R109). The two reasons of command words are R59's; those of micro-op words are the
model's own names for the conditions of R64 (DESIGN CHOICE, log 34). -/
inductive RefuseReason where
  /-- RESERVED_OP: a command word whose OP is 0 or at least 9 (R59). -/
  | reservedOp
  /-- RESERVED_BITS: a command word with a nonzero bit where its command needs 0 (R59). -/
  | reservedBits
  /-- A micro-op word whose UOP is 0 or at least 0xC (R64). -/
  | reservedUop
  /-- A micro-op word whose Z is not 0 (R64). -/
  | reservedZ
  /-- A micro-op word whose OPD breaks R62 (R64). -/
  | reservedOpd
  /-- A TXM or RXM whose index is not less than COUNT (R64). -/
  | indexRange
  deriving DecidableEq, Repr

/-- A command descriptor (R56). BUS is an index into the constructed instances, none for the absent handle NONE;
BUF = 0 is the absent buffer (D4). Its widths are parameters, so BUF and COUNT are numbers that WellFormed bounds. -/
structure Descriptor where
  word : Word
  bus : Option Nat
  buf : Nat
  count : Nat
  deriving DecidableEq, Repr

end Sys2Proof
end

