-- ==== Sys2Proof/WellFormed.lean ====
section
/-!
DEFINITION. Which instructions and descriptors are well formed. The exact field widths of R57 and R62 are in the
types; what is left are the buffer index of TXM and RXM and the open widths of a descriptor's fields.
-/

namespace Sys2Proof

/-- An index that some COUNT exceeds. COUNT has at most 24 bits (R6), so it is at most 2^24 - 1 and an index of
2^24 - 1 is below no COUNT (R29, R64). -/
def indexOk (i : BitVec 24) : Bool := decide (i.toNat + 1 < 2 ^ 24)

/-- Well-formed in some command: a TXM or RXM index is one that R64 does not refuse in every command. -/
def Instr.wellFormed : Instr → Bool
  | .txm i => indexOk i
  | .rxm i => indexOk i
  | .init | .deinit | .probe _ | .read8 _ _ | .read16 _ _ | .readna _ | .write8 _ _ | .write16 _ _ => true
  | .idle | .start | .stop | .txi _ | .ackchk | .sendack | .sendnack | .lock | .unlock => true

/-- Well-formed in a command with this COUNT: a TXM or RXM index is below it (R64, R78 to R81). -/
def Instr.wellFormedFor (count : Nat) : Instr → Bool
  | .txm i => decide (i.toNat < count)
  | .rxm i => decide (i.toNat < count)
  | .init | .deinit | .probe _ | .read8 _ _ | .read16 _ _ | .readna _ | .write8 _ _ | .write16 _ _ => true
  | .idle | .start | .stop | .txi _ | .ackchk | .sendack | .sendnack | .lock | .unlock => true

/-- A descriptor whose COUNT and BUF fit their widths (R56). An operand out of range is a syntax error, not a
truncation (R70). -/
def Descriptor.wellFormed (p : Params) (d : Descriptor) : Bool :=
  decide (d.count < 2 ^ p.countWidth) && decide (d.buf < 2 ^ p.addrWidth)

end Sys2Proof
end

