-- ==== Sys2Proof/Decode.lean ====
section
/-!
DEFINITION. Decoding command words (R59) and micro-op words (R62 to R64), total on any word and refusing by name;
then the encoder, written from the field tables of R57 and R62; then the reading of an opcode-table word.
-/

namespace Sys2Proof

/-- Bits 3:0 of either format: OP (R57) or UOP (R62). -/
def codeField (w : Word) : BitVec 4 := w.extractLsb' 0 4

/-- DEV, bits 10:4 of a command word (R57). -/
def devField (w : Word) : BitVec 7 := w.extractLsb' 4 7

/-- RSV, bits 15:11 of a command word (R57). -/
def rsvField (w : Word) : BitVec 5 := w.extractLsb' 11 5

/-- REG, bits 31:16 of a command word (R57). -/
def regField (w : Word) : BitVec 16 := w.extractLsb' 16 16

/-- Z, bits 7:4 of a micro-op word (R62). -/
def zField (w : Word) : BitVec 4 := w.extractLsb' 4 4

/-- OPD, bits 31:8 of a micro-op word (R62). -/
def opdField (w : Word) : BitVec 24 := w.extractLsb' 8 24

/-- REG[7:0], the 8-bit register address (R57). -/
def reg8Of (r : BitVec 16) : BitVec 8 := r.extractLsb' 0 8

/-- Accept the command when its unused fields are 0, else RESERVED_BITS (R59). -/
def whenZero (unusedZero : Bool) (i : Instr) : Except RefuseReason Instr :=
  if unusedZero then .ok i else .error .reservedBits

/-- decode(W) of R59: OP first, then RSV, then the fields the command does not use. -/
def decodeCmd (w : Word) : Except RefuseReason Instr :=
  let dev := devField w
  let reg := regField w
  let regHigh := reg.extractLsb' 8 8
  if codeField w = 0 ∨ 9 ≤ (codeField w).toNat then .error .reservedOp
  else if rsvField w ≠ 0 then .error .reservedBits
  else
    match (codeField w).toNat with
    | 1 => whenZero (decide (dev = 0) && decide (reg = 0)) .init
    | 2 => whenZero (decide (dev = 0) && decide (reg = 0)) .deinit
    | 3 => whenZero (decide (reg = 0)) (.probe dev)
    | 4 => whenZero (decide (regHigh = 0)) (.read8 dev (reg8Of reg))
    | 5 => .ok (.read16 dev reg)
    | 6 => whenZero (decide (reg = 0)) (.readna dev)
    | 7 => whenZero (decide (regHigh = 0)) (.write8 dev (reg8Of reg))
    | _ => .ok (.write16 dev reg)

/-- Accept the micro-op when its OPD obeys R62, else refuse the word (R64). -/
def whenOpd (opdOk : Bool) (i : Instr) : Except RefuseReason Instr :=
  if opdOk then .ok i else .error .reservedOpd

/-- A TXM or RXM whose index some COUNT exceeds; the one index that no COUNT exceeds is refused here (R64, log 27). -/
def whenIndex (i : BitVec 24) (instr : Instr) : Except RefuseReason Instr :=
  if indexOk i then .ok instr else .error .indexRange

/-- Decoding a micro-op word (R62, R63, R64). DESIGN CHOICE (log 34): R64 gives its conditions neither reasons nor an
order; the reason is that of UOP, then Z, then OPD or the index. That an index is below the command's own COUNT is checked where the
micro-op runs, since the word alone does not say it. -/
def decodeUop (w : Word) : Except RefuseReason Instr :=
  let opd := opdField w
  if codeField w = 0 ∨ 12 ≤ (codeField w).toNat then .error .reservedUop
  else if zField w ≠ 0 then .error .reservedZ
  else
    match (codeField w).toNat with
    | 1 => whenOpd (decide (opd = 0)) .idle
    | 2 => whenOpd (decide (opd = 0)) .start
    | 3 => whenOpd (decide (opd = 0)) .stop
    | 4 => whenOpd (decide (opd.extractLsb' 8 16 = 0)) (.txi (opd.extractLsb' 0 8))
    | 5 => whenIndex opd (.txm opd)
    | 6 => whenOpd (decide (opd = 0)) .ackchk
    | 7 => whenIndex opd (.rxm opd)
    | 8 => whenOpd (decide (opd = 0)) .sendack
    | 9 => whenOpd (decide (opd = 0)) .sendnack
    | 10 => whenOpd (decide (opd = 0)) .lock
    | _ => whenOpd (decide (opd = 0)) .unlock

/-- The decoder of a format. -/
def decodeAs : Format → Word → Except RefuseReason Instr
  | .cmd, w => decodeCmd w
  | .uop, w => decodeUop w

/-- A command word from its fields: OP | DEV << 4 | REG << 16 (R57, R70). -/
def cmdWord (op : BitVec 4) (dev : BitVec 7) (reg : BitVec 16) : Word :=
  op.setWidth 32 ||| (dev.setWidth 32 <<< 4) ||| (reg.setWidth 32 <<< 16)

/-- A micro-op word from its fields: UOP | OPD << 8 (R62, R71). -/
def uopWord (op : BitVec 4) (opd : BitVec 24) : Word := op.setWidth 32 ||| (opd.setWidth 32 <<< 8)

/-- The word of an instruction: the assembler of R70 and R71. -/
def encode (i : Instr) : Word :=
  match i with
  | .init => cmdWord i.code 0 0
  | .deinit => cmdWord i.code 0 0
  | .probe dev => cmdWord i.code dev 0
  | .read8 dev reg => cmdWord i.code dev (reg.setWidth 16)
  | .read16 dev reg => cmdWord i.code dev reg
  | .readna dev => cmdWord i.code dev 0
  | .write8 dev reg => cmdWord i.code dev (reg.setWidth 16)
  | .write16 dev reg => cmdWord i.code dev reg
  | .idle => uopWord i.code 0
  | .start => uopWord i.code 0
  | .stop => uopWord i.code 0
  | .txi imm => uopWord i.code (imm.setWidth 24)
  | .txm idx => uopWord i.code idx
  | .ackchk => uopWord i.code 0
  | .rxm idx => uopWord i.code idx
  | .sendack => uopWord i.code 0
  | .sendnack => uopWord i.code 0
  | .lock => uopWord i.code 0
  | .unlock => uopWord i.code 0

/-- How many bits the table's mask fixes in an instruction's row. -/
def Instr.fixedBits : Instr → Nat
  | .probe _ | .readna _ => 25
  | .read8 _ _ | .write8 _ _ => 17
  | .read16 _ _ | .write16 _ _ => 9
  | .txi _ => 24
  | .txm _ | .rxm _ => 8
  | .init | .deinit | .idle | .start | .stop | .ackchk | .sendack | .sendnack | .lock | .unlock => 32

/-- The table's rows of the two formats overlap (the word 1 is INIT as a command and IDLE as a micro-op), and a word
alone does not say its format. DESIGN CHOICE (log 18): a word that is valid in both is read as the row that fixes
more bits, and as the command where both fix as many. The step itself never has to choose. -/
def readTableWord (w : Word) : Option Instr :=
  match decodeCmd w, decodeUop w with
  | .ok c, .ok u => if c.fixedBits < u.fixedBits then some u else some c
  | .ok c, .error _ => some c
  | .error _, .ok u => some u
  | .error _, .error _ => none

/-- The instruction the decoders read from an opcode-table word of nbits bits. Every word of the table is one 32-bit
word (R61); bits above nbits are 0. -/
def decodeTableWord (nbits w : Nat) : Option Instr :=
  if nbits ≤ 32 then readTableWord (BitVec.ofNat 32 (w % 2 ^ nbits)) else none

end Sys2Proof
end

