-- ==== Sys2Proof/Machine/State.lean ====
section
/-!
DEFINITION. The state of the machine as plain data: the bus instances (R13), the commands in flight (R24 to R28), the
host's memory and what host threads will do, and the machine right after reset (R37, R119).
-/

namespace Sys2Proof.Machine

/-- The host-misuse reasons of R109. They are values of the state element FAULT, not outcomes of a step: raising one
puts the instance into its faulted state, which is a next state. -/
inductive FaultReason where
  /-- NOT_INIT: a transaction command, a DEINIT or a LOCK while INITD = 0. -/
  | notInit
  /-- REINIT: INIT while INITD = 1. -/
  | reInit
  /-- DEINIT_BUSY: DEINIT while the lock is not free. -/
  | deinitBusy
  /-- NULL_BUS: INIT or DEINIT with BUS = NONE. -/
  | nullBus
  /-- BUF_RANGE: a TXM or RXM address is no valid host byte. -/
  | bufRange
  /-- BUF_RACE: another agent touches the buffer of a command in flight. -/
  | bufRace
  deriving DecidableEq, Repr

/-- The events of R21, one per operation of the pin abstraction, with the memory events of R41. -/
inductive Event where
  | sdaL
  | sdaH
  | sclL
  | sclH
  | sdaIn
  | sdaOut
  | sclIn
  | sclOut
  | rdSda (b : Bool)
  | rdScl (b : Bool)
  | busy (b : Bool)
  | dly (n : Nat)
  | pcfg
  | prel
  | csOn
  | csOff
  | warnBusy
  | lock
  | unlock
  | mrd (a : Nat) (v : Byte)
  | mwr (a : Nat) (v : Byte)
  | fault (r : FaultReason)
  deriving DecidableEq, Repr

/-- An entry of a history: an event tagged with the host thread it was emitted for (R31). -/
structure Entry where
  thread : Nat
  event : Event
  deriving DecidableEq, Repr

/-- LOCK (R18): it does not exist before INIT and after DEINIT, else it is free or held by a thread. -/
inductive LockState where
  | absent
  | free
  | held (t : Nat)
  deriving DecidableEq, Repr

/-- The six transaction commands, the values OP takes in a latched CMD (R24). -/
inductive TxnOp where
  | probe
  | read8
  | read16
  | readna
  | write8
  | write16
  deriving DecidableEq, Repr

/-- CMD, the latched command (R24). COUNT and BUF are bounded by the open widths of State.params. -/
structure Cmd where
  op : TxnOp
  dev : BitVec 7
  reg : BitVec 16
  count : Nat
  buf : Nat
  deriving DecidableEq, Repr

/-- A command in flight: the transaction registers that have a value exactly while it is (R24, R25, R27, R28). Several
threads may have a command in flight on one instance, all but one of them waiting in LOCK, so each has its own (log 2). -/
structure Txn where
  /-- The host thread that issued the command. -/
  thread : Nat
  /-- The bus instance it runs on. -/
  bus : Nat
  /-- CMD (R24). -/
  cmd : Cmd
  /-- UPROG (R25), micro-op words. -/
  uprog : List Word
  /-- UPC (R25). -/
  upc : Nat
  /-- ACK (R27). -/
  ack : Bool
  /-- FAIL (R28). -/
  fail : Bool
  /-- Buffer addresses that another agent touched against R49 and that this command has still to access (D25, log 14). -/
  raced : List Nat
  /-- The model's own: a test harness's micro-op words in the place of a command, no host thread's command (R55, log 17). -/
  harness : Bool
  deriving DecidableEq, Repr

/-- One bus instance (R13). -/
structure Bus where
  /-- T_HALF (R15). -/
  tHalf : Nat
  /-- PINS (R16). -/
  pins : Pins
  /-- INITD (R17). -/
  initd : Bool
  /-- LOCK (R18). -/
  lock : LockState
  /-- The pin port (R19). -/
  port : Port
  /-- SHIFT (R26). -/
  shift : Byte
  /-- BITCNT (R26). -/
  bitcnt : Nat
  /-- POLLCNT (R27). -/
  pollcnt : Nat
  /-- IDX (R29). -/
  idx : Nat
  /-- RESULT (R30); none is the spec's "no value" (R37). -/
  result : Option Bool
  /-- HIST (R31), oldest entry first. -/
  hist : List Entry
  /-- FAULT (R32); none is NONE. -/
  fault : Option FaultReason
  /-- The model's own: the environment's answers still to come (log 3). -/
  env : List Bool
  /-- The model's own: the number of free values this instance has drawn (log 3, 4). -/
  draws : Nat
  deriving DecidableEq, Repr

/-- The ghost outcome codes of R105 (D41). -/
inductive Code where
  | ok
  | eNullBus
  | eZeroCount
  | eNullBuf
  | eNack
  | initDone
  | deinitDone
  deriving DecidableEq, Repr

/-- What a call hands back to its thread (R105, R118). -/
inductive Answer where
  /-- The outcome of a command. -/
  | code (c : Code)
  /-- A constructed instance. -/
  | handle (i : Nat)
  /-- The byte a plain load read. -/
  | loaded (v : Byte)
  /-- A plain store is done. -/
  | stored
  deriving DecidableEq, Repr

/-- A return to a host thread. -/
structure Return where
  thread : Nat
  bus : Option Nat
  answer : Answer
  deriving DecidableEq, Repr

/-- What a host thread may do (R118), and the harness of R55. A harness is no host thread: it runs no micro-op on an
instance while a host thread's command is in flight there (R129, log 17). -/
inductive HostAction where
  /-- Construct an instance with a T_HALF and a pin pair, a clock line and a data line. -/
  | construct (tHalf : Nat) (pins : Pins)
  /-- Hand over a command descriptor. -/
  | issue (d : Descriptor)
  /-- The thread's own load of a host byte. -/
  | load (a : Nat)
  /-- The thread's own store of a host byte. -/
  | store (a : Nat) (v : Byte)
  /-- Not a host thread's but a test harness's: run micro-op words on an instance, in the place of a command (R55). -/
  | harness (bus : Nat) (cmd : Cmd) (words : List Word)
  deriving DecidableEq, Repr

/-- An action a thread will take. A thread's requests are taken in list order. -/
structure Request where
  thread : Nat
  action : HostAction
  deriving DecidableEq, Repr

/-- A part of the host's memory layout: which bytes exist and may be read or written (R40). -/
structure Region where
  base : Nat
  size : Nat
  readable : Bool
  writable : Bool
  deriving DecidableEq, Repr

/-- The whole state: N_BUS bus instances, host memory, the commands in flight and what the outside will do. -/
structure State where
  /-- COUNT_WIDTH and ADDR_WIDTH (R6). -/
  params : Params
  /-- The constructed bus instances (R13, R115); a reference to one is its index. -/
  buses : List Bus
  /-- Host memory, the caller's buffer among it (R38, R39), in the canonical form Memory.wf; one for all threads (log 37). -/
  mem : List Host.Cell
  /-- The host's memory layout (R40). -/
  layout : List Region
  /-- The commands in flight, at most one per thread (R7). -/
  txns : List Txn
  /-- What host threads will do next (R118). -/
  requests : List Request
  /-- What calls have handed back, oldest first (R91, R105). -/
  returns : List Return
  /-- The model's own: threads whose command faulted or was refused, and so never returns (R103; log 10, 11). -/
  blocked : List Nat
  /-- The refusal mark, kept for the whole run (R60): the first refusal. -/
  refusal : Option RefuseReason
  /-- FAULT events of commands that name no instance (R87 NULL_BUS; log 12), oldest first. -/
  noBusHist : List Entry
  /-- The descriptor handed over last (R56); a command reads its BUS, BUF and COUNT here. -/
  desc : Descriptor
  /-- The model's own: the thread whose turn it is. -/
  cur : Nat
  /-- The model's own: the threads that take the next turns (R7; log 15). -/
  sched : List Nat
  /-- The model's own: the number of turns taken. -/
  turns : Nat
  deriving DecidableEq, Repr

/-- The outcomes that stop the machine with a fault. The spec's own faults are next states (FaultReason). -/
inductive Fault where
  /-- A micro-op is executed for a thread with no command in flight: reading CMD, UPROG or UPC, which then have no
  value, is a model fault (R37, R73, U8). Raised by every micro-op's meaning; no step reaches it. Safe: it stops. -/
  | noCommandInFlight
  /-- A descriptor or a command in flight names an instance that was never constructed (R56 gives BUS no such value).
  Raised by every meaning. Safe: it stops. -/
  | noSuchBus
  /-- A host thread's own load or store names a byte that is not in the host's memory layout; the spec describes host
  memory only as readable or writable bytes (R40). Raised by the step for such an action. Safe: it stops. -/
  | hostAddress
  deriving DecidableEq, Repr

/-- The outcomes that give no meaning. The spec's own refusals are next states with the refusal mark (RefuseReason). -/
inductive Refusal where
  /-- The instruction has no meaning yet. Raised by exec alone. Safe: it stops. -/
  | notModelled (mnemonic : String)
  /-- A descriptor whose BUF or COUNT does not fit its width is no descriptor (R56, R70). Raised by the step. Safe: it
  stops. -/
  | notADescriptor
  /-- An instance with T_HALF = 0 or on a line that another instance uses (R15, R16, R118), host duties the model gives no
  move; or with one line as both its clock and its data line, of which R16 says nothing (DESIGN CHOICE, log 24). Raised by
  the step. Safe: it stops. -/
  | badConstruction
  /-- A harness names an instance that was never constructed. Raised by the step. Safe: it stops. -/
  | badHarness
  deriving DecidableEq, Repr

/-- An instance right after its construction (R37, R119). The port is unspecified: a free value (log 4). SHIFT, BITCNT,
POLLCNT and IDX have no value in the spec and 0 here (log 20). -/
def Bus.constructed (tHalf : Nat) (pins : Pins) : Bus :=
  { tHalf := tHalf
    pins := pins
    initd := false
    lock := .absent
    port := Config.freePort pins 0
    shift := 0
    bitcnt := 0
    pollcnt := 0
    idx := 0
    result := none
    hist := []
    fault := none
    env := []
    draws := 1 }

/-- The machine right after reset (R119): one constructed instance, no command in flight, nothing issued. The widths,
the pins and the memory layout are the model's choice (logs 6, 7, 9). -/
def State.reset : State :=
  { params := { addrWidth := 32, countWidth := 24 }
    buses := [Bus.constructed Config.tHalf { scl := 0, sda := 1 }]
    mem := []
    layout := [{ base := 0, size := 2 ^ 32, readable := true, writable := true }]
    txns := []
    requests := []
    returns := []
    blocked := []
    refusal := none
    noBusHist := []
    desc := { word := 0, bus := none, buf := 0, count := 0 }
    cur := 0
    sched := []
    turns := 0 }

end Sys2Proof.Machine
end

