-- ==== Sys2Proof/Machine/Memory.lean ====
section
/-!
DEFINITION. Host memory (R38, R41): a list of (address, byte) pairs in canonical form, addresses strictly rising and no
entry equal to what an unlisted address reads as.
-/

namespace Sys2Proof.Machine

/-- What an address that is not listed reads as. DESIGN CHOICE (log 8): the spec gives host memory no initial content. -/
def Memory.unlisted : Byte := 0

/-- The canonical form: addresses strictly rising, no entry equal to Memory.unlisted. -/
abbrev Memory.wf (m : List Host.Cell) : Prop :=
  m.Pairwise (fun c d => c.1 < d.1) ∧ ∀ c ∈ m, c.2 ≠ Memory.unlisted

/-- The byte at an address. -/
def Memory.read : List Host.Cell → Nat → Byte
  | [], _ => Memory.unlisted
  | c :: m, a => if c.1 = a then c.2 else Memory.read m a

/-- Put an entry in front, unless it is what an unlisted address reads as. -/
def Memory.consIf (a : Nat) (v : Byte) (m : List Host.Cell) : List Host.Cell :=
  if v = Memory.unlisted then m else (a, v) :: m

/-- Write a byte, keeping the canonical form. -/
def Memory.write : List Host.Cell → Nat → Byte → List Host.Cell
  | [], a, v => Memory.consIf a v []
  | c :: m, a, v =>
    if a < c.1 then Memory.consIf a v (c :: m)
    else if a = c.1 then Memory.consIf a v m
    else c :: Memory.write m a v

end Sys2Proof.Machine
end

