-- ==== Sys2Proof/Machine/Operands.lean ====
section
/-!
DEFINITION. The operand forms: the bus framers (R65, R66), the bit order on the wire (R42), the events of one sent bit
and byte (R77), and the buffer addressing of TXM and RXM (R39, R41).
-/

namespace Sys2Proof.Machine

/-- The direction bit of an address byte: 0 for write (R65). -/
def dirWrite : BitVec 1 := 0

/-- The direction bit of an address byte: 1 for read (R65). -/
def dirRead : BitVec 1 := 1

/-- addrByte(dev, rw) of R65: the device address shifted left one bit, ORed with the direction bit. -/
def addrByte (dev : BitVec 7) (rw : BitVec 1) : Byte := (dev.setWidth 8 <<< 1) ||| rw.setWidth 8

/-- REG[15:8], the high byte of a register address (R66). -/
def regHigh (reg : BitVec 16) : Byte := reg.extractLsb' 8 8

/-- REG[7:0], the low byte of a register address (R66). -/
def regLow (reg : BitVec 16) : Byte := reg.extractLsb' 0 8

/-- The bits of a byte in the order they go on the wire: bit 7 first, bit 0 last (R42). -/
def wireBits (v : Byte) : List Bool :=
  [v.getLsbD 7, v.getLsbD 6, v.getLsbD 5, v.getLsbD 4, v.getLsbD 3, v.getLsbD 2, v.getLsbD 1, v.getLsbD 0]

/-- Set SDA to a bit: the event SDA_H for 1, SDA_L for 0 (R77). -/
def setSda (bit : Bool) : Event := if bit then .sdaH else .sdaL

/-- The six events that send one bit (R77); T is T_HALF. -/
def sendBitEvents (T : Nat) (bit : Bool) : List Event := [setSda bit, .dly T, .sclH, .dly T, .sclL, .dly T]

/-- The 48 events that send one byte (R77). -/
def sendByteEvents (T : Nat) (v : Byte) : List Event := (wireBits v).flatMap (sendBitEvents T)

/-- The address of buffer byte i, BUF + i (R39, R41). It is an exact sum: an address past 2^ADDR_WIDTH - 1 is no valid
host byte (R40), so nothing wraps. -/
def Cmd.bufAddr (c : Cmd) (i : Nat) : Nat := c.buf + i

/-- Which direction a command moves the buffer in: READ8, READ16 and READNA write it (R38). -/
def TxnOp.isRead : TxnOp → Bool
  | .read8 | .read16 | .readna => true
  | .probe | .write8 | .write16 => false

/-- Whether a command has a buffer at all: PROBE ignores BUF and COUNT (R56, R100). -/
def TxnOp.hasBuffer : TxnOp → Bool
  | .probe => false
  | .read8 | .read16 | .readna | .write8 | .write16 => true

/-- The buffer index a micro-op word addresses, when it is a TXM or RXM (R29). -/
def accessIndex (w : Word) : Option Nat :=
  match decodeUop w with
  | .ok (.txm i) => some i.toNat
  | .ok (.rxm i) => some i.toNat
  | _ => none

/-- The command's buffer holds this address (R39). -/
def Txn.covers (x : Txn) (a : Nat) : Bool :=
  x.cmd.op.hasBuffer && decide (x.cmd.buf ≤ a) && decide (a < x.cmd.buf + x.cmd.count)

/-- The command has still to access this buffer address itself: a TXM or RXM of it has not run yet. -/
def Txn.awaits (x : Txn) (a : Nat) : Bool :=
  (x.uprog.drop x.upc).any fun w =>
    match accessIndex w with
    | some i => decide (x.cmd.bufAddr i = a)
    | none => false

end Sys2Proof.Machine
end

