-- ==== Sys2Proof/Machine/Ops.lean ====
section
/-!
DEFINITION. The shared operations: events and their effects (R21), the environment's answers (R22), raising a fault
(R109) and refusing a word (R60), which are this hardware's only exceptions and have no return (R104), and the named
operations over the bus instances, the commands in flight and host memory.
-/

namespace Sys2Proof

/-- drv(SDA) of R20: 0 only when the line is an output and its latch is 0; else 1, released. -/
def Port.drvSda (p : Port) : Bool :=
  match p.sdaMode with
  | .out => p.sdaLat
  | .inp => true

/-- drv(SCL) of R20. -/
def Port.drvScl (p : Port) : Bool :=
  match p.sclMode with
  | .out => p.sclLat
  | .inp => true

end Sys2Proof

namespace Sys2Proof.Machine

/-- The port elements become unspecified: a fresh free value (R21 BUSY and PREL, R22; log 4). -/
def Bus.freshPort (b : Bus) : Bus :=
  { b with port := Config.freePort b.pins b.draws, draws := b.draws + 1 }

/-- The effect of an event on the instance's state (R21), for the thread t it is emitted for. MRD and MWR act on host
memory, which is no state of the instance. -/
def Event.effect (t : Nat) (e : Event) (b : Bus) : Bus :=
  match e with
  | .sdaL => { b with port := { b.port with sdaLat := false } }
  | .sdaH => { b with port := { b.port with sdaLat := true } }
  | .sclL => { b with port := { b.port with sclLat := false } }
  | .sclH => { b with port := { b.port with sclLat := true } }
  | .sdaIn => { b with port := { b.port with sdaMode := .inp } }
  | .sdaOut => { b with port := { b.port with sdaMode := .out } }
  | .sclIn => { b with port := { b.port with sclMode := .inp } }
  | .sclOut => { b with port := { b.port with sclMode := .out } }
  | .rdSda _ => b
  | .rdScl _ => b
  | .busy _ => b.freshPort
  | .dly _ => b
  | .pcfg => { b with port := { sdaMode := .out, sdaLat := true, sclMode := .out, sclLat := true } }
  | .prel => b.freshPort
  | .csOn => b
  | .csOff => b
  | .warnBusy => b
  | .lock => { b with lock := .held t }
  | .unlock => { b with lock := .free }
  | .mrd _ _ => b
  | .mwr _ _ => b
  | .fault r => { b with fault := some r }

/-- Emit(e) of R9: the event's effect, and one entry at the end of the history (R31). -/
def Bus.emit (t : Nat) (b : Bus) (e : Event) : Bus :=
  let b' := e.effect t b
  { b' with hist := b'.hist ++ [{ thread := t, event := e }] }

/-- Emit several events in order. -/
def Bus.emits (t : Nat) (es : List Event) (b : Bus) : Bus := es.foldl (Bus.emit t) b

/-- The environment's next answer (R22): the next one of the script, else a free value. -/
def Bus.answer (b : Bus) : Bool × Bus :=
  match b.env with
  | a :: rest => (a, { b with env := rest })
  | [] => (Config.freeAnswer b.pins b.draws, { b with draws := b.draws + 1 })

/-- ReadSDA() of R9. The level read is the wired-AND of the engine's drive and the environment's answer (R20, R22), so
it is 0 wherever the engine drives 0. -/
def Bus.readSda (t : Nat) (b : Bus) : Bool × Bus :=
  let v := b.port.drvSda && b.answer.1
  (v, b.answer.2.emit t (.rdSda v))

/-- ReadSCL() of R9: the bit the environment supplies, recorded as RD_SCL. R22 puts its one constraint on RD_SDA only
(log 28). No command uses it (R127). -/
def Bus.readScl (t : Nat) (b : Bus) : Bool × Bus :=
  let v := b.answer.1
  (v, b.answer.2.emit t (.rdScl v))

/-- BusBusy() of R9: the boolean the environment supplies, recorded as BUSY; the port is then unspecified (R22). -/
def Bus.busBusy (t : Nat) (b : Bus) : Bool × Bus :=
  let v := b.answer.1
  (v, b.answer.2.emit t (.busy v))

/-- txbyte(v) of R77: SHIFT is loaded, the eight bits are sent, and BITCNT has counted them. -/
def Bus.txbyte (t : Nat) (v : Byte) (b : Bus) : Bus :=
  { ({ b with shift := v } : Bus).emits t (sendByteEvents b.tHalf v) with bitcnt := 8 }

/-- One bit of RXM (R81): SCL rises, SDA is sampled at once into SHIFT, SCL falls. -/
def Bus.rxbit (t : Nat) (b : Bus) : Bus :=
  let r := (b.emit t .sclH).readSda t
  let b' := { r.2 with shift := (r.2.shift <<< 1) ||| (BitVec.ofBool r.1).setWidth 8, bitcnt := r.2.bitcnt + 1 }
  b'.emits t [.dly b.tHalf, .sclL, .dly b.tHalf]

/-- n bits of RXM. -/
def Bus.rxbits (t : Nat) : Nat → Bus → Bus
  | 0, b => b
  | n + 1, b => Bus.rxbits t n (b.rxbit t)

/-- The command in flight of a thread. -/
def State.txnOf (s : State) (t : Nat) : Option Txn := s.txns.find? fun x => x.thread == t

/-- Replace the command in flight of x's thread by x. -/
def State.putTxn (s : State) (x : Txn) : State :=
  { s with txns := s.txns.map fun y => if y.thread = x.thread then x else y }

/-- Put a command in flight. -/
def State.addTxn (s : State) (x : Txn) : State :=
  { s with txns := x :: s.txns.filter fun y => y.thread != x.thread }

/-- The thread's command is no longer in flight. -/
def State.dropTxn (s : State) (t : Nat) : State :=
  { s with txns := s.txns.filter fun y => y.thread != t }

/-- Replace bus instance i. -/
def State.setBus (s : State) (i : Nat) (b : Bus) : State := { s with buses := s.buses.set i b }

/-- The bus instance exists and is faulted (R32). -/
def State.busFaulted (s : State) (i : Nat) : Bool :=
  match s.buses[i]? with
  | some b => b.fault.isSome
  | none => false

/-- A faulted instance takes no further step (R32): f acts on an instance that exists and is not faulted. -/
def State.onBus (s : State) (i : Nat) (f : Bus → Bus) : State :=
  match s.buses[i]? with
  | some b => if b.fault.isSome then s else s.setBus i (f b)
  | none => s

/-- The thread never takes a step again: its command was refused or faulted, so it never returns (R103). -/
def State.block (s : State) (t : Nat) : State :=
  { s with blocked := if t ∈ s.blocked then s.blocked else t :: s.blocked }

/-- raise Fault(r) of R9 and R109, on instance i for thread t: the event FAULT(r), FAULT <- r, and the command of t never
returns. An instance that is already faulted takes no step (R32). -/
def State.raise (s : State) (i t : Nat) (r : FaultReason) : State :=
  (s.onBus i fun b => b.emit t (.fault r)).block t

/-- raise Fault(r) for a command that names no instance (R87 NULL_BUS): there is no instance to put into the faulted
state, so the event is kept apart (log 12). -/
def State.raiseNoBus (s : State) (t : Nat) (r : FaultReason) : State :=
  ({ s with noBusHist := s.noBusHist ++ [{ thread := t, event := .fault r }] } : State).block t

/-- refuse(r) of R60 and R64 for the thread whose turn it is: no event, no lock, no state change and no result; the
refusal mark is kept for the whole run. -/
def State.refuse (s : State) (r : RefuseReason) : State :=
  ({ s with refusal := some (s.refusal.getD r) } : State).block s.cur

/-- Hand an answer back to the thread whose turn it is. -/
def State.ret (s : State) (bus : Option Nat) (a : Answer) : State :=
  { s with returns := s.returns ++ [{ thread := s.cur, bus := bus, answer := a }] }

/-- UPC <- UPC + 1 (R73). -/
def State.advance (s : State) (x : Txn) : State := s.putTxn { x with upc := x.upc + 1 }

/-- A byte of the address space that the host's layout lets the engine read (R40). -/
def State.readable (s : State) (a : Nat) : Bool :=
  decide (a < 2 ^ s.params.addrWidth) &&
    s.layout.any fun r => r.readable && decide (r.base ≤ a) && decide (a < r.base + r.size)

/-- A byte of the address space that the host's layout lets the engine write (R40). -/
def State.writable (s : State) (a : Nat) : Bool :=
  decide (a < 2 ^ s.params.addrWidth) &&
    s.layout.any fun r => r.writable && decide (r.base ≤ a) && decide (a < r.base + r.size)

/-- The byte MemRead(a, 1) returns (R41). -/
def State.readByte (s : State) (a : Nat) : Byte := Memory.read s.mem a

/-- MemWrite(a, 1, v) (R41). -/
def State.writeByte (s : State) (a : Nat) (v : Byte) : State := { s with mem := Memory.write s.mem a v }

/-- Another agent's access at a breaks R49 for the command y: it touches a read command's buffer, or writes a byte that a
write command has still to send. -/
def Txn.races (isWrite : Bool) (a : Nat) (y : Txn) : Bool :=
  y.covers a && (y.cmd.op.isRead || (isWrite && y.awaits a))

/-- The access at a by the agent of thread t breaks R49 for the command y, which has still to access the byte itself: it
is logged, and y's own access then faults (log 14). -/
def Txn.noteTouch (t : Nat) (isWrite : Bool) (a : Nat) (y : Txn) : Txn :=
  if y.thread ≠ t ∧ y.races isWrite a = true ∧ y.awaits a = true then { y with raced := a :: y.raced } else y

/-- The access at a by the agent of thread t touches a byte that the read command y has already written: it faults at
once (R49, log 14). -/
def Txn.racesNow (t a : Nat) (y : Txn) : Bool := y.thread != t && y.races false a && !y.awaits a

/-- An access to host memory by the agent of thread t, seen by every other command in flight (R49). DESIGN CHOICE (log 35):
a BUF_RACE raised at once is tagged with the thread of the raced command, and stops that thread, not the accessing one;
R31 and R49 do not say on whose behalf the event is emitted. -/
def State.touch (s : State) (t : Nat) (isWrite : Bool) (a : Nat) : State :=
  (s.txns.filter (Txn.racesNow t a)).foldl (fun s y => s.raise y.bus y.thread .bufRace)
    { s with txns := s.txns.map (Txn.noteTouch t isWrite a) }

/-- Run f on the instance and the command in flight of the thread whose turn it is. A faulted instance takes no step
(R32). -/
def State.withCommand (s : State) (f : Txn → Bus → State) : Host.Outcome State Fault Refusal :=
  match s.txnOf s.cur with
  | none => .fault .noCommandInFlight
  | some x =>
    match s.buses[x.bus]? with
    | none => .fault .noSuchBus
    | some b => .next (if b.fault.isSome then s else f x b)

/-- A micro-op that only acts on its instance: f on the instance, then UPC + 1 (R73). -/
def State.busMicroOp (s : State) (f : Txn → Bus → Bus) : Host.Outcome State Fault Refusal :=
  s.withCommand fun x b => (s.setBus x.bus (f x b)).advance x

/-- The rest of a micro-op after its memory access: unless that access faulted its own instance, f on the instance and
UPC + 1. -/
def State.carryOn (s : State) (x : Txn) (f : Bus → Bus) : State :=
  match s.buses[x.bus]? with
  | none => s
  | some b => if b.fault.isSome then s else (s.setBus x.bus (f b)).advance x

end Sys2Proof.Machine
end

