-- ==== Sys2Proof/Machine/Flags.lean ====
section
/-!
DEFINITION. The flag computations: ACK and POLLCNT (R27, R80), FAIL (R28) and RESULT (R30, R91).
-/

namespace Sys2Proof.Machine

/-- The polling loop of ACKCHK (R80) with n samples left: a sampled 0 acknowledges and ends the loop, n samples of 1 do
not acknowledge. Gives ACK and the instance. -/
def Bus.poll (t : Nat) : Nat → Bus → Bool × Bus
  | 0, b => (false, b)
  | n + 1, b =>
    let r := b.readSda t
    let b' := { r.2 with pollcnt := r.2.pollcnt + 1 }
    if r.1 then Bus.poll t n b' else (true, b')

/-- The instance and ACK after ACKCHK (R80). -/
def Bus.ackchk (t : Nat) (b : Bus) : Bool × Bus :=
  let r := Bus.poll t Config.ackPolls { b.emits t [.sdaIn, .sclH] with pollcnt := 0 }
  (r.1, r.2.emits t [.sclL, .sdaOut])

/-- FAIL <- FAIL OR NOT ACK, and ACK (R27, R28). -/
def Txn.withAck (x : Txn) (ack : Bool) : Txn := { x with ack := ack, fail := x.fail || !ack }

/-- RESULT of a completed command: NOT FAIL (R30, R91). -/
def Txn.result (x : Txn) : Bool := !x.fail

/-- The outcome code of a completed command (R105). -/
def Txn.code (x : Txn) : Code := if x.fail then .eNack else .ok

/-- What the host sees of an outcome code: the result column of R105. -/
def Code.result : Code → Option Bool
  | .ok => some true
  | .eNullBus => some false
  | .eZeroCount => some false
  | .eNullBuf => some false
  | .eNack => some false
  | .initDone => none
  | .deinitDone => none

end Sys2Proof.Machine
end

