-- ==== Sys2Proof/Machine/Lifecycle.lean ====
section
/-!
DEFINITION. The meanings of the lifecycle commands INIT and DEINIT, rules R87, R101 and R102.
-/

namespace Sys2Proof.Machine

/-- INIT's events and state changes on an instance that is not initialised (R101). -/
def Bus.initialise (t : Nat) (b : Bus) : Bus :=
  let p := b.emit t .pcfg
  let q := p.busBusy t
  let w := if q.1 then q.2.emit t .warnBusy else q.2
  { w.emits t [.sdaH, .sclH, .sdaOut, .sclOut] with lock := .free, initd := true, result := none }

/-- DEINIT's event and state changes on an initialised, idle instance (R102, R121): only T_HALF, PINS, HIST and FAULT
keep their values (R117). The environment is no state of the block. -/
def Bus.deinitialise (t : Nat) (b : Bus) : Bus :=
  { b.emit t .prel with
    initd := false, lock := .absent, shift := 0, bitcnt := 0, pollcnt := 0, idx := 0, result := none }

/-- INIT (R101): NULL_BUS without an instance, REINIT on an initialised one (R110). DESIGN CHOICE (log 31): the whole of
it, checks, events and return, is one step, so no other thread's step falls inside it; the spec gives it no step size. -/
def execInit (s : State) : Host.Outcome State Fault Refusal :=
  match s.desc.bus with
  | none => .next (s.raiseNoBus s.cur .nullBus)
  | some i =>
    match s.buses[i]? with
    | none => .fault .noSuchBus
    | some b =>
      .next
        (if b.fault.isSome then s
         else if b.initd then s.raise i s.cur .reInit
         else (s.setBus i (b.initialise s.cur)).ret (some i) (.code .initDone))

/-- DEINIT (R102): NULL_BUS, then NOT_INIT, then DEINIT_BUSY (R110). DESIGN CHOICE (log 31): the whole of it is one step,
as for INIT. -/
def execDeinit (s : State) : Host.Outcome State Fault Refusal :=
  match s.desc.bus with
  | none => .next (s.raiseNoBus s.cur .nullBus)
  | some i =>
    match s.buses[i]? with
    | none => .fault .noSuchBus
    | some b =>
      .next
        (if b.fault.isSome then s
         else if b.initd = false then s.raise i s.cur .notInit
         else if b.lock ≠ .free then s.raise i s.cur .deinitBusy
         else (s.setBus i (b.deinitialise s.cur)).ret (some i) (.code .deinitDone))

end Sys2Proof.Machine
end

