-- ==== Sys2Proof/Machine/LockOps.lean ====
section
/-!
DEFINITION. The meanings of the micro-ops LOCK and UNLOCK, rules R85 and R86.
-/

namespace Sys2Proof.Machine

/-- LOCK (R85): fault if the lock no longer exists, acquire it if it is free, else hold: no step for the thread. DESIGN
CHOICE (log 36): it tests INITD as it is now, as R85's pseudocode does; so a command accepted before a DEINIT that a new
INIT followed acquires the new lock, where R85's Exceptions line, R109's table and D18 read as a fault. -/
def execLock (s : State) : Host.Outcome State Fault Refusal :=
  s.withCommand fun x b =>
    if b.initd = false then s.raise x.bus x.thread .notInit
    else if b.lock = .free then (s.setBus x.bus (b.emit x.thread .lock)).advance x
    else s

/-- UNLOCK (R86): it requires the lock to be held by its own thread, which is always so in an expanded micro-program.
Run by a harness without that lock it is not enabled, so the thread holds (log 17). -/
def execUnlock (s : State) : Host.Outcome State Fault Refusal :=
  s.withCommand fun x b =>
    if b.lock = .held x.thread then (s.setBus x.bus (b.emit x.thread .unlock)).advance x else s

end Sys2Proof.Machine
end

