-- ==== Sys2Proof/Machine/Primitives.lean ====
section
/-!
DEFINITION. The meanings of the bus primitives (micro-ops) IDLE, START, TXI, TXM, ACKCHK, RXM, SENDACK, SENDNACK and
STOP, rules R75 to R84.
-/

namespace Sys2Proof.Machine

/-- IDLE (R75): release SDA, then SCL. -/
def execIdle (s : State) : Host.Outcome State Fault Refusal :=
  s.busMicroOp fun x b => b.emits x.thread [.csOn, .sdaH, .sclH, .csOff]

/-- START (R76): SDA falls while SCL is high. -/
def execStart (s : State) : Host.Outcome State Fault Refusal :=
  s.busMicroOp fun x b =>
    b.emits x.thread [.csOn, .dly b.tHalf, .sdaL, .dly b.tHalf, .sclL, .dly (2 * b.tHalf), .csOff]

/-- TXI imm8 (R78): txbyte of the immediate byte. -/
def execTxi (imm : BitVec 8) (s : State) : Host.Outcome State Fault Refusal :=
  s.busMicroOp fun x b => b.txbyte x.thread imm

/-- TXM i (R79): read the buffer byte once, then txbyte. The index is checked against COUNT (R64), the address against
the host's memory (R40) and the log of other agents' accesses (R49). DESIGN CHOICE (log 33): a byte that meets both is
BUF_RANGE; the spec gives the two no order. -/
def execTxm (i : BitVec 24) (s : State) : Host.Outcome State Fault Refusal :=
  s.withCommand fun x b =>
    let a := x.cmd.bufAddr i.toNat
    let s1 := s.setBus x.bus { b with idx := i.toNat }
    if x.cmd.count ≤ i.toNat then s.refuse .indexRange
    else if s.readable a = false then s1.raise x.bus x.thread .bufRange
    else if a ∈ x.raced then s1.raise x.bus x.thread .bufRace
    else
      let v := s.readByte a
      let s2 := s.setBus x.bus (({ b with idx := i.toNat } : Bus).emit x.thread (.mrd a v))
      (s2.touch x.thread false a).carryOn x (Bus.txbyte x.thread v)

/-- ACKCHK (R80): release SDA, raise SCL, sample up to ten times, restore, and accumulate FAIL. -/
def execAckchk (s : State) : Host.Outcome State Fault Refusal :=
  s.withCommand fun x b =>
    let r := b.ackchk x.thread
    (s.setBus x.bus r.2).advance (x.withAck r.1)

/-- RXM i (R81): receive eight bits, then write the buffer byte once. The checks are those of TXM, at the write,
in the same order (DESIGN CHOICE, log 33). -/
def execRxm (i : BitVec 24) (s : State) : Host.Outcome State Fault Refusal :=
  s.withCommand fun x b =>
    let a := x.cmd.bufAddr i.toNat
    let b0 := { ({ b with idx := i.toNat } : Bus).emit x.thread .sdaIn with shift := 0, bitcnt := 0 }
    let b1 := b0.rxbits x.thread 8
    let s1 := s.setBus x.bus b1
    if x.cmd.count ≤ i.toNat then s.refuse .indexRange
    else if s.writable a = false then s1.raise x.bus x.thread .bufRange
    else if a ∈ x.raced then s1.raise x.bus x.thread .bufRace
    else
      let s2 := (s.setBus x.bus (b1.emit x.thread (.mwr a b1.shift))).writeByte a b1.shift
      (s2.touch x.thread true a).carryOn x (Bus.emits x.thread [.sdaOut])

/-- SENDACK (R82): the master's acknowledge, SDA driven low through the pulse. -/
def execSendack (s : State) : Host.Outcome State Fault Refusal :=
  s.busMicroOp fun x b =>
    b.emits x.thread [.sdaL, .dly b.tHalf, .sclH, .dly (2 * b.tHalf), .sdaL, .dly (2 * b.tHalf), .sclL, .sdaOut]

/-- SENDNACK (R83): the master's not-acknowledge, SDA floating through the pulse. -/
def execSendnack (s : State) : Host.Outcome State Fault Refusal :=
  s.busMicroOp fun x b => b.emits x.thread [.sdaIn, .sclH, .dly b.tHalf, .sclL, .sdaOut]

/-- STOP (R84): SDA rises while SCL is high. -/
def execStop (s : State) : Host.Outcome State Fault Refusal :=
  s.busMicroOp fun x b =>
    b.emits x.thread [.csOn, .sdaL, .dly b.tHalf, .sclH, .dly b.tHalf, .sdaH, .dly b.tHalf, .csOff]

end Sys2Proof.Machine
end

