-- ==== Sys2Proof/Machine/Expand.lean ====
section
/-!
DEFINITION. The expansion of a latched command to its micro-program (R88, R92).
-/

namespace Sys2Proof.Machine

/-- SENDADDR dev, rw (R72): the address byte and its acknowledge check. -/
def sendAddr (dev : BitVec 7) (rw : BitVec 1) : List Instr := [.txi (addrByte dev rw), .ackchk]

/-- SENDREG8 r (R72). -/
def sendReg8 (reg : BitVec 16) : List Instr := [.txi (regLow reg), .ackchk]

/-- SENDREG16 r (R72): high byte first, each acknowledge-checked. -/
def sendReg16 (reg : BitVec 16) : List Instr := [.txi (regHigh reg), .ackchk, .txi (regLow reg), .ackchk]

/-- RSTART (R72, R92): the repeated start. -/
def repeatedStart : List Instr := [.idle, .start]

/-- recv(n) of R88: every byte but the last is acknowledged, the last is not. No command expands with n = 0 (R87). -/
def recv : Nat → List Instr
  | 0 => []
  | n + 1 => (List.range n).flatMap (fun i => [.rxm (BitVec.ofNat 24 i), .sendack]) ++ [.rxm (BitVec.ofNat 24 n), .sendnack]

/-- send(n) of R88: each data byte, each acknowledge-checked. -/
def send (n : Nat) : List Instr := (List.range n).flatMap fun i => [.txm (BitVec.ofNat 24 i), .ackchk]

/-- head of R88. -/
def headOps : List Instr := [.lock, .idle, .start]

/-- tail of R88. -/
def tailOps : List Instr := [.stop, .unlock]

/-- What a command puts between head and tail (R88). -/
def body (c : Cmd) : List Instr :=
  match c.op with
  | .probe => sendAddr c.dev dirWrite
  | .read8 => sendAddr c.dev dirWrite ++ sendReg8 c.reg ++ repeatedStart ++ sendAddr c.dev dirRead ++ recv c.count
  | .read16 => sendAddr c.dev dirWrite ++ sendReg16 c.reg ++ repeatedStart ++ sendAddr c.dev dirRead ++ recv c.count
  | .readna => sendAddr c.dev dirRead ++ recv c.count
  | .write8 => sendAddr c.dev dirWrite ++ sendReg8 c.reg ++ send c.count
  | .write16 => sendAddr c.dev dirWrite ++ sendReg16 c.reg ++ send c.count

/-- The micro-ops of a command (R88). -/
def microOps (c : Cmd) : List Instr := headOps ++ body c ++ tailOps

/-- expand of R88: the micro-program as micro-op words. -/
def expand (c : Cmd) : List Word := (microOps c).map encode

end Sys2Proof.Machine
end

