-- ==== Sys2Proof/Machine/Transactions.lean ====
section
/-!
DEFINITION. The meanings of the six transaction commands, rules R87 and R95 to R100: the checks of R87 and R110 and the
acceptance of the command. Its micro-program then runs micro-op by micro-op, and the return is Sys2Proof.Machine.State.finish.
-/

namespace Sys2Proof.Machine

/-- A precondition failed (R87): the command returns false with no event and without the lock; RESULT is false (R30). -/
def State.failPrecondition (s : State) (i : Nat) (c : Code) : State :=
  (s.onBus i fun b => { b with result := some false }).ret (some i) (.code c)

/-- The command is accepted (R87): CMD is latched from the descriptor, ACK and FAIL are 0, UPROG is the expansion and UPC
is 0. -/
def State.accept (s : State) (i : Nat) (op : TxnOp) (dev : BitVec 7) (reg : BitVec 16) : State :=
  let c : Cmd := { op := op, dev := dev, reg := reg, count := s.desc.count, buf := s.desc.buf }
  s.addTxn
    { thread := s.cur, bus := i, cmd := c, uprog := expand c, upc := 0, ack := false, fail := false, raced := []
      harness := false }

/-- issue of R87 for a transaction command, with the checks in the order of R110. A faulted instance takes no step
(R32). -/
def State.issueTxn (s : State) (op : TxnOp) (dev : BitVec 7) (reg : BitVec 16) : Host.Outcome State Fault Refusal :=
  match s.desc.bus with
  | none => .next (s.ret none (.code .eNullBus))
  | some i =>
    match s.buses[i]? with
    | none => .fault .noSuchBus
    | some b =>
      .next
        (if b.fault.isSome then s
         else if op.hasBuffer && decide (s.desc.count = 0) then s.failPrecondition i .eZeroCount
         else if op.hasBuffer && decide (s.desc.buf = 0) then s.failPrecondition i .eNullBuf
         else if b.initd = false then s.raise i s.cur .notInit
         else s.accept i op dev reg)

/-- PROBE dev (R100). BUF and COUNT are ignored. -/
def execProbe (dev : BitVec 7) (s : State) : Host.Outcome State Fault Refusal := s.issueTxn .probe dev 0

/-- READ8 dev, reg8 (R95). -/
def execRead8 (dev : BitVec 7) (reg : BitVec 8) (s : State) : Host.Outcome State Fault Refusal :=
  s.issueTxn .read8 dev (reg.setWidth 16)

/-- READ16 dev, reg16 (R96). -/
def execRead16 (dev : BitVec 7) (reg : BitVec 16) (s : State) : Host.Outcome State Fault Refusal :=
  s.issueTxn .read16 dev reg

/-- READNA dev (R97). -/
def execReadna (dev : BitVec 7) (s : State) : Host.Outcome State Fault Refusal := s.issueTxn .readna dev 0

/-- WRITE8 dev, reg8 (R98). -/
def execWrite8 (dev : BitVec 7) (reg : BitVec 8) (s : State) : Host.Outcome State Fault Refusal :=
  s.issueTxn .write8 dev (reg.setWidth 16)

/-- WRITE16 dev, reg16 (R99). -/
def execWrite16 (dev : BitVec 7) (reg : BitVec 16) (s : State) : Host.Outcome State Fault Refusal :=
  s.issueTxn .write16 dev reg

end Sys2Proof.Machine
end

