-- ==== Sys2Proof/Machine/Dispatch.lean ====
section
/-!
DEFINITION. exec: one arm per instruction, each one direct call of its meaning.
-/

namespace Sys2Proof.Machine

def exec (i : Instr) (s : State) : Host.Outcome State Fault Refusal :=
  match i with
  -- commands
  | .init => Sys2Proof.Machine.execInit s
  | .deinit => Sys2Proof.Machine.execDeinit s
  | .probe dev => Sys2Proof.Machine.execProbe dev s
  | .read8 dev reg => Sys2Proof.Machine.execRead8 dev reg s
  | .read16 dev reg => Sys2Proof.Machine.execRead16 dev reg s
  | .readna dev => Sys2Proof.Machine.execReadna dev s
  | .write8 dev reg => Sys2Proof.Machine.execWrite8 dev reg s
  | .write16 dev reg => Sys2Proof.Machine.execWrite16 dev reg s
  -- micro-ops
  | .idle => Sys2Proof.Machine.execIdle s
  | .start => Sys2Proof.Machine.execStart s
  | .stop => Sys2Proof.Machine.execStop s
  | .txi imm => Sys2Proof.Machine.execTxi imm s
  | .txm idx => Sys2Proof.Machine.execTxm idx s
  | .ackchk => Sys2Proof.Machine.execAckchk s
  | .rxm idx => Sys2Proof.Machine.execRxm idx s
  | .sendack => Sys2Proof.Machine.execSendack s
  | .sendnack => Sys2Proof.Machine.execSendnack s
  | .lock => Sys2Proof.Machine.execLock s
  | .unlock => Sys2Proof.Machine.execUnlock s

end Sys2Proof.Machine
end

