-- ==== Sys2Proof/Machine/Fetch.lean ====
section
/-!
DEFINITION. What the next step does: which thread takes the turn (R7), which instruction it runs (R87, R73), the return of
a completed command (R91), the host's other actions (R118), and placing one instruction for the next step.
-/

namespace Sys2Proof.Machine

/-- The thread that takes the next turn: the schedule's next, else a free choice (R7, D11). -/
def State.nextThread (s : State) : Nat :=
  match s.sched with
  | t :: _ => t
  | [] => Config.freeThread s.turns

/-- The turn is taken: the thread is the current one and the schedule moves on. -/
def State.turn (s : State) : State := { s with cur := s.nextThread, sched := s.sched.tail, turns := s.turns + 1 }

/-- The requests after thread t's first one is taken. -/
def dropRequest (t : Nat) : List Request → List Request
  | [] => []
  | r :: rs => if r.thread = t then rs else r :: dropRequest t rs

/-- The next request of a thread. -/
def State.requestOf (s : State) (t : Nat) : Option HostAction :=
  (s.requests.find? fun r => r.thread == t).map Request.action

/-- The current thread's request is taken from the list. -/
def State.takeRequest (s : State) : State := { s with requests := dropRequest s.cur s.requests }

/-- The current thread hands over a descriptor (R56). -/
def State.takeDescriptor (s : State) (d : Descriptor) : State := { s.takeRequest with desc := d }

/-- The end of a command whose micro-program is complete (R87, R91, R103): RESULT <- NOT FAIL, and the result goes back
to the thread. A faulted instance takes no step (R32). -/
def State.finish (s : State) (x : Txn) : State :=
  if s.busFaulted x.bus then s
  else
    ((s.onBus x.bus fun b => { b with result := some x.result }).dropTxn x.thread).ret (some x.bus) (.code x.code)

/-- Another instance is already bound to one of these lines (R16). -/
def State.pinsInUse (s : State) (p : Pins) : Bool :=
  s.buses.any fun b => decide (b.pins.scl = p.scl ∨ b.pins.sda = p.sda ∨ b.pins.scl = p.sda ∨ b.pins.sda = p.scl)

/-- Construct an instance (R118, R119): any positive T_HALF, pins no other instance uses. DESIGN CHOICE (log 24): one line
as both clock and data line is refused; R16 speaks of one clock line and one data line and gives that case no outcome. -/
def State.construct (s : State) (tHalf : Nat) (p : Pins) : Host.Outcome State Fault Refusal :=
  if tHalf = 0 ∨ p.scl = p.sda ∨ s.pinsInUse p then .refused .badConstruction
  else
    .next
      (({ s.takeRequest with buses := s.buses ++ [Bus.constructed tHalf p] } : State).ret none (.handle s.buses.length))

/-- A host thread's own load of a host byte. DESIGN CHOICE (log 37): every thread sees the one memory, with each RXM's and
each thread's store in it at once; the spec orders memory for the calling thread only (R48). -/
def State.hostLoad (s : State) (a : Nat) : Host.Outcome State Fault Refusal :=
  if s.readable a then .next ((s.takeRequest.touch s.cur false a).ret none (.loaded (s.readByte a)))
  else .fault .hostAddress

/-- A host thread's own store of a host byte, seen by every thread at once (DESIGN CHOICE, log 37). -/
def State.hostStore (s : State) (a : Nat) (v : Byte) : Host.Outcome State Fault Refusal :=
  if s.writable a then .next (((s.takeRequest.writeByte a v).touch s.cur true a).ret none .stored)
  else .fault .hostAddress

/-- The command in flight a harness makes of its micro-op words (R55). -/
def harnessTxn (t bus : Nat) (c : Cmd) (words : List Word) : Txn :=
  { thread := t, bus := bus, cmd := c, uprog := words, upc := 0, ack := false, fail := false, raced := [], harness := true }

/-- A harness puts micro-op words in flight (R55, R64). They run only where State.harnessWaits lets them. DESIGN CHOICE
(log 38): its CMD is not checked against the widths of State.params or R87; the spec gives a harness no CMD. -/
def State.openHarness (s : State) (bus : Nat) (c : Cmd) (words : List Word) : Host.Outcome State Fault Refusal :=
  match s.buses[bus]? with
  | none => .refused .badHarness
  | some _ => .next (s.takeRequest.addTxn (harnessTxn s.cur bus c words))

/-- What a turn comes to: an instruction to run on a state, or an outcome that needs none. -/
inductive Fetched where
  | run (i : Instr) (s : State)
  | done (o : Host.Outcome State Fault Refusal)

/-- A harness's micro-op waits: a host thread's command is in flight on its instance, and while one is, no other agent has
a move that touches the lines (R129, log 17). -/
def State.harnessWaits (s : State) (x : Txn) : Bool :=
  x.harness && s.txns.any fun y => decide (y.bus = x.bus) && !y.harness

/-- The micro-op word at UPC of the current thread's command in flight, run or refused (R73, R64); past the end the
command returns (R87). -/
def State.fetchMicro (s : State) (x : Txn) : Fetched :=
  if s.busFaulted x.bus then .done (.next s)
  else
    match x.uprog[x.upc]? with
    | none => .done (.next (s.finish x))
    | some w =>
      if s.harnessWaits x then .done (.next s)
      else
        match decodeUop w with
        | .ok i => .run i s
        | .error r => .done (.next (s.refuse r))

/-- A descriptor handed over by the current thread (R87): it is refused, or its command runs. A faulted instance takes no
step (R32), so the thread keeps its request. -/
def State.fetchCommand (s : State) (d : Descriptor) : Fetched :=
  if d.wellFormed s.params = false then .done (.refused .notADescriptor)
  else
    match decodeCmd d.word with
    | .error r => .done (.next ((s.takeDescriptor d).refuse r))
    | .ok i =>
      match d.bus with
      | none => .run i (s.takeDescriptor d)
      | some b => if s.busFaulted b then .done (.next s) else .run i (s.takeDescriptor d)

/-- What the current thread does in its turn: nothing if it is blocked or has nothing to do (a hold), a micro-op of its
command in flight, else its next request. -/
def State.fetch (s : State) : Fetched :=
  if s.cur ∈ s.blocked then .done (.next s)
  else
    match s.txnOf s.cur with
    | some x => s.fetchMicro x
    | none =>
      match s.requestOf s.cur with
      | none => .done (.next s)
      | some (.issue d) => s.fetchCommand d
      | some (.construct tHalf p) => .done (s.construct tHalf p)
      | some (.load a) => .done (s.hostLoad a)
      | some (.store a v) => .done (s.hostStore a v)
      | some (.harness bus c ws) => .done (s.openHarness bus c ws)

/-- A thread that no part of the state names. -/
def State.freshThread (s : State) : Nat :=
  let m := s.txns.foldl (fun n x => max n x.thread) 0
  let m := s.requests.foldl (fun n r => max n r.thread) m
  let m := s.blocked.foldl max m
  s.buses.foldl (fun n b => match b.lock with | .held t => max n t | _ => n) m + 1

/-- The context a harness runs one placed micro-op word in (log 19): a write command with BUF = 0 and the largest
COUNT that any COUNT_WIDTH allows, whatever State.params says (DESIGN CHOICE, log 38). -/
def harnessCmd : Cmd := { op := .write8, dev := 0, reg := 0, count := 2 ^ 24 - 1, buf := 0 }

/-- s with thread t next, about to hand over the command word w to instance 0 with BUF = 0 and COUNT = 0. -/
def State.placeCommand (s : State) (t : Nat) (w : Word) : State :=
  { s with
    requests := { thread := t, action := .issue { word := w, bus := some 0, buf := 0, count := 0 } } :: s.requests
    sched := t :: s.sched }

/-- s with thread t next, a harness with the micro-op word w in flight on instance 0. -/
def State.placeMicroOp (s : State) (t : Nat) (w : Word) : State :=
  { s with txns := harnessTxn t 0 harnessCmd [w] :: s.txns, sched := t :: s.sched }

/-- s with the instruction of an opcode-table word as the very next thing a step runs (log 19). A word the decoders
refuse is placed as a command word, which the step then refuses. -/
def State.placeTableWord (s : State) (nbits w : Nat) : State :=
  match decodeTableWord nbits w with
  | some i =>
    match i.format with
    | .cmd => s.placeCommand s.freshThread (encode i)
    | .uop => s.placeMicroOp s.freshThread (encode i)
  | none => s.placeCommand s.freshThread (BitVec.ofNat 32 w)

end Sys2Proof.Machine
end

