-- ==== Sys2Proof/Machine/Step.lean ====
section
/-!
DEFINITION. One step of the machine: a thread takes its turn and runs one instruction (a command's acceptance, or one
micro-op of a command in flight) or takes one action that needs none.
-/

namespace Sys2Proof.Machine

/-- One turn of one thread (R7). -/
def step (s : State) : Host.Outcome State Fault Refusal :=
  match s.turn.fetch with
  | .run i s' => exec i s'
  | .done o => o

/-- s with the instruction of an opcode-table word stored where step fetches its next instruction. -/
def State.withFetchWord (s : State) (nbits w : Nat) : State := s.placeTableWord nbits w

end Sys2Proof.Machine
end

