-- ==== Sys2Proof/Safety.lean ====
section
/-!
DEFINITION. The terms claims use: a micro-op's setting and its next state, the drive trace (R23), delay sums (R132) and
trace equivalence (R10), the entry states of micro-ops (R74), the idle invariant (R35), the invariants of the engine, and
the normal end of a run (R103).
-/

namespace Sys2Proof.Machine

/-- The current thread has the command x in flight, on the unfaulted instance b. -/
def InFlight (s : State) (x : Txn) (b : Bus) : Prop :=
  s.txnOf s.cur = some x ∧ s.buses[x.bus]? = some b ∧ b.fault = none

/-- Events as history entries of thread t (R31). -/
def tagged (t : Nat) (es : List Event) : List Entry := es.map fun e => { thread := t, event := e }

/-- The state that differs from s in nothing but the instance of x, which is b', and the command of x's thread, which is
x'. -/
def State.afterMicroOp (s : State) (x : Txn) (b' : Bus) (x' : Txn) : State :=
  { s with buses := s.buses.set x.bus b', txns := s.txns.map fun y => if y.thread = x.thread then x' else y }

/-- The state that differs from s in nothing but instance i, which is b'. -/
def State.withBusOnly (s : State) (i : Nat) (b' : Bus) : State := { s with buses := s.buses.set i b' }

/-- b after Fault(r) for thread t: FAULT is r and the history has one more event (R109). -/
def Bus.faulted (b : Bus) (t : Nat) (r : FaultReason) : Bus :=
  { b with fault := some r, hist := b.hist ++ tagged t [.fault r] }

/-- s with the thread t stopped for good: its command never returns (R103). -/
def State.stopped (s : State) (t : Nat) : State :=
  { s with blocked := if t ∈ s.blocked then s.blocked else t :: s.blocked }

/-- The state that differs from s in nothing but instance i, which is b after Fault(r) for thread t, and in t being
stopped (R109). -/
def State.withFault (s : State) (i : Nat) (b : Bus) (t : Nat) (r : FaultReason) : State :=
  (s.withBusOnly i (b.faulted t r)).stopped t

/-- The state that differs from s in nothing but the refusal mark, which keeps the run's first refusal, and in t being
stopped (R60). -/
def State.withRefusal (s : State) (t : Nat) (r : RefuseReason) : State :=
  ({ s with refusal := some (s.refusal.getD r) } : State).stopped t

/-- The micro-op that ran from s to s' has completed: the current thread's UPC is one more (R73). -/
def Completed (x : Txn) (s s' : State) : Prop := ∃ y, s'.txnOf s.cur = some y ∧ y.upc = x.upc + 1

/-- The access at a by thread t breaks R49 for no command in flight of another thread. -/
def State.quiet (s : State) (t : Nat) (isWrite : Bool) (a : Nat) : Prop :=
  ∀ y ∈ s.txns, y.thread ≠ t → y.races isWrite a = false

/-- From s to s' the access at a by thread t is seen by every other command in flight that it breaks R49 for: a command
whose buffer holds the byte, if it is a read command, or if the access writes and the command has still to send the byte.
It is logged where the command has still to access the byte itself, and else the command's instance, unless faulted
before, is now faulted with BUF_RACE. -/
def RaceSeen (s s' : State) (t : Nat) (isWrite : Bool) (a : Nat) : Prop :=
  ∀ y ∈ s.txns, y.thread ≠ t → y.covers a = true →
    (y.cmd.op.isRead = true ∨ (isWrite = true ∧ y.awaits a = true)) →
    (y.awaits a = true → ∃ y', s'.txnOf y.thread = some y' ∧ a ∈ y'.raced) ∧
    (y.awaits a = false → ∀ b, s.buses[y.bus]? = some b → b.fault = none →
      ∃ b', s'.buses[y.bus]? = some b' ∧ b'.fault = some .bufRace)

/-- The events an instance's history has gained from b to b'. -/
def newEvents (b b' : Bus) : List Event := (b'.hist.drop b.hist.length).map Entry.event

/-- The effect of an event on the pin port, as far as the history tells it (R21). The values that BUSY and PREL leave are
not told; the drive trace is followed from INIT's SCL_OUT to DEINIT. -/
def Event.onPort (e : Event) (p : Port) : Port :=
  match e with
  | .sdaL => { p with sdaLat := false }
  | .sdaH => { p with sdaLat := true }
  | .sclL => { p with sclLat := false }
  | .sclH => { p with sclLat := true }
  | .sdaIn => { p with sdaMode := .inp }
  | .sdaOut => { p with sdaMode := .out }
  | .sclIn => { p with sclMode := .inp }
  | .sclOut => { p with sclMode := .out }
  | .pcfg => { sdaMode := .out, sdaLat := true, sclMode := .out, sclLat := true }
  | .rdSda _ | .rdScl _ | .busy _ | .dly _ | .prel | .csOn | .csOff | .warnBusy | .lock | .unlock | .mrd _ _
  | .mwr _ _ | .fault _ => p

/-- A bus condition on the drive trace (R23). -/
inductive Condition where
  | start
  | stop
  deriving DecidableEq, Repr

/-- The START and STOP conditions an event list makes, from port p (R23): drv(SDA) falls or rises while drv(SCL) = 1. -/
def conditions (p : Port) : List Event → List Condition
  | [] => []
  | e :: es =>
    let q := e.onPort p
    let here :=
      if p.drvScl && q.drvScl then
        (if p.drvSda && !q.drvSda then [.start] else if !p.drvSda && q.drvSda then [.stop] else [])
      else []
    here ++ conditions q es

/-- The data bits an event list transmits, from port p (R23): the level of drv(SDA) where drv(SCL) rises. -/
def sentBits (p : Port) : List Event → List Bool
  | [] => []
  | e :: es =>
    let q := e.onPort p
    (if !p.drvScl && q.drvScl then [q.drvSda] else []) ++ sentBits q es

/-- The n of a DLY event (R132). -/
def Event.delay : Event → Nat
  | .dly n => n
  | .sdaL | .sdaH | .sclL | .sclH | .sdaIn | .sdaOut | .sclIn | .sclOut | .rdSda _ | .rdScl _ | .busy _ | .pcfg | .prel
  | .csOn | .csOff | .warnBusy | .lock | .unlock | .mrd _ _ | .mwr _ _ | .fault _ => 0

/-- The sum of the DLY events of an event list (R132). -/
def dlySum (es : List Event) : Nat := (es.map Event.delay).sum

/-- How many acknowledge checks in an event list saw no acknowledge: a sample of 1 with SCL_L right after it. Only ACKCHK
lowers SCL right after a sample (R80); RXM waits in between (R81). -/
def missedAcks : List Event → Nat
  | [] => 0
  | e :: es => (if e = .rdSda true ∧ es.head? = some .sclL then 1 else 0) + missedAcks es

/-- Whether an event is a DLY (R10). -/
def Event.isDelay : Event → Bool
  | .dly _ => true
  | .sdaL | .sdaH | .sclL | .sclH | .sdaIn | .sdaOut | .sclIn | .sclOut | .rdSda _ | .rdScl _ | .busy _ | .pcfg | .prel
  | .csOn | .csOff | .warnBusy | .lock | .unlock | .mrd _ _ | .mwr _ _ | .fault _ => false

/-- Put a delay of n in front of events that start with no second delay (R10). -/
def consDelay (n : Nat) : List Event → List Event
  | .dly m :: es => .dly (n + m) :: es
  | es => .dly n :: es

/-- Each maximal run of adjacent DLY events replaced by one DLY of the summed duration (R10). -/
def mergeDelays : List Event → List Event
  | [] => []
  | .dly n :: es => consDelay n (mergeDelays es)
  | e :: es => e :: mergeDelays es

/-- Trace equivalence (R10). DESIGN CHOICE (log 32): it compares events without the thread tags of R31, of which R10 says
nothing. -/
def traceEquiv (es fs : List Event) : Prop := mergeDelays es = mergeDelays fs

/-- The port with both lines released outputs (R35). -/
def idlePort : Port := { sdaMode := .out, sdaLat := true, sclMode := .out, sclLat := true }

/-- The two port phases of a micro-program between micro-ops: both lines released, or both outputs with SCL low (R74). -/
inductive Phase where
  | released
  | clockLow
  deriving DecidableEq, Repr

/-- The port is in a phase. -/
def Phase.holds (ph : Phase) (p : Port) : Prop :=
  match ph with
  | .released => p = idlePort
  | .clockLow => p.sdaMode = .out ∧ p.sclMode = .out ∧ p.sclLat = false

/-- The entry state R74 lists for a micro-op, on the port. R74 has no row for LOCK and UNLOCK, and commands are no
micro-ops. -/
def entryState (i : Instr) (p : Port) : Prop :=
  match i with
  | .idle => p.sdaMode = .out ∧ p.sclMode = .out
  | .start => p.sdaMode = .out ∧ p.sclMode = .out ∧ p.sdaLat = true ∧ p.sclLat = true
  | .txi _ | .txm _ | .ackchk | .rxm _ | .sendack | .sendnack | .stop =>
    p.sdaMode = .out ∧ p.sclMode = .out ∧ p.sclLat = false
  | .lock | .unlock | .init | .deinit | .probe _ | .read8 _ _ | .read16 _ _ | .readna _ | .write8 _ _ | .write16 _ _ =>
    True

/-- The phase a micro-op leaves, when it started in its entry state. -/
def phaseAfter : Instr → Phase
  | .start | .txi _ | .txm _ | .ackchk | .rxm _ | .sendack | .sendnack => .clockLow
  | .idle | .stop | .lock | .unlock | .init | .deinit | .probe _ | .read8 _ _ | .read16 _ _ | .readna _ | .write8 _ _
  | .write16 _ _ => .released

/-- The operands R87 checks are those of an acceptable command: a command with a buffer has one and a count of at least
1, and COUNT fits 24 bits (R6). -/
def Cmd.acceptable (c : Cmd) : Prop := c.count < 2 ^ 24 ∧ (c.op.hasBuffer = true → 1 ≤ c.count ∧ c.buf ≠ 0)

/-- A command in flight as a host thread's command is, not a harness's: its micro-program is the expansion of its CMD,
and UPC is within it (R25, R88). -/
def Txn.genuine (x : Txn) : Prop :=
  x.cmd.acceptable ∧ x.uprog = expand x.cmd ∧ x.upc ≤ x.uprog.length

/-- An unfaulted instance is in order, given the commands in flight: the lock exists exactly while it is initialised
(R18); it is free only on an idle port (R35); it is held only by a command in flight that is between its LOCK and its
UNLOCK, with the port as the last micro-op leaves it (R73, R74). -/
def State.busInOrder (s : State) (i : Nat) (b : Bus) : Prop :=
  match b.lock with
  | .absent => b.initd = false
  | .free => b.initd = true ∧ b.port = idlePort
  | .held t =>
    b.initd = true ∧
      ∃ x w j, s.txnOf t = some x ∧ x.bus = i ∧ 0 < x.upc ∧ x.upc < x.uprog.length ∧
        x.uprog[x.upc - 1]? = some w ∧ decodeUop w = .ok j ∧ (phaseAfter j).holds b.port

/-- The invariant of the engine, for a machine that only host threads use (no harness): the parameters are legal, each
thread has at most one command in flight and it is genuine, a command between its LOCK and its UNLOCK holds the lock of
its instance, and every unfaulted instance is in order. -/
def EngineInv (s : State) : Prop :=
  s.params.legal = true ∧
  (∀ r ∈ s.requests, ∀ i c ws, r.action ≠ .harness i c ws) ∧
  (s.txns.map Txn.thread).Nodup ∧
  (∀ x ∈ s.txns, x.genuine ∧ x.bus < s.buses.length) ∧
  (∀ x ∈ s.txns, ∀ b, s.buses[x.bus]? = some b → b.fault = none → 0 < x.upc → x.upc < x.uprog.length →
    b.lock = .held x.thread) ∧
  (∀ i b, s.buses[i]? = some b → b.fault = none → s.busInOrder i b)

/-- The counters of an instance are within their ranges (R15, R26, R27): T_HALF positive, BITCNT at most 8, POLLCNT at
most 10. -/
def Bus.countersInRange (b : Bus) : Prop := 0 < b.tHalf ∧ b.bitcnt ≤ 8 ∧ b.pollcnt ≤ Config.ackPolls

/-- The transaction commands with the CMD fields they latch (R57, R87). -/
def txnFields : Instr → Option (TxnOp × BitVec 7 × BitVec 16)
  | .probe dev => some (.probe, dev, 0)
  | .read8 dev reg => some (.read8, dev, reg.setWidth 16)
  | .read16 dev reg => some (.read16, dev, reg)
  | .readna dev => some (.readna, dev, 0)
  | .write8 dev reg => some (.write8, dev, reg.setWidth 16)
  | .write16 dev reg => some (.write16, dev, reg)
  | .init | .deinit | .idle | .start | .stop | .txi _ | .txm _ | .ackchk | .rxm _ | .sendack | .sendnack | .lock
  | .unlock => none

/-- A run has ended normally (R103): every thread has returned from its last command, no command is in flight, and
nothing was refused or faulted. -/
def State.ended (s : State) : Prop :=
  s.txns = [] ∧ s.requests = [] ∧ s.blocked = [] ∧ s.refusal = none ∧ s.noBusHist = [] ∧ ∀ b ∈ s.buses, b.fault = none

end Sys2Proof.Machine
end

