-- ==== Sys2Proof/Certificates/Slice0/Obligations.lean ====
section
/-!
DEFINITION. The statements for the provers. Each docstring names the rules of spec/ it formalises.
-/

open Sys2Proof Sys2Proof.Machine

/-! ### Encoding -/

/-- R57 to R59, R62 to R64: decoding the word of a well-formed instruction, in its format, gives the instruction. -/
def Obligations.DecodeInvertsEncode : Prop :=
  ∀ i : Instr, i.wellFormed = true → decodeAs i.format (encode i) = .ok i

/-- R59, R64, D2: a word that is accepted in a format is the encoding of a well-formed instruction of that format, so
every valid word has one meaning. -/
def Obligations.AcceptedWordIsItsEncoding : Prop :=
  ∀ (f : Format) (w : Word) (i : Instr),
    decodeAs f w = .ok i → i.format = f ∧ i.wellFormed = true ∧ encode i = w

/-- R59: the decoder of command words, field by field. -/
def Obligations.CommandDecoderFollowsRule : Prop :=
  ∀ w : Word,
    let op := w.toNat % 16
    let dev := w.toNat / 2 ^ 4 % 2 ^ 7
    let rsv := w.toNat / 2 ^ 11 % 2 ^ 5
    let reg := w.toNat / 2 ^ 16
    (op = 0 ∨ 9 ≤ op → decodeCmd w = .error .reservedOp) ∧
    (1 ≤ op → op ≤ 8 →
      (rsv ≠ 0 → decodeCmd w = .error .reservedBits) ∧
      (rsv = 0 →
        ((op = 1 ∨ op = 2) ∧ (dev ≠ 0 ∨ reg ≠ 0) → decodeCmd w = .error .reservedBits) ∧
        ((op = 3 ∨ op = 6) ∧ reg ≠ 0 → decodeCmd w = .error .reservedBits) ∧
        ((op = 4 ∨ op = 7) ∧ reg / 2 ^ 8 ≠ 0 → decodeCmd w = .error .reservedBits) ∧
        (op = 1 ∧ dev = 0 ∧ reg = 0 → decodeCmd w = .ok .init) ∧
        (op = 2 ∧ dev = 0 ∧ reg = 0 → decodeCmd w = .ok .deinit) ∧
        (op = 3 ∧ reg = 0 → decodeCmd w = .ok (.probe (BitVec.ofNat 7 dev))) ∧
        (op = 4 ∧ reg / 2 ^ 8 = 0 → decodeCmd w = .ok (.read8 (BitVec.ofNat 7 dev) (BitVec.ofNat 8 reg))) ∧
        (op = 5 → decodeCmd w = .ok (.read16 (BitVec.ofNat 7 dev) (BitVec.ofNat 16 reg))) ∧
        (op = 6 ∧ reg = 0 → decodeCmd w = .ok (.readna (BitVec.ofNat 7 dev))) ∧
        (op = 7 ∧ reg / 2 ^ 8 = 0 → decodeCmd w = .ok (.write8 (BitVec.ofNat 7 dev) (BitVec.ofNat 8 reg))) ∧
        (op = 8 → decodeCmd w = .ok (.write16 (BitVec.ofNat 7 dev) (BitVec.ofNat 16 reg)))))

/-- R62 to R64: which micro-op words are accepted, and which are refused. R64's index rule depends on COUNT: the decoder
refuses the one index that is below no COUNT (log 27), and TxmRxmIndexIsChecked states the rest. -/
def Obligations.MicroOpDecoderFollowsRule : Prop :=
  ∀ w : Word,
    let uop := w.toNat % 16
    let z := w.toNat / 2 ^ 4 % 2 ^ 4
    let opd := w.toNat / 2 ^ 8
    ((uop = 0 ∨ 12 ≤ uop ∨ z ≠ 0) → ∃ r, decodeUop w = .error r) ∧
    (1 ≤ uop ∧ uop ≤ 11 ∧ uop ≠ 4 ∧ uop ≠ 5 ∧ uop ≠ 7 ∧ opd ≠ 0 → ∃ r, decodeUop w = .error r) ∧
    (uop = 4 ∧ 2 ^ 8 ≤ opd → ∃ r, decodeUop w = .error r) ∧
    ((uop = 5 ∨ uop = 7) ∧ opd + 1 = 2 ^ 24 → ∃ r, decodeUop w = .error r) ∧
    (z = 0 →
      (uop = 1 ∧ opd = 0 → decodeUop w = .ok .idle) ∧
      (uop = 2 ∧ opd = 0 → decodeUop w = .ok .start) ∧
      (uop = 3 ∧ opd = 0 → decodeUop w = .ok .stop) ∧
      (uop = 4 ∧ opd < 2 ^ 8 → decodeUop w = .ok (.txi (BitVec.ofNat 8 opd))) ∧
      (uop = 5 ∧ opd + 1 < 2 ^ 24 → decodeUop w = .ok (.txm (BitVec.ofNat 24 opd))) ∧
      (uop = 6 ∧ opd = 0 → decodeUop w = .ok .ackchk) ∧
      (uop = 7 ∧ opd + 1 < 2 ^ 24 → decodeUop w = .ok (.rxm (BitVec.ofNat 24 opd))) ∧
      (uop = 8 ∧ opd = 0 → decodeUop w = .ok .sendack) ∧
      (uop = 9 ∧ opd = 0 → decodeUop w = .ok .sendnack) ∧
      (uop = 10 ∧ opd = 0 → decodeUop w = .ok .lock) ∧
      (uop = 11 ∧ opd = 0 → decodeUop w = .ok .unlock))

/-- R57, R58, R62, R63 on words written out from the spec's tables (V-E1, V-E3). A sanity statement. -/
def Obligations.WrittenOutWordsDecode : Prop :=
  decodeCmd 0x00000001 = .ok .init ∧ decodeCmd 0x00000773 = .ok (.probe 0x77) ∧
  decodeCmd 0x00100504 = .ok (.read8 0x50 0x10) ∧ decodeCmd 0x01230518 = .ok (.write16 0x51 0x0123) ∧
  decodeUop 0x0000A504 = .ok (.txi 0xA5) ∧ decodeUop 0x00000105 = .ok (.txm 1) ∧ decodeUop 0x0000000B = .ok .unlock

/-- R65: the address byte holds the device address in its upper seven bits and the direction in bit 0, so no address bit
is lost: it is the number 2 dev + rw. -/
def Obligations.AddressByteShiftsDeviceAddress : Prop :=
  ∀ (dev : BitVec 7) (rw : BitVec 1),
    (addrByte dev rw).extractLsb' 1 7 = dev ∧ (addrByte dev rw).extractLsb' 0 1 = rw ∧
    (addrByte dev rw).toNat = 2 * dev.toNat + rw.toNat

/-! ### The expansion -/

/-- R88: the micro-programs of the six commands and their lengths, from OP, DEV, REG and COUNT alone; PROBE's for every
COUNT, the others' for a COUNT of at least 1 (R87 rejects 0). recv and send are written out by index. -/
def Obligations.ExpansionFollowsRule : Prop :=
  ∀ (dev : BitVec 7) (reg : BitVec 16) (n buf : Nat),
    let hi : Byte := BitVec.ofNat 8 (reg.toNat / 2 ^ 8)
    let lo : Byte := BitVec.ofNat 8 reg.toNat
    let addr := fun rw : Nat => [Instr.txi (BitVec.ofNat 8 (2 * dev.toNat + rw)), .ackchk]
    let head := [Instr.lock, .idle, .start]
    let tail := [Instr.stop, .unlock]
    let rs := [Instr.idle, .start]
    let recvOps := ((List.range (n - 1)).map fun i => [Instr.rxm (BitVec.ofNat 24 i), .sendack]).flatten ++
      [.rxm (BitVec.ofNat 24 (n - 1)), .sendnack]
    let sendOps := ((List.range n).map fun i => [Instr.txm (BitVec.ofNat 24 i), .ackchk]).flatten
    expand ⟨.probe, dev, reg, n, buf⟩ = (head ++ addr 0 ++ tail).map encode ∧
    (expand ⟨.probe, dev, reg, n, buf⟩).length = 7 ∧
    (1 ≤ n →
      expand ⟨.read8, dev, reg, n, buf⟩ =
        (head ++ addr 0 ++ [Instr.txi lo, .ackchk] ++ rs ++ addr 1 ++ recvOps ++ tail).map encode ∧
      expand ⟨.read16, dev, reg, n, buf⟩ =
        (head ++ addr 0 ++ [Instr.txi hi, .ackchk, .txi lo, .ackchk] ++ rs ++ addr 1 ++ recvOps ++ tail).map encode ∧
      expand ⟨.readna, dev, reg, n, buf⟩ = (head ++ addr 1 ++ recvOps ++ tail).map encode ∧
      expand ⟨.write8, dev, reg, n, buf⟩ = (head ++ addr 0 ++ [Instr.txi lo, .ackchk] ++ sendOps ++ tail).map encode ∧
      expand ⟨.write16, dev, reg, n, buf⟩ =
        (head ++ addr 0 ++ [Instr.txi hi, .ackchk, .txi lo, .ackchk] ++ sendOps ++ tail).map encode ∧
      (expand ⟨.read8, dev, reg, n, buf⟩).length = 2 * n + 13 ∧
      (expand ⟨.read16, dev, reg, n, buf⟩).length = 2 * n + 15 ∧
      (expand ⟨.readna, dev, reg, n, buf⟩).length = 2 * n + 7 ∧
      (expand ⟨.write8, dev, reg, n, buf⟩).length = 2 * n + 9 ∧
      (expand ⟨.write16, dev, reg, n, buf⟩).length = 2 * n + 11)

/-- R64, R93: the expansion never produces a word that is refused; its indices are below COUNT. -/
def Obligations.ExpansionNeverRefused : Prop :=
  ∀ c : Cmd, c.acceptable → ∀ w ∈ expand c, ∃ i, decodeUop w = .ok i ∧ i.wellFormedFor c.count = true

/-- R78, R88: in an expansion every TXI and every TXM is followed by ACKCHK. -/
def Obligations.EverySentByteIsChecked : Prop :=
  ∀ (c : Cmd) (k : Nat) (w : Word), c.acceptable → (expand c)[k]? = some w →
    ((∃ v, decodeUop w = .ok (.txi v)) ∨ (∃ i, decodeUop w = .ok (.txm i))) →
    ∃ w', (expand c)[k + 1]? = some w' ∧ decodeUop w' = .ok .ackchk

/-- R86, R88, D39: LOCK is the first micro-op of an expansion and only that, UNLOCK the last and only that. -/
def Obligations.LockIsFirstAndUnlockIsLast : Prop :=
  ∀ (c : Cmd) (k : Nat) (w : Word), c.acceptable → (expand c)[k]? = some w →
    (decodeUop w = .ok .lock ↔ k = 0) ∧ (decodeUop w = .ok .unlock ↔ k + 1 = (expand c).length)

/-! ### The micro-ops -/

/-- R75: IDLE's word and its next state, whole. Everything the rule does not name is unchanged. -/
def Obligations.IdleReleasesSdaThenScl : Prop :=
  decodeUop 0x00000001 = .ok .idle ∧
  ∀ s x b, InFlight s x b →
    exec .idle s = .next (s.afterMicroOp x
      { b with
        port := { b.port with sdaLat := true, sclLat := true }
        hist := b.hist ++ tagged x.thread [.csOn, .sdaH, .sclH, .csOff] }
      { x with upc := x.upc + 1 })

/-- R76: START's word and its next state, whole. -/
def Obligations.StartDropsSdaThenScl : Prop :=
  decodeUop 0x00000002 = .ok .start ∧
  ∀ s x b, InFlight s x b →
    exec .start s = .next (s.afterMicroOp x
      { b with
        port := { b.port with sdaLat := false, sclLat := false }
        hist := b.hist ++ tagged x.thread
          [.csOn, .dly b.tHalf, .sdaL, .dly b.tHalf, .sclL, .dly (2 * b.tHalf), .csOff] }
      { x with upc := x.upc + 1 })

/-- R84: STOP's word and its next state, whole. -/
def Obligations.StopRaisesSclThenSda : Prop :=
  decodeUop 0x00000003 = .ok .stop ∧
  ∀ s x b, InFlight s x b →
    exec .stop s = .next (s.afterMicroOp x
      { b with
        port := { b.port with sdaLat := true, sclLat := true }
        hist := b.hist ++ tagged x.thread
          [.csOn, .sdaL, .dly b.tHalf, .sclH, .dly b.tHalf, .sdaH, .dly b.tHalf, .csOff] }
      { x with upc := x.upc + 1 })

/-- R82: SENDACK's word and its next state, whole. -/
def Obligations.SendackPulsesWithSdaLow : Prop :=
  decodeUop 0x00000008 = .ok .sendack ∧
  ∀ s x b, InFlight s x b →
    exec .sendack s = .next (s.afterMicroOp x
      { b with
        port := { sdaMode := .out, sdaLat := false, sclMode := b.port.sclMode, sclLat := false }
        hist := b.hist ++ tagged x.thread
          [.sdaL, .dly b.tHalf, .sclH, .dly (2 * b.tHalf), .sdaL, .dly (2 * b.tHalf), .sclL, .sdaOut] }
      { x with upc := x.upc + 1 })

/-- R83: SENDNACK's word and its next state, whole. -/
def Obligations.SendnackPulsesWithSdaFloating : Prop :=
  decodeUop 0x00000009 = .ok .sendnack ∧
  ∀ s x b, InFlight s x b →
    exec .sendnack s = .next (s.afterMicroOp x
      { b with
        port := { b.port with sdaMode := .out, sclLat := false }
        hist := b.hist ++ tagged x.thread [.sdaIn, .sclH, .dly b.tHalf, .sclL, .sdaOut] }
      { x with upc := x.upc + 1 })

/-- R77, R78: TXI's word and its next state, whole: bit 7 first, six events a bit; SHIFT holds the byte and BITCNT has
counted eight bits (that they keep these values after the micro-op is the model's choice, log 20). -/
def Obligations.TxiSendsByteFromBitSeven : Prop :=
  ∀ (imm : BitVec 8), decodeUop (0x00000004 ||| (imm.setWidth 32 <<< 8)) = .ok (.txi imm) ∧
  ∀ s x b, InFlight s x b →
    exec (.txi imm) s = .next (s.afterMicroOp x
      { b with
        port := { b.port with sdaLat := imm.getLsbD 0, sclLat := false }
        shift := imm
        bitcnt := 8
        hist := b.hist ++ tagged x.thread
          ((List.range 8).flatMap fun k =>
            [if imm.getLsbD (7 - k) then .sdaH else .sdaL, .dly b.tHalf, .sclH, .dly b.tHalf, .sclL, .dly b.tHalf]) }
      { x with upc := x.upc + 1 })

/-- R79, R39, R41: TXM's next state, whole, when its index is below COUNT, its byte is readable and untouched by another
agent, and its read breaks R49 for no other command in flight: one read, then the byte is sent as by TXI. Memory is
unchanged. That SHIFT, BITCNT and IDX keep their values, and that the byte is the one last stored there by whichever
agent, is the model's choice (logs 20, 37). -/
def Obligations.TxmSendsBufferByte : Prop :=
  ∀ (i : BitVec 24) s x b, InFlight s x b → i.toNat < x.cmd.count →
    let a := x.cmd.buf + i.toNat
    let v := s.readByte a
    s.readable a = true → a ∉ x.raced → s.quiet x.thread false a →
    exec (.txm i) s = .next (s.afterMicroOp x
      { b with
        port := { b.port with sdaLat := v.getLsbD 0, sclLat := false }
        shift := v
        bitcnt := 8
        idx := i.toNat
        hist := b.hist ++ tagged x.thread
          (.mrd a v :: (List.range 8).flatMap fun k =>
            [if v.getLsbD (7 - k) then .sdaH else .sdaL, .dly b.tHalf, .sclH, .dly b.tHalf, .sclL, .dly b.tHalf]) }
      { x with upc := x.upc + 1 })

/-- R80: ACKCHK's word and its next state under every environment: it takes 1 to 10 samples, every one but the last
reads 1, it stops early only at a 0, ACK is that 0, and FAIL accumulates its absence. The environment's own answers and
free values may advance. -/
def Obligations.AckchkPollsUpToTenSamples : Prop :=
  decodeUop 0x00000006 = .ok .ackchk ∧
  ∀ s x b, InFlight s x b →
    ∃ (bits : List Bool) (last : Bool) (env : List Bool) (draws : Nat),
      bits.length ≤ 9 ∧ (∀ v ∈ bits, v = true) ∧ (last = true → bits.length = 9) ∧
      exec .ackchk s = .next (s.afterMicroOp x
        { b with
          port := { b.port with sdaMode := .out, sclLat := false }
          pollcnt := bits.length + 1
          env := env
          draws := draws
          hist := b.hist ++ tagged x.thread
            ([.sdaIn, .sclH] ++ (bits ++ [last]).map .rdSda ++ [.sclL, .sdaOut]) }
        { x with upc := x.upc + 1, ack := !last, fail := x.fail || last })

/-- R80, R90, R106: what ACKCHK does with given answers. A 0 first answered at sample k, for k from 1 to 10, gives k
reads and an acknowledge, and FAIL is unchanged. Ten answers of 1 give exactly ten reads and no acknowledge; that sets
FAIL and changes nothing else of the command, whose UPC advances as always. -/
def Obligations.AckchkFirstLowWins : Prop :=
  ∀ s x b (rest : List Bool), InFlight s x b →
    (∀ k : Nat, 1 ≤ k → k ≤ 10 → b.env = List.replicate (k - 1) true ++ false :: rest →
      exec .ackchk s = .next (s.afterMicroOp x
        { b with
          port := { b.port with sdaMode := .out, sclLat := false }
          pollcnt := k
          env := rest
          hist := b.hist ++ tagged x.thread
            ([.sdaIn, .sclH] ++ List.replicate (k - 1) (.rdSda true) ++ [.rdSda false, .sclL, .sdaOut]) }
        { x with upc := x.upc + 1, ack := true })) ∧
    (b.env = List.replicate 10 true ++ rest →
      exec .ackchk s = .next (s.afterMicroOp x
        { b with
          port := { b.port with sdaMode := .out, sclLat := false }
          pollcnt := 10
          env := rest
          hist := b.hist ++ tagged x.thread
            ([.sdaIn, .sclH] ++ List.replicate 10 (.rdSda true) ++ [.sclL, .sdaOut]) }
        { x with upc := x.upc + 1, ack := false, fail := true }))

/-- R81: RXM's next state under every environment, whole, when its index is below COUNT, its byte is writable and
untouched by another agent, and its write breaks R49 for no other command in flight: eight samples make the byte, first
sample highest, and that byte is written once; in a canonical memory every other address reads as before. That SHIFT,
BITCNT and IDX keep their values, and that there is one memory for all threads, is the model's choice (logs 20, 37). -/
def Obligations.RxmReceivesByteMostSignificantFirst : Prop :=
  ∀ (i : BitVec 24) s x b, InFlight s x b → i.toNat < x.cmd.count →
    let a := x.cmd.buf + i.toNat
    s.writable a = true → a ∉ x.raced → s.quiet x.thread true a →
    ∃ (v : Byte) (env : List Bool) (draws : Nat) (t : State),
      exec (.rxm i) s = .next t ∧
      t = { s.afterMicroOp x
          { b with
            port := { b.port with sdaMode := .out, sclLat := false }
            shift := v
            bitcnt := 8
            idx := i.toNat
            env := env
            draws := draws
            hist := b.hist ++ tagged x.thread
              ([.sdaIn] ++
                ((List.range 8).flatMap fun k =>
                  [.sclH, .rdSda (v.getLsbD (7 - k)), .dly b.tHalf, .sclL, .dly b.tHalf]) ++
                [.mwr a v, .sdaOut]) }
          { x with upc := x.upc + 1 } with mem := t.mem } ∧
      (Memory.wf s.mem → ∀ a', t.readByte a' = if a' = a then v else s.readByte a') ∧
      (∀ bits rest, b.env = bits ++ rest → bits.length = 8 →
        env = rest ∧ draws = b.draws ∧ ∀ k, k < 8 → bits[k]? = some (v.getLsbD (7 - k)))

/-- R64, R60: a TXM or RXM whose index is not less than COUNT is refused: no event and no state change but the mark, and
the thread does not return (deduced, log 11). That the reason the mark holds is indexRange is the model's choice (log
34). -/
def Obligations.TxmRxmIndexIsChecked : Prop :=
  ∀ (i : BitVec 24) s x b, InFlight s x b → x.cmd.count ≤ i.toNat →
    exec (.txm i) s = .next (s.withRefusal s.cur .indexRange) ∧
    exec (.rxm i) s = .next (s.withRefusal s.cur .indexRange)

/-- R40, R49, R79, R109, R110: a TXM whose byte is not readable faults BUF_RANGE, and one whose readable byte another
agent has touched faults BUF_RACE, before any SDA event; the byte is not read. That a fault is a next state that stops
the thread, and when a race is raised, is deduced (logs 10, 14); that BUF_RANGE goes before BUF_RACE, and that IDX keeps
its value, is the model's choice (logs 33, 20). -/
def Obligations.TxmBadByteFaultsBeforeSending : Prop :=
  ∀ (i : BitVec 24) s x b, InFlight s x b → i.toNat < x.cmd.count →
    let a := x.cmd.buf + i.toNat
    (s.readable a = false →
      exec (.txm i) s = .next (s.withFault x.bus { b with idx := i.toNat } x.thread .bufRange)) ∧
    (s.readable a = true → a ∈ x.raced →
      exec (.txm i) s = .next (s.withFault x.bus { b with idx := i.toNat } x.thread .bufRace))

/-- R40, R49, R81, R109, R110: an RXM whose byte is not writable, or whose writable byte another agent has touched,
receives its eight bits under every environment and then faults BUF_RANGE or BUF_RACE; memory is unchanged and SDA is
not switched back. That a fault is a next state that stops the thread, and when a race is raised, is deduced (logs 10,
14); that BUF_RANGE goes before BUF_RACE, and that SHIFT, BITCNT and IDX keep their values, is the model's choice (logs
33, 20). -/
def Obligations.RxmBadByteFaultsAfterReceiving : Prop :=
  ∀ (i : BitVec 24) s x b (r : FaultReason), InFlight s x b → i.toNat < x.cmd.count →
    let a := x.cmd.buf + i.toNat
    (s.writable a = false ∧ r = .bufRange) ∨ (s.writable a = true ∧ a ∈ x.raced ∧ r = .bufRace) →
    ∃ (v : Byte) (env : List Bool) (draws : Nat),
      exec (.rxm i) s = .next (s.withFault x.bus
        { b with
          port := { b.port with sdaMode := .inp, sclLat := false }
          shift := v
          bitcnt := 8
          idx := i.toNat
          env := env
          draws := draws
          hist := b.hist ++ tagged x.thread
            (.sdaIn :: (List.range 8).flatMap fun k =>
              [.sclH, .rdSda (v.getLsbD (7 - k)), .dly b.tHalf, .sclL, .dly b.tHalf]) }
        x.thread r)

/-- R49, D25: every touch of a buffer by another agent. A host thread's own store to a writable byte lands, and its own
load of a readable byte returns the byte; each of them, and a TXM or RXM of another thread's command, is seen (RaceSeen)
by every command in flight that it breaks R49 for, when each thread has at most one command in flight; a load or store
that breaks R49 for none leaves every command and instance as it was. When a race is raised is deduced (log 14).
That a thread's load sees every store at once, whoever made it, is the model's choice (log 37). -/
def Obligations.HostStoreIntoBufferIsRace : Prop :=
  (∀ (s : State) (t a : Nat) (v : Byte) (rest : List Nat), s.sched = t :: rest → t ∉ s.blocked →
    s.txnOf t = none → s.requestOf t = some (.store a v) → s.writable a = true →
    ∃ s', step s = .next s' ∧
      (Memory.wf s.mem → ∀ a', s'.readByte a' = if a' = a then v else s.readByte a') ∧
      ((s.txns.map Txn.thread).Nodup → RaceSeen s s' t true a) ∧
      (s.quiet t true a → s'.txns = s.txns ∧ s'.buses = s.buses)) ∧
  (∀ (s : State) (t a : Nat) (rest : List Nat), s.sched = t :: rest → t ∉ s.blocked →
    s.txnOf t = none → s.requestOf t = some (.load a) → s.readable a = true →
    ∃ s', step s = .next s' ∧ s'.mem = s.mem ∧ s'.returns = s.returns ++ [⟨t, none, .loaded (s.readByte a)⟩] ∧
      ((s.txns.map Txn.thread).Nodup → RaceSeen s s' t false a) ∧
      (s.quiet t false a → s'.txns = s.txns ∧ s'.buses = s.buses)) ∧
  ∀ (i : BitVec 24) s x b, InFlight s x b → i.toNat < x.cmd.count → (s.txns.map Txn.thread).Nodup →
    let a := x.cmd.buf + i.toNat
    a ∉ x.raced →
    (s.readable a = true → ∃ s', exec (.txm i) s = .next s' ∧ RaceSeen s s' x.thread false a) ∧
    (s.writable a = true → ∃ s', exec (.rxm i) s = .next s' ∧ RaceSeen s s' x.thread true a)

/-- R85: LOCK's word; LOCK acquires a free lock of an initialised instance; faults NOT_INIT when the lock no longer
exists; and holds, changing nothing, while it is not free. That a fault is a next state that stops the thread is deduced
(log 10). That INITD is tested as it is now, also after a DEINIT and a new INIT, is the model's choice (log 36). -/
def Obligations.LockAcquiresFaultsOrHolds : Prop :=
  decodeUop 0x0000000A = .ok .lock ∧
  ∀ s x b, InFlight s x b →
    (b.initd = false → exec .lock s = .next (s.withFault x.bus b x.thread .notInit)) ∧
    (b.initd = true → b.lock = .free →
      exec .lock s = .next (s.afterMicroOp x
        { b with lock := .held x.thread, hist := b.hist ++ tagged x.thread [.lock] } { x with upc := x.upc + 1 })) ∧
    (b.initd = true → b.lock ≠ .free → exec .lock s = .next s)

/-- R86: UNLOCK by the holder frees the lock. Where the lock is not its own, the rule's requirement fails and the
model's choice (log 17) is that the thread holds. -/
def Obligations.UnlockFreesHeldLock : Prop :=
  ∀ s x b, InFlight s x b →
    (b.lock = .held x.thread →
      exec .unlock s = .next (s.afterMicroOp x
        { b with lock := .free, hist := b.hist ++ tagged x.thread [.unlock] } { x with upc := x.upc + 1 })) ∧
    (b.lock ≠ .held x.thread → exec .unlock s = .next s)

/-- R37, R73, U8: a micro-op with no command in flight is the model fault of reading a register that has no value. -/
def Obligations.MicroOpNeedsCommandInFlight : Prop :=
  ∀ (i : Instr) (s : State), i.format = .uop → s.txnOf s.cur = none → exec i s = .fault .noCommandInFlight

/-- R132: the sum of the delays, in half periods, and the number of events of each micro-op that completes. -/
def Obligations.MicroOpDelaySums : Prop :=
  ∀ (i : Instr) s x b s' b', i.format = .uop → InFlight s x b → exec i s = .next s' → Completed x s s' →
    s'.buses[x.bus]? = some b' →
    let es := newEvents b b'
    match i with
    | .idle => dlySum es = 0 ∧ es.length = 4
    | .start => dlySum es = 4 * b.tHalf ∧ es.length = 7
    | .txi _ => dlySum es = 24 * b.tHalf ∧ es.length = 48
    | .txm _ => dlySum es = 24 * b.tHalf ∧ es.length = 49
    | .ackchk => dlySum es = 0 ∧ ∃ k, 1 ≤ k ∧ k ≤ 10 ∧ es.length = 4 + k
    | .rxm _ => dlySum es = 16 * b.tHalf ∧ es.length = 43
    | .sendack => dlySum es = 5 * b.tHalf ∧ es.length = 8
    | .sendnack => dlySum es = b.tHalf ∧ es.length = 5
    | .stop => dlySum es = 3 * b.tHalf ∧ es.length = 8
    | _ => dlySum es = 0 ∧ es.length = 1

/-- R23, R77, R94: from its entry state, START makes exactly one START condition, STOP exactly one STOP condition, and
no other micro-op makes any. R74 leaves the latches open for IDLE; as in every expansion (MicroOpsFindTheirEntryState),
it starts here with SDA released or SCL low, so that releasing SDA is no STOP. -/
def Obligations.MicroOpsMakeOnlyTheirConditions : Prop :=
  ∀ (i : Instr) s x b s' b', i.format = .uop → InFlight s x b → entryState i b.port →
    (i = .idle → b.port.sdaLat = true ∨ b.port.sclLat = false) → exec i s = .next s' →
    Completed x s s' → s'.buses[x.bus]? = some b' →
    conditions b.port (newEvents b b') =
      match i with
      | .start => [.start]
      | .stop => [.stop]
      | _ => []

/-- R23, R42, R77, R78: from its entry state, TXI transmits the bits of its byte on the drive trace, bit 7 first. -/
def Obligations.TxiTransmitsItsBits : Prop :=
  ∀ (imm : BitVec 8) s x b s' b', InFlight s x b → entryState (.txi imm) b.port → exec (.txi imm) s = .next s' →
    s'.buses[x.bus]? = some b' →
    sentBits b.port (newEvents b b') = (List.range 8).map fun k => imm.getLsbD (7 - k)

/-! ### Commands -/

/-- R30, R87, R105, R110: the checks before a transaction command is accepted, in their order. A failed precondition
returns false at once: no event, no lock, no command in flight; RESULT of the instance is false (deduced, log 21). A
command that passes them faults NOT_INIT on an instance that is not initialised (log 10). -/
def Obligations.IssueChecksInOrder : Prop :=
  ∀ (i : Instr) op dev reg (s : State), txnFields i = some (op, dev, reg) →
    (s.desc.bus = none →
      exec i s = .next { s with returns := s.returns ++ [⟨s.cur, none, .code .eNullBus⟩] }) ∧
    (∀ k b, s.desc.bus = some k → s.buses[k]? = some b → b.fault = none →
      (op ≠ .probe → s.desc.count = 0 →
        exec i s = .next { s.withBusOnly k { b with result := some false } with
          returns := s.returns ++ [⟨s.cur, some k, .code .eZeroCount⟩] }) ∧
      (op ≠ .probe → s.desc.count ≠ 0 → s.desc.buf = 0 →
        exec i s = .next { s.withBusOnly k { b with result := some false } with
          returns := s.returns ++ [⟨s.cur, some k, .code .eNullBuf⟩] }) ∧
      ((op = .probe ∨ (s.desc.count ≠ 0 ∧ s.desc.buf ≠ 0)) → b.initd = false →
        exec i s = .next (s.withFault k b s.cur .notInit)))

/-- R24, R53, R87: PROBE, READ8, READ16, READNA, WRITE8 and WRITE16 are accepted on an initialised instance: CMD is
latched from the descriptor, UPROG is its expansion, and UPC, ACK and FAIL are 0. Nothing else changes. That each
command in flight has its own registers is deduced (log 2). -/
def Obligations.AcceptedCommandIsLatched : Prop :=
  ∀ (i : Instr) op dev reg (s : State) k b, txnFields i = some (op, dev, reg) →
    s.desc.bus = some k → s.buses[k]? = some b → b.fault = none → b.initd = true →
    (op = .probe ∨ (s.desc.count ≠ 0 ∧ s.desc.buf ≠ 0)) → s.txnOf s.cur = none →
    exec i s = .next { s with txns :=
      { thread := s.cur, bus := k, cmd := ⟨op, dev, reg, s.desc.count, s.desc.buf⟩
        uprog := expand ⟨op, dev, reg, s.desc.count, s.desc.buf⟩
        upc := 0, ack := false, fail := false, raced := [], harness := false } :: s.txns }

/-- R101: INIT on an instance that is not initialised, under every environment: its events with WARN_BUSY exactly when
the busy check answers 1, both lines released outputs, the lock free, INITD 1, RESULT no value (log 21). That it is one
step is the model's choice (log 31). -/
def Obligations.InitEstablishesIdleInstance : Prop :=
  ∀ (s : State) k b, s.desc.bus = some k → s.buses[k]? = some b → b.fault = none → b.initd = false →
    ∃ (busy : Bool) (env : List Bool) (draws : Nat),
      (∀ v rest, b.env = v :: rest → busy = v ∧ env = rest) ∧
      exec .init s = .next { s.withBusOnly k
          { b with
            initd := true
            lock := .free
            port := idlePort
            result := none
            env := env
            draws := draws
            hist := b.hist ++ tagged s.cur
              ([.pcfg, .busy busy] ++ (if busy then [.warnBusy] else []) ++ [.sdaH, .sclH, .sdaOut, .sclOut]) } with
        returns := s.returns ++ [⟨s.cur, some k, .code .initDone⟩] }

/-- R102, R117, R121: DEINIT on an initialised instance with a free lock emits PREL and takes the instance back to its
construction, but for T_HALF, PINS, HIST and FAULT; the port is unspecified. That SHIFT, BITCNT, POLLCNT and IDX are 0
again, and that it is one step, is the model's choice (logs 20, 31). -/
def Obligations.DeinitReleasesInstance : Prop :=
  ∀ (s : State) k b, s.desc.bus = some k → s.buses[k]? = some b → b.fault = none → b.initd = true → b.lock = .free →
    ∃ (port : Port) (draws : Nat),
      exec .deinit s = .next { s.withBusOnly k
          { b with
            initd := false
            lock := .absent
            port := port
            shift := 0
            bitcnt := 0
            pollcnt := 0
            idx := 0
            result := none
            draws := draws
            hist := b.hist ++ tagged s.cur [.prel] } with
        returns := s.returns ++ [⟨s.cur, some k, .code .deinitDone⟩] }

/-- R87, R101, R102, R110: the faults of the lifecycle commands, in their order. Where there is no instance the FAULT
event is kept apart (the model's choice, log 12); a fault stops the thread (deduced, log 10). -/
def Obligations.LifecycleMisuseFaults : Prop :=
  ∀ (s : State),
    (s.desc.bus = none → ∀ i, i = .init ∨ i = .deinit →
      exec i s = .next (({ s with noBusHist := s.noBusHist ++ tagged s.cur [.fault .nullBus] } : State).stopped s.cur)) ∧
    (∀ k b, s.desc.bus = some k → s.buses[k]? = some b → b.fault = none →
      (b.initd = true → exec .init s = .next (s.withFault k b s.cur .reInit)) ∧
      (b.initd = false → exec .deinit s = .next (s.withFault k b s.cur .notInit)) ∧
      (b.initd = true → b.lock ≠ .free → exec .deinit s = .next (s.withFault k b s.cur .deinitBusy)))

/-! ### The step -/

/-- R25, R73: a turn of a thread with a command in flight runs the micro-op word at UPC, when it decodes, on the state
after the turn is taken; a word that does not decode is refused (R64), and the thread never returns (deduced, log 11);
the reason the mark holds is the decoder's (the model's choice, log 34). A harness's word waits while a host thread's
command is on its instance (R129, ThreadThatCannotStepHolds). -/
def Obligations.StepRunsMicroOpAtUpc : Prop :=
  ∀ (s : State) x b w, s.nextThread ∉ s.blocked → s.txnOf s.nextThread = some x → s.buses[x.bus]? = some b →
    b.fault = none → x.uprog[x.upc]? = some w →
    (x.harness = true → ∀ y ∈ s.txns, y.bus = x.bus → y.harness = true) →
    (∀ i, decodeUop w = .ok i → step s = exec i s.turn) ∧
    (∀ r, decodeUop w = .error r → step s = .next (s.turn.withRefusal s.nextThread r))

/-- R56, R60, R87: a turn of a thread with no command in flight whose next request is a descriptor. When the word
decodes, and the descriptor names no instance or an unfaulted one, the command runs on the state after the turn with the
descriptor taken. A reserved word is refused with its reason: no event, no lock, no change of any instance, no result;
only the refusal mark, kept for the whole run, and the thread, which never returns (deduced, log 11). -/
def Obligations.StepRunsOrRefusesIssuedWord : Prop :=
  ∀ (s : State) d, s.nextThread ∉ s.blocked → s.txnOf s.nextThread = none →
    s.requestOf s.nextThread = some (.issue d) → d.wellFormed s.params = true →
    let s1 : State := { s.turn with requests := dropRequest s.nextThread s.requests, desc := d }
    (∀ i, decodeCmd d.word = .ok i → (∀ k, d.bus = some k → s.busFaulted k = false) → step s = exec i s1) ∧
    (∀ r, decodeCmd d.word = .error r → step s = .next (s1.withRefusal s.nextThread r))

/-- R25, R91, R103: when UPC is the length of UPROG the command returns NOT FAIL: RESULT is that, the command is no
longer in flight, and the thread gets OK or E_NACK (the ghost codes of R105, log 22). -/
def Obligations.CompletedCommandReturnsNotFail : Prop :=
  ∀ (s : State) x b, s.nextThread ∉ s.blocked → s.txnOf s.nextThread = some x → s.buses[x.bus]? = some b →
    b.fault = none → x.upc = x.uprog.length →
    step s = .next { s.turn with
      buses := s.buses.set x.bus { b with result := some (!x.fail) }
      txns := s.txns.filter fun y => y.thread != x.thread
      returns := s.returns ++ [⟨s.nextThread, some x.bus, .code (if x.fail then .eNack else .ok)⟩] }

/-- R7, R32, R103, R129: a turn changes nothing but the turn itself when its thread never steps again, has nothing to
do, or has its command in flight on a faulted instance (deduced, log 10), or when it is a harness with a micro-op to run
on an instance where a host thread's command is in flight (log 17). -/
def Obligations.ThreadThatCannotStepHolds : Prop :=
  ∀ (s : State),
    (s.nextThread ∈ s.blocked ∨
      (s.txnOf s.nextThread = none ∧ s.requestOf s.nextThread = none) ∨
      (∃ x b, s.txnOf s.nextThread = some x ∧ s.buses[x.bus]? = some b ∧ b.fault ≠ none) ∨
      ∃ x y, s.txnOf s.nextThread = some x ∧ x.harness = true ∧ x.upc < x.uprog.length ∧
        y ∈ s.txns ∧ y.bus = x.bus ∧ y.harness = false) →
    step s = .next s.turn

/-- R118, R119: constructing an instance with a positive T_HALF on two lines no other instance uses adds an instance
with INITD = 0, FAULT = NONE, an empty history and no lock, and changes no other instance. -/
def Obligations.ConstructAddsInstance : Prop :=
  ∀ (s : State) (tHalf : Nat) (p : Pins), s.nextThread ∉ s.blocked → s.txnOf s.nextThread = none →
    s.requestOf s.nextThread = some (.construct tHalf p) → 0 < tHalf → p.scl ≠ p.sda →
    (∀ b ∈ s.buses, b.pins.scl ≠ p.scl ∧ b.pins.scl ≠ p.sda ∧ b.pins.sda ≠ p.scl ∧ b.pins.sda ≠ p.sda) →
    ∃ s' b, step s = .next s' ∧ s'.buses = s.buses ++ [b] ∧ b.tHalf = tHalf ∧ b.pins = p ∧ b.initd = false ∧
      b.fault = none ∧ b.hist = [] ∧ b.lock = .absent ∧ b.result = none ∧
      s'.returns = s.returns ++ [⟨s.nextThread, none, .handle s.buses.length⟩]

/-- R9, R20, R22: the engine drives a line low only as an output with latch 0; a sample of SDA is 0 wherever the engine
drives SDA low, and elsewhere the environment's next answer (that it is the wired-AND is deduced, log 28); a sample of
SCL is the environment's next answer (log 28). Each sample appends its one event and changes nothing else of the
instance. -/
def Obligations.SampleNeverAboveDrive : Prop :=
  ∀ (t : Nat) (b : Bus),
    (b.port.drvSda = false ↔ b.port.sdaMode = .out ∧ b.port.sdaLat = false) ∧
    (b.port.drvScl = false ↔ b.port.sclMode = .out ∧ b.port.sclLat = false) ∧
    (b.port.drvSda = false → (b.readSda t).1 = false) ∧
    (b.port.drvSda = true → ∀ v rest, b.env = v :: rest → (b.readSda t).1 = v) ∧
    (∀ v rest, b.env = v :: rest → (b.readScl t).1 = v) ∧
    ∃ env draws,
      (b.readSda t).2 =
        { b with env := env, draws := draws, hist := b.hist ++ tagged t [.rdSda (b.readSda t).1] } ∧
      (b.readScl t).2 =
        { b with env := env, draws := draws, hist := b.hist ++ tagged t [.rdScl (b.readScl t).1] }

/-! ### Reset -/

/-- R37, R119: State.reset holds a constructed instance (the model's choice, log 7), and in it INITD = 0, FAULT = NONE,
HIST is empty, the lock does not exist, RESULT has no value and no command is in flight. -/
def Obligations.ResetIsConstructedInstance : Prop :=
  State.reset.txns = [] ∧ State.reset.buses ≠ [] ∧
  ∀ b ∈ State.reset.buses,
    b.initd = false ∧ b.fault = none ∧ b.hist = [] ∧ b.lock = .absent ∧ b.result = none ∧ 0 < b.tHalf

/-- R6, R15, R26, R27, R35, R37, R119: the invariant of the engine, the canonical form of memory and the ranges of the
counters hold at reset. That reset holds one instance, that the widths, which the invariant calls legal, are 32 and 24,
that BITCNT and POLLCNT are 0, and the form of the memory are the model's choices (logs 7, 6, 20, 8). -/
def Obligations.ResetMeetsInvariants : Prop :=
  EngineInv State.reset ∧ Memory.wf State.reset.mem ∧ ∀ b ∈ State.reset.buses, b.countersInRange

/-! ### Whole-machine rules -/

/-- The memory keeps its canonical form: every step keeps Memory.wf. The form and what an unlisted byte reads as are the
model's (log 8). -/
def Obligations.StepKeepsMemoryCanonical : Prop :=
  ∀ s s', Memory.wf s.mem → step s = .next s' → Memory.wf s'.mem

/-- R15, R26, R27: every step keeps T_HALF positive, BITCNT at most 8 and POLLCNT at most 10. -/
def Obligations.StepKeepsCountersInRange : Prop :=
  ∀ s s', (∀ b ∈ s.buses, b.countersInRange) → step s = .next s' → ∀ b ∈ s'.buses, b.countersInRange

/-- R17, R18, R35, R73, R88: every step keeps the invariant of the engine. -/
def Obligations.StepKeepsEngineInvariant : Prop :=
  ∀ s s', EngineInv s → step s = .next s' → EngineInv s'

/-- R35: in every state of the invariant, an initialised, unfaulted instance with no command between its LOCK and its
UNLOCK has its lock free and both lines released outputs. -/
def Obligations.IdleInstanceHasLinesReleased : Prop :=
  ∀ (s : State) (i : Nat) (b : Bus), EngineInv s → s.buses[i]? = some b → b.fault = none → b.initd = true →
    (∀ x ∈ s.txns, x.bus = i → x.upc = 0 ∨ x.upc = x.uprog.length) →
    b.lock = .free ∧ b.port = idlePort

/-- R74: in every state of the invariant, a micro-op about to run on an unfaulted instance finds its entry state, and
IDLE also finds SDA released or SCL low; and R73: except for LOCK, it runs only while the lock is held by its own
thread. -/
def Obligations.MicroOpsFindTheirEntryState : Prop :=
  ∀ (s : State) (x : Txn) (b : Bus) (w : Word) (j : Instr), EngineInv s → x ∈ s.txns → s.buses[x.bus]? = some b →
    b.fault = none → x.uprog[x.upc]? = some w → decodeUop w = .ok j →
    (0 < x.upc → entryState j b.port ∧ (j = .idle → b.port.sdaLat = true ∨ b.port.sclLat = false)) ∧
    (j ≠ .lock → b.lock = .held x.thread)

/-- R50, R85: in every state of the invariant, while an unfaulted instance's lock is held by thread t, a step adds to
its history only events of t, or the one FAULT event that faults it. -/
def Obligations.HeldInstanceServesOnlyItsHolder : Prop :=
  ∀ (s s' : State) (i : Nat) (b b' : Bus) (t : Nat), EngineInv s → step s = .next s' →
    s.buses[i]? = some b → s'.buses[i]? = some b' →
    b.fault = none → b.lock = .held t →
    ∃ es, b'.hist = b.hist ++ es ∧ ∀ e ∈ es, e.thread = t ∨ ∃ r, e.event = .fault r ∧ b'.fault = some r

/-- R31: no step removes or changes an event of a history, and no instance disappears. R60, R64: the refusal mark is kept
for the whole run. R103, R109: a thread that was refused or faulted stays stopped (deduced, logs 10, 11) and gets no
return, and FAULT events without an instance stay (kept apart: the model's choice, log 12); a step hands nothing back but
to the thread whose turn it is. A state with any of these marks is never final. -/
def Obligations.StepOnlyExtendsHistories : Prop :=
  (∀ s s' : State, step s = .next s' →
    (∀ (i : Nat) (b : Bus), s.buses[i]? = some b → ∃ b', s'.buses[i]? = some b' ∧ b.hist <+: b'.hist) ∧
    s.noBusHist <+: s'.noBusHist ∧
    (∀ r, s.refusal = some r → s'.refusal = some r) ∧
    (∀ t ∈ s.blocked, t ∈ s'.blocked) ∧
    ∃ rs, s'.returns = s.returns ++ rs ∧ ∀ r ∈ rs, r.thread = s.nextThread ∧ r.thread ∉ s.blocked) ∧
  ∀ s : State, s.refusal ≠ none ∨ s.blocked ≠ [] ∨ s.noBusHist ≠ [] → ¬ s.ended

/-- R32: FAULT is NONE at construction; a faulted instance takes no further step, so it is the same after every step of
the machine and FAULT is never cleared; and a state with a faulted instance is never final. -/
def Obligations.FaultedInstanceNeverSteps : Prop :=
  (∀ tHalf p, (Bus.constructed tHalf p).fault = none) ∧
  (∀ (s s' : State) (i : Nat) (b : Bus), step s = .next s' → s.buses[i]? = some b → b.fault ≠ none →
    s'.buses[i]? = some b) ∧
  ∀ (s : State) (i : Nat) (b : Bus), s.buses[i]? = some b → b.fault ≠ none → ¬ s.ended

/-- R15, R16, R33: T_HALF and PINS never change. R6: the open widths never change; the model keeps them in its state
(log 6). That the host's memory layout never changes is the model's choice (log 9). -/
def Obligations.ConfigurationNeverChanges : Prop :=
  ∀ (s s' : State) (i : Nat) (b : Bus), step s = .next s' → s.buses[i]? = some b →
    s'.params = s.params ∧ s'.layout = s.layout ∧
    ∃ b', s'.buses[i]? = some b' ∧ b'.tHalf = b.tHalf ∧ b'.pins = b.pins

/-- R17, R18, R33: only INIT and DEINIT change INITD, and only LOCK, UNLOCK, INIT and DEINIT change the lock. -/
def Obligations.OnlyLifecycleAndLockOpsChangeLock : Prop :=
  ∀ (i : Instr) (s s' : State) (k : Nat) (b b' : Bus), exec i s = .next s' →
    s.buses[k]? = some b → s'.buses[k]? = some b' →
    (b'.initd ≠ b.initd → i = .init ∨ i = .deinit) ∧
    (b'.lock ≠ b.lock → i = .lock ∨ i = .unlock ∨ i = .init ∨ i = .deinit)

/-- R127, C10: no instruction emits RD_SCL or SCL_IN, and only INIT emits SCL_OUT, at most once
(InitEstablishesIdleInstance says that it does). -/
def Obligations.ClockIsNeverRead : Prop :=
  ∀ (i : Instr) (s s' : State) (k : Nat) (b b' : Bus), exec i s = .next s' →
    s.buses[k]? = some b → s'.buses[k]? = some b' →
    (∀ e ∈ newEvents b b', (∀ v, e ≠ .rdScl v) ∧ e ≠ .sclIn ∧ (e = .sclOut → i = .init)) ∧
    (newEvents b b').count .sclOut ≤ 1

/-- R25, R53, R89: while a command stays in flight its CMD and UPROG never change, and a step advances UPC by at most
one. R28: nothing clears FAIL. -/
def Obligations.CommandInFlightIsFixed : Prop :=
  ∀ (s s' : State) (t : Nat) (x y : Txn), step s = .next s' → s.txnOf t = some x → s'.txnOf t = some y →
    y.bus = x.bus ∧ y.cmd = x.cmd ∧ y.uprog = x.uprog ∧ (y.upc = x.upc ∨ y.upc = x.upc + 1) ∧
    (x.fail = true → y.fail = true)

/-- R36: an instruction acts on one instance only: a micro-op on the instance of the current command, a command on the
instance its descriptor names. Another instance is unchanged, or it is faulted with BUF_RACE by the memory access of a
TXM or RXM (R49). -/
def Obligations.OtherInstancesUnchanged : Prop :=
  ∀ (i : Instr) (s s' : State) (k : Nat) (b : Bus), exec i s = .next s' → s.buses[k]? = some b →
    (i.format = .uop → ∀ x, s.txnOf s.cur = some x → x.bus ≠ k) → (i.format = .cmd → s.desc.bus ≠ some k) →
    s'.buses[k]? = some b ∨
    (((∃ j, i = .txm j) ∨ (∃ j, i = .rxm j)) ∧ ∃ t, s'.buses[k]? = some (b.faulted t .bufRace))

/-- R38, R41: only RXM changes host memory: after any other instruction memory is the same; and after RXM i, in every
state with a canonical memory, every address but its own BUF + i reads as before. There is one memory for all
threads (the model's choice, log 37). -/
def Obligations.OnlyRxmWritesMemory : Prop :=
  (∀ (i : Instr) s s', exec i s = .next s' → (∀ j, i ≠ .rxm j) → s'.mem = s.mem) ∧
  ∀ (i : BitVec 24) s s' x, s.txnOf s.cur = some x → exec (.rxm i) s = .next s' → Memory.wf s.mem →
    ∀ a, a ≠ x.cmd.buf + i.toNat → s'.readByte a = s.readByte a

/-! ### Whole commands -/

/-- R89, R90, R91: every transaction command, run alone from acceptance by as many turns of its thread as its
micro-program has micro-ops and one more, completes under every environment, acknowledged or not: UPROG runs to its end,
both lines end released, the lock is free again, and RESULT and the thread's answer are true exactly when FAIL was clear
at the start and every acknowledge check of the command saw an acknowledge. That it acquires the lock also where a DEINIT
and a new INIT came after its acceptance is the model's choice (log 36). -/
def Obligations.EveryCommandRunsToItsResult : Prop :=
  ∀ (s : State) (t k : Nat) (b : Bus) (x : Txn) (rest : List Nat), x.cmd.acceptable →
    s.sched = List.replicate ((expand x.cmd).length + 1) t ++ rest → t ∉ s.blocked → s.txns = [x] →
    x.thread = t → x.bus = k → x.uprog = expand x.cmd → x.upc = 0 → x.raced = [] →
    s.buses[k]? = some b → b.fault = none → b.initd = true → b.lock = .free → b.port = idlePort →
    (∀ i, i < x.cmd.count →
      (x.cmd.op.isRead = true → s.writable (x.cmd.buf + i) = true) ∧
      (x.cmd.op.hasBuffer = true → x.cmd.op.isRead = false → s.readable (x.cmd.buf + i) = true)) →
    ∃ (s' : State) (b' : Bus) (ok : Bool),
      core.run ((expand x.cmd).length + 1) s = .next s' ∧ s'.txns = [] ∧ s'.buses = s.buses.set k b' ∧
      b'.lock = .free ∧ b'.port = idlePort ∧ b'.fault = none ∧ b'.result = some ok ∧
      (ok = true ↔ x.fail = false ∧ missedAcks (newEvents b b') = 0) ∧
      s'.returns = s.returns ++ [⟨t, some k, .code (if ok then .ok else .eNack)⟩]

/-- R94, R133: run as in EveryCommandRunsToItsResult, a transaction command makes exactly its START and STOP conditions,
and its delays sum to the figure of R133, under every environment (the model's choice of log 36 holds for it too). -/
def Obligations.CommandConditionsAndDelays : Prop :=
  ∀ (s : State) (t k : Nat) (b : Bus) (x : Txn) (rest : List Nat), x.cmd.acceptable →
    s.sched = List.replicate ((expand x.cmd).length + 1) t ++ rest → t ∉ s.blocked → s.txns = [x] →
    x.thread = t → x.bus = k → x.uprog = expand x.cmd → x.upc = 0 → x.raced = [] →
    s.buses[k]? = some b → b.fault = none → b.initd = true → b.lock = .free → b.port = idlePort →
    (∀ i, i < x.cmd.count →
      (x.cmd.op.isRead = true → s.writable (x.cmd.buf + i) = true) ∧
      (x.cmd.op.hasBuffer = true → x.cmd.op.isRead = false → s.readable (x.cmd.buf + i) = true)) →
    ∃ s' b', core.run ((expand x.cmd).length + 1) s = .next s' ∧ s'.buses[k]? = some b' ∧
      let n := x.cmd.count
      conditions b.port (newEvents b b') =
        (match x.cmd.op with
         | .read8 | .read16 => [.start, .start, .stop]
         | _ => [.start, .stop]) ∧
      dlySum (newEvents b b') =
        b.tHalf * (match x.cmd.op with
          | .probe => 31
          | .read8 => 79 + 21 * n
          | .read16 => 103 + 21 * n
          | .readna => 27 + 21 * n
          | .write8 => 55 + 24 * n
          | .write16 => 79 + 24 * n)

/-! ### Trace equivalence -/

/-- R10: two adjacent delays are equivalent to one of their sum, wherever they stand; and nothing else is equivalent to
anything but itself: behind a leading event that is no delay, or a leading delay that no second delay follows, traces
are equivalent exactly when the two leading events are equal and the rests are equivalent; a leading delay matches no
other event; an empty trace is equivalent to no other. So equivalent traces have the same events apart from delays, in
order, and the same sum of delays. That thread tags are not compared is the model's choice (log 32). -/
def Obligations.TraceEquivalenceMergesDelays : Prop :=
  (∀ (es fs : List Event) (m n : Nat),
    traceEquiv (es ++ .dly (m + n) :: fs) (es ++ .dly m :: .dly n :: fs)) ∧
  ∀ es fs : List Event,
    (traceEquiv [] es ↔ es = []) ∧
    (∀ e f : Event, e.isDelay = false → f.isDelay = false →
      (traceEquiv (e :: es) (f :: fs) ↔ e = f ∧ traceEquiv es fs)) ∧
    (∀ (e : Event) (n : Nat), e.isDelay = false → ¬ traceEquiv (e :: es) (.dly n :: fs)) ∧
    (∀ m n : Nat, (∀ k, es.head? ≠ some (.dly k)) → (∀ k, fs.head? ≠ some (.dly k)) →
      (traceEquiv (.dly m :: es) (.dly n :: fs) ↔ m = n ∧ traceEquiv es fs)) ∧
    (traceEquiv es fs → traceEquiv fs es ∧
      (es.filter fun e => e.isDelay = false) = (fs.filter fun e => e.isDelay = false) ∧ dlySum es = dlySum fs) ∧
    ((∀ e ∈ es ++ fs, e.isDelay = false) → (traceEquiv es fs ↔ es = fs))
end

