-- ==== Sys2Proof/Laws/Bus.lean ====
section
/-!
SUPPORT. What the operations on one bus instance do: events, samples, the bits of RXM and the polls of ACKCHK.
-/

namespace Sys2Proof.Machine

@[simp] theorem tagged_nil (t : Nat) : tagged t [] = [] := rfl

@[simp] theorem tagged_cons (t : Nat) (e : Event) (es : List Event) :
    tagged t (e :: es) = { thread := t, event := e } :: tagged t es := rfl

@[simp] theorem tagged_append (t : Nat) (es fs : List Event) : tagged t (es ++ fs) = tagged t es ++ tagged t fs := by
  simp [tagged]

@[simp] theorem tagged_length (t : Nat) (es : List Event) : (tagged t es).length = es.length := by simp [tagged]

theorem tagged_event (t : Nat) (es : List Event) : (tagged t es).map Entry.event = es := by
  simp [tagged, Function.comp_def]

/-- The new events of an instance whose history was extended by the events es. -/
theorem newEvents_of_hist {b b' : Bus} {t : Nat} {es : List Event} (h : b'.hist = b.hist ++ tagged t es) :
    newEvents b b' = es := by
  simp [newEvents, h, tagged_event]

/-- The effects of events, without their history. -/
def applyEffects (t : Nat) (es : List Event) (b : Bus) : Bus := es.foldl (fun b e => e.effect t b) b

theorem effect_hist (t : Nat) (e : Event) (b : Bus) : (e.effect t b).hist = b.hist := by
  cases e <;> rfl

theorem effect_withHist (t : Nat) (e : Event) (b : Bus) (h : List Entry) :
    e.effect t { b with hist := h } = { e.effect t b with hist := h } := by
  cases e <;> rfl

theorem applyEffects_withHist (t : Nat) (es : List Event) (b : Bus) (h : List Entry) :
    applyEffects t es { b with hist := h } = { applyEffects t es b with hist := h } := by
  induction es generalizing b with
  | nil => rfl
  | cons e es ih => simp only [applyEffects, List.foldl_cons, effect_withHist] at ih ⊢; exact ih _

/-- Emitting events appends them to the history and has their effects. -/
theorem emits_eq (t : Nat) (es : List Event) (b : Bus) :
    b.emits t es = { applyEffects t es b with hist := b.hist ++ tagged t es } := by
  induction es generalizing b with
  | nil => cases b; simp [Bus.emits, applyEffects]
  | cons e es ih =>
    have h : b.emits t (e :: es) = (b.emit t e).emits t es := rfl
    have h' : applyEffects t (e :: es) b = applyEffects t es (e.effect t b) := rfl
    rw [h, ih, h']
    simp [Bus.emit, effect_hist, applyEffects_withHist]

theorem emit_eq (t : Nat) (e : Event) (b : Bus) :
    b.emit t e = { e.effect t b with hist := b.hist ++ tagged t [e] } := by
  simp [Bus.emit, effect_hist]

/-- The six events of one sent bit leave SDA's latch at the bit and SCL low, and change nothing else. -/
theorem applyEffects_sendBit (t T : Nat) (v : Bool) (b : Bus) :
    applyEffects t (sendBitEvents T v) b = { b with port := { b.port with sdaLat := v, sclLat := false } } := by
  cases v <;> rfl

theorem applyEffects_append (t : Nat) (es fs : List Event) (b : Bus) :
    applyEffects t (es ++ fs) b = applyEffects t fs (applyEffects t es b) := by
  simp [applyEffects]

/-- The 48 events of one sent byte leave SDA's latch at bit 0 and SCL low, and change nothing else. -/
theorem applyEffects_sendByte (t T : Nat) (v : Byte) (b : Bus) :
    applyEffects t (sendByteEvents T v) b =
      { b with port := { b.port with sdaLat := v.getLsbD 0, sclLat := false } } := by
  simp [sendByteEvents, wireBits, applyEffects_append, applyEffects_sendBit]

/-- txbyte: SHIFT holds the byte, BITCNT is 8, the byte's events are in the history, SDA's latch is bit 0 and SCL is low. -/
theorem txbyte_eq (t : Nat) (v : Byte) (b : Bus) :
    b.txbyte t v =
      { b with
        shift := v
        bitcnt := 8
        port := { b.port with sdaLat := v.getLsbD 0, sclLat := false }
        hist := b.hist ++ tagged t (sendByteEvents b.tHalf v) } := by
  simp [Bus.txbyte, emits_eq, applyEffects_sendByte]

/-- Every use of the environment's answer changes only the script and the counter of free values, and never brings back
an answer that was used. -/
theorem answer_spec (b : Bus) :
    ∃ env draws, b.answer.2 = { b with env := env, draws := draws } ∧
      ∀ v rest, b.env = v :: rest → b.answer.1 = v ∧ env = rest ∧ draws = b.draws := by
  unfold Bus.answer
  split
  · exact ⟨_, _, rfl, by rename_i h; rintro v r h'; simp_all⟩
  · exact ⟨_, _, rfl, by simp_all⟩

/-- ReadSCL() reads and records the answer (R9). -/
theorem readScl_spec (t : Nat) (b : Bus) :
    ∃ env draws,
      (b.readScl t).2 =
        { b with env := env, draws := draws, hist := b.hist ++ tagged t [.rdScl (b.readScl t).1] } ∧
      ∀ v rest, b.env = v :: rest → (b.readScl t).1 = v ∧ env = rest ∧ draws = b.draws := by
  obtain ⟨env, draws, h2, h3⟩ := answer_spec b
  exact ⟨env, draws, by simp [Bus.readScl, emit_eq, h2, Event.effect], h3⟩

/-- A sample with SDA released: the answer is read and recorded. -/
theorem readSda_spec (t : Nat) (b : Bus) (h : b.port.sdaMode = .inp) :
    ∃ env draws,
      (b.readSda t).2 =
        { b with env := env, draws := draws, hist := b.hist ++ tagged t [.rdSda (b.readSda t).1] } ∧
      ∀ v rest, b.env = v :: rest → (b.readSda t).1 = v ∧ env = rest ∧ draws = b.draws := by
  obtain ⟨env, draws, h2, h3⟩ := answer_spec b
  refine ⟨env, draws, ?_, ?_⟩
  · simp [Bus.readSda, emit_eq, h2, Event.effect]
  · intro v rest hv
    obtain ⟨ha, hb, hc⟩ := h3 v rest hv
    exact ⟨by simp [Bus.readSda, Port.drvSda, h, ha], hb, hc⟩

/-- One bit of RXM with SDA released. -/
theorem rxbit_spec (t : Nat) (b : Bus) (h : b.port.sdaMode = .inp) :
    ∃ v env draws,
      b.rxbit t =
        { b with
          port := { b.port with sclLat := false }
          shift := (b.shift <<< 1) ||| (BitVec.ofBool v).setWidth 8
          bitcnt := b.bitcnt + 1
          env := env
          draws := draws
          hist := b.hist ++ tagged t [.sclH, .rdSda v, .dly b.tHalf, .sclL, .dly b.tHalf] } ∧
      ∀ a rest, b.env = a :: rest → v = a ∧ env = rest ∧ draws = b.draws := by
  obtain ⟨env, draws, h2, h3⟩ := readSda_spec t (b.emit t .sclH) (by simpa [emit_eq, Event.effect] using h)
  refine ⟨((b.emit t .sclH).readSda t).1, env, draws, ?_, ?_⟩
  · simp only [Bus.rxbit, h2]
    simp [emit_eq, emits_eq, applyEffects, Event.effect]
  · simpa [emit_eq, Event.effect] using h3

/-- The events of n received bits. -/
def receiveEvents (T : Nat) (bits : List Bool) : List Event :=
  bits.flatMap fun v => [.sclH, .rdSda v, .dly T, .sclL, .dly T]

/-- The shift register after bits were shifted in. -/
def shiftIn (bits : List Bool) (v : Byte) : Byte :=
  bits.foldl (fun v a => (v <<< 1) ||| (BitVec.ofBool a).setWidth 8) v

/-- n bits of RXM with SDA released, n at least 1. -/
theorem rxbits_spec (t n : Nat) (b : Bus) (h : b.port.sdaMode = .inp) :
    ∃ (bits : List Bool) (env : List Bool) (draws : Nat), bits.length = n + 1 ∧
      b.rxbits t (n + 1) =
        { b with
          port := { b.port with sclLat := false }
          shift := shiftIn bits b.shift
          bitcnt := b.bitcnt + (n + 1)
          env := env
          draws := draws
          hist := b.hist ++ tagged t (receiveEvents b.tHalf bits) } ∧
      ∀ as rest, b.env = as ++ rest → as.length = n + 1 → bits = as ∧ env = rest ∧ draws = b.draws := by
  induction n generalizing b with
  | zero =>
    obtain ⟨v, env, draws, h1, h2⟩ := rxbit_spec t b h
    refine ⟨[v], env, draws, rfl, ?_, ?_⟩
    · simp [Bus.rxbits, h1, shiftIn, receiveEvents]
    · intro as rest he hl
      obtain ⟨a, rfl⟩ := List.length_eq_one_iff.1 hl
      simpa using h2 a rest he
  | succ n ih =>
    obtain ⟨v, env, draws, h1, h2⟩ := rxbit_spec t b h
    obtain ⟨bits, env', draws', hl, h3, h4⟩ := ih (b.rxbit t) (by rw [h1]; exact h)
    refine ⟨v :: bits, env', draws', by simp [hl], ?_, ?_⟩
    · have hr : b.rxbits t (n + 1 + 1) = (b.rxbit t).rxbits t (n + 1) := rfl
      rw [hr, h3, h1]
      simp [shiftIn, receiveEvents]
      omega
    · intro as rest he hl
      cases as with
      | nil => simp at hl
      | cons a as =>
        obtain ⟨rfl, rfl, rfl⟩ := h2 a (as ++ rest) (by simpa using he)
        obtain ⟨rfl, rfl, h5⟩ := h4 as rest (by rw [h1]) (by simpa using hl)
        exact ⟨rfl, rfl, by rw [h5, h1]⟩

/-- Eight bits shifted in replace the register: the first one is bit 7, the last one bit 0 (R81). -/
theorem shiftIn_eight (bits : List Bool) (v : Byte) (h : bits.length = 8) (k : Nat) (hk : k < 8) :
    bits[k]? = some ((shiftIn bits v).getLsbD (7 - k)) := by
  match bits, h with
  | [b0, b1, b2, b3, b4, b5, b6, b7], _ =>
    interval_cases k <;> simp [shiftIn]

/-- The polls of ACKCHK with SDA released: samples of 1, then the last sample; it is a 1 only when the polls are used up. -/
theorem poll_spec (t n : Nat) (b : Bus) (h : b.port.sdaMode = .inp) :
    ∃ (bits : List Bool) (last : Bool) (env : List Bool) (draws : Nat),
      bits.length ≤ n ∧ (∀ v ∈ bits, v = true) ∧ (last = true → bits.length = n) ∧
      Bus.poll t (n + 1) b =
        (!last,
          { b with
            pollcnt := b.pollcnt + (bits.length + 1)
            env := env
            draws := draws
            hist := b.hist ++ tagged t ((bits ++ [last]).map .rdSda) }) ∧
      ∀ k rest, (k ≤ n → b.env = List.replicate k true ++ false :: rest →
          bits = List.replicate k true ∧ last = false ∧ env = rest ∧ draws = b.draws) ∧
        (k = n → b.env = List.replicate (k + 1) true ++ rest →
          bits = List.replicate k true ∧ last = true ∧ env = rest ∧ draws = b.draws) := by
  induction n generalizing b with
  | zero =>
    obtain ⟨env, draws, h1, h2⟩ := readSda_spec t b h
    refine ⟨[], (b.readSda t).1, env, draws, by simp, by simp, by simp, ?_, ?_⟩
    · simp only [Bus.poll, h1]
      cases (b.readSda t).1 <;> simp
    · intro k rest
      refine ⟨?_, ?_⟩
      · intro hk he
        obtain rfl : k = 0 := by omega
        simpa using h2 _ _ (by simpa using he)
      · rintro rfl he
        simpa using h2 _ _ (by simpa using he)
  | succ n ih =>
    obtain ⟨env, draws, h1, h2⟩ := readSda_spec t b h
    cases hv : (b.readSda t).1 with
    | false =>
      refine ⟨[], false, env, draws, by simp, by simp, by simp, ?_, ?_⟩
      · simp [Bus.poll, h1, hv]
      · intro k rest
        refine ⟨?_, ?_⟩
        · intro hk he
          cases k with
          | zero => simpa using (h2 _ _ (by simpa using he)).2
          | succ k =>
            have := (h2 _ _ (by simpa [List.replicate_succ] using he)).1
            simp [hv] at this
        · rintro rfl he
          have := (h2 _ _ (by simpa [List.replicate_succ] using he)).1
          simp [hv] at this
    | true =>
      obtain ⟨bits, last, env', draws', hl, hb, hlast, h3, h4⟩ :=
        ih { (b.readSda t).2 with pollcnt := (b.readSda t).2.pollcnt + 1 } (by simp [h1, h])
      refine ⟨true :: bits, last, env', draws', by simpa using hl, by simpa using hb, by simpa using hlast, ?_, ?_⟩
      · have hp : Bus.poll t (n + 1 + 1) b =
            Bus.poll t (n + 1) { (b.readSda t).2 with pollcnt := (b.readSda t).2.pollcnt + 1 } := by
          simp [Bus.poll, hv]
        rw [hp, h3, h1]
        simp [hv]
        omega
      · intro k rest
        refine ⟨?_, ?_⟩
        · intro hk he
          cases k with
          | zero =>
            have := (h2 _ _ (by simpa using he)).1
            simp [hv] at this
          | succ k =>
            obtain ⟨-, rfl, rfl⟩ := h2 _ _ (by simpa [List.replicate_succ] using he)
            obtain ⟨rfl, rfl, rfl, h5⟩ := (h4 k rest).1 (by omega) (by simp [h1])
            exact ⟨by simp [List.replicate_succ], rfl, rfl, by simpa [h1] using h5⟩
        · rintro rfl he
          obtain ⟨-, rfl, rfl⟩ := h2 true (List.replicate (n + 1) true ++ rest) (by simpa [List.replicate_succ] using he)
          obtain ⟨rfl, rfl, rfl, h5⟩ := (h4 n rest).2 rfl (by simp [h1])
          exact ⟨by simp [List.replicate_succ], rfl, rfl, by simpa [h1] using h5⟩

/-- ACKCHK on an instance (R80): one to ten samples between SDA_IN SCL_H and SCL_L SDA_OUT. -/
theorem ackchk_spec (t : Nat) (b : Bus) :
    ∃ (bits : List Bool) (last : Bool) (env : List Bool) (draws : Nat),
      bits.length ≤ 9 ∧ (∀ v ∈ bits, v = true) ∧ (last = true → bits.length = 9) ∧
      b.ackchk t =
        (!last,
          { b with
            port := { b.port with sdaMode := .out, sclLat := false }
            pollcnt := bits.length + 1
            env := env
            draws := draws
            hist := b.hist ++ tagged t ([.sdaIn, .sclH] ++ (bits ++ [last]).map .rdSda ++ [.sclL, .sdaOut]) }) ∧
      ∀ k rest, (k ≤ 9 → b.env = List.replicate k true ++ false :: rest →
          bits = List.replicate k true ∧ last = false ∧ env = rest ∧ draws = b.draws) ∧
        (k = 9 → b.env = List.replicate (k + 1) true ++ rest →
          bits = List.replicate k true ∧ last = true ∧ env = rest ∧ draws = b.draws) := by
  obtain ⟨bits, last, env, draws, h1, h2, h3, h4, h5⟩ :=
    poll_spec t 9 { b.emits t [.sdaIn, .sclH] with pollcnt := 0 } (by simp [emits_eq, applyEffects, Event.effect])
  refine ⟨bits, last, env, draws, h1, h2, h3, ?_, ?_⟩
  · simp only [Bus.ackchk, Config.ackPolls, h4]
    simp [emits_eq, applyEffects, Event.effect]
  · simpa [emits_eq, applyEffects, Event.effect] using h5

/-- INIT's changes on an instance (R101). -/
theorem initialise_spec (t : Nat) (b : Bus) :
    ∃ (busy : Bool) (env : List Bool) (draws : Nat),
      (∀ v rest, b.env = v :: rest → busy = v ∧ env = rest) ∧
      b.initialise t =
        { b with
          initd := true
          lock := .free
          port := idlePort
          result := none
          env := env
          draws := draws
          hist := b.hist ++ tagged t
            ([.pcfg, .busy busy] ++ (if busy then [.warnBusy] else []) ++ [.sdaH, .sclH, .sdaOut, .sclOut]) } := by
  obtain ⟨env, draws, h1, h2⟩ := answer_spec (b.emit t .pcfg)
  refine ⟨(b.emit t .pcfg).answer.1, env, draws + 1, ?_, ?_⟩
  · intro v rest h
    exact ⟨(h2 v rest h).1, (h2 v rest h).2.1⟩
  · simp only [Bus.initialise, Bus.busBusy, h1]
    cases (b.emit t .pcfg).answer.1 <;>
      simp [emit_eq, emits_eq, applyEffects, Event.effect, Bus.freshPort, idlePort]

/-- The receiving part of RXM on an instance (R81): eight samples make the byte, first sample highest. -/
theorem receive_spec (i : BitVec 24) (t : Nat) (b : Bus) :
    ∃ (v : Byte) (env : List Bool) (draws : Nat),
      ({ ({ b with idx := i.toNat } : Bus).emit t .sdaIn with shift := 0, bitcnt := 0 } : Bus).rxbits t 8 =
        { b with
          port := { b.port with sdaMode := .inp, sclLat := false }
          shift := v
          bitcnt := 8
          idx := i.toNat
          env := env
          draws := draws
          hist := b.hist ++ tagged t
            (.sdaIn :: receiveEvents b.tHalf ((List.range 8).map fun k => v.getLsbD (7 - k))) } ∧
      ∀ bits rest, b.env = bits ++ rest → bits.length = 8 →
        env = rest ∧ draws = b.draws ∧ ∀ k, k < 8 → bits[k]? = some (v.getLsbD (7 - k)) := by
  obtain ⟨bits, env, draws, h1, h2, h3⟩ :=
    rxbits_spec t 7 { ({ b with idx := i.toNat } : Bus).emit t .sdaIn with shift := 0, bitcnt := 0 }
      (by simp [emit_eq, Event.effect])
  have hv := fun k hk => shiftIn_eight bits 0 h1 k hk
  have hbits : bits = (List.range 8).map fun k => (shiftIn bits 0).getLsbD (7 - k) := by
    refine List.ext_getElem? fun k => ?_
    by_cases hk : k < 8
    · rw [hv k hk]
      simp [hk]
    · rw [List.getElem?_eq_none (by omega), List.getElem?_eq_none (by simpa using hk)]
  refine ⟨shiftIn bits 0, env, draws, ?_, ?_⟩
  · rw [h2, ← hbits]
    simp [emit_eq, Event.effect]
  · intro as rest he hl
    obtain ⟨rfl, rfl, rfl⟩ := h3 as rest he hl
    exact ⟨rfl, rfl, hv⟩

end Sys2Proof.Machine
end

