-- ==== Sys2Proof/Laws/Decode.lean ====
section
/-!
SUPPORT. The words of the two formats as numbers, and the fields read back from a word.
-/

namespace Sys2Proof

/-- A command word is the sum of its fields at their places (R57). -/
theorem cmdWord_toNat (op : BitVec 4) (dev : BitVec 7) (reg : BitVec 16) :
    (cmdWord op dev reg).toNat = op.toNat + 2 ^ 4 * dev.toNat + 2 ^ 16 * reg.toNat := by
  have h1 := op.isLt
  have h2 := dev.isLt
  have h3 := reg.isLt
  have e1 := Nat.two_pow_add_eq_or_of_lt (i := 4) h1 dev.toNat
  have e2 := Nat.two_pow_add_eq_or_of_lt (i := 16) (b := 2 ^ 4 * dev.toNat + op.toNat) (by omega) reg.toNat
  have m1 : 2 ^ 4 * dev.toNat % 2 ^ 32 = 2 ^ 4 * dev.toNat := Nat.mod_eq_of_lt (by omega)
  have m2 : 2 ^ 16 * reg.toNat % 2 ^ 32 = 2 ^ 16 * reg.toNat := Nat.mod_eq_of_lt (by omega)
  have m3 : dev.toNat % 2 ^ 32 = dev.toNat := Nat.mod_eq_of_lt (by omega)
  have m4 : reg.toNat % 2 ^ 32 = reg.toNat := Nat.mod_eq_of_lt (by omega)
  have m5 : op.toNat % 2 ^ 32 = op.toNat := Nat.mod_eq_of_lt (by omega)
  simp only [cmdWord, BitVec.toNat_or, BitVec.toNat_shiftLeft, BitVec.toNat_setWidth, Nat.shiftLeft_eq,
    Nat.mul_comm _ (2 ^ _), m1, m2, m3, m4, m5]
  rw [Nat.or_comm op.toNat, ← e1, Nat.or_comm, ← e2]
  omega

/-- A micro-op word is the sum of its fields at their places (R62). -/
theorem uopWord_toNat (op : BitVec 4) (opd : BitVec 24) : (uopWord op opd).toNat = op.toNat + 2 ^ 8 * opd.toNat := by
  have h1 := op.isLt
  have h2 := opd.isLt
  have e1 := Nat.two_pow_add_eq_or_of_lt (i := 8) (b := op.toNat) (by omega) opd.toNat
  have m1 : 2 ^ 8 * opd.toNat % 2 ^ 32 = 2 ^ 8 * opd.toNat := Nat.mod_eq_of_lt (by omega)
  have m2 : opd.toNat % 2 ^ 32 = opd.toNat := Nat.mod_eq_of_lt (by omega)
  have m3 : op.toNat % 2 ^ 32 = op.toNat := Nat.mod_eq_of_lt (by omega)
  simp only [uopWord, BitVec.toNat_or, BitVec.toNat_shiftLeft, BitVec.toNat_setWidth, Nat.shiftLeft_eq,
    Nat.mul_comm _ (2 ^ _), m1, m2, m3]
  rw [Nat.or_comm op.toNat, ← e1]
  omega

/-- A field of a word as a number. -/
theorem field_toNat (w : Word) (a n : Nat) : (w.extractLsb' a n).toNat = w.toNat / 2 ^ a % 2 ^ n := by
  simp [Nat.shiftRight_eq_div_pow]

/-! ### Fields of a command word -/

theorem codeField_cmdWord (op : BitVec 4) (dev : BitVec 7) (reg : BitVec 16) : codeField (cmdWord op dev reg) = op := by
  apply BitVec.eq_of_toNat_eq
  have h1 := op.isLt
  rw [codeField, field_toNat, cmdWord_toNat]
  omega

theorem devField_cmdWord (op : BitVec 4) (dev : BitVec 7) (reg : BitVec 16) : devField (cmdWord op dev reg) = dev := by
  apply BitVec.eq_of_toNat_eq
  have h1 := op.isLt
  have h2 := dev.isLt
  rw [devField, field_toNat, cmdWord_toNat]
  omega

theorem rsvField_cmdWord (op : BitVec 4) (dev : BitVec 7) (reg : BitVec 16) : rsvField (cmdWord op dev reg) = 0 := by
  apply BitVec.eq_of_toNat_eq
  have h1 := op.isLt
  have h2 := dev.isLt
  rw [rsvField, field_toNat, cmdWord_toNat]
  simp
  omega

theorem regField_cmdWord (op : BitVec 4) (dev : BitVec 7) (reg : BitVec 16) : regField (cmdWord op dev reg) = reg := by
  apply BitVec.eq_of_toNat_eq
  have h1 := op.isLt
  have h2 := dev.isLt
  have h3 := reg.isLt
  rw [regField, field_toNat, cmdWord_toNat]
  omega

/-! ### Fields of a micro-op word -/

theorem codeField_uopWord (op : BitVec 4) (opd : BitVec 24) : codeField (uopWord op opd) = op := by
  apply BitVec.eq_of_toNat_eq
  have h1 := op.isLt
  rw [codeField, field_toNat, uopWord_toNat]
  omega

theorem zField_uopWord (op : BitVec 4) (opd : BitVec 24) : zField (uopWord op opd) = 0 := by
  apply BitVec.eq_of_toNat_eq
  have h1 := op.isLt
  rw [zField, field_toNat, uopWord_toNat]
  simp
  omega

theorem opdField_uopWord (op : BitVec 4) (opd : BitVec 24) : opdField (uopWord op opd) = opd := by
  apply BitVec.eq_of_toNat_eq
  have h1 := op.isLt
  have h2 := opd.isLt
  rw [opdField, field_toNat, uopWord_toNat]
  omega

/-! ### Words from their own fields -/

/-- A word with RSV = 0 is the command word of its fields. -/
theorem cmdWord_fields {w : Word} (h : rsvField w = 0) : cmdWord (codeField w) (devField w) (regField w) = w := by
  apply BitVec.eq_of_toNat_eq
  have h1 := w.isLt
  have h2 : (rsvField w).toNat = 0 := by rw [h]; rfl
  rw [rsvField, field_toNat] at h2
  rw [cmdWord_toNat, codeField, devField, regField, field_toNat, field_toNat, field_toNat]
  omega

/-- A word with Z = 0 is the micro-op word of its fields. -/
theorem uopWord_fields {w : Word} (h : zField w = 0) : uopWord (codeField w) (opdField w) = w := by
  apply BitVec.eq_of_toNat_eq
  have h1 := w.isLt
  have h2 : (zField w).toNat = 0 := by rw [h]; rfl
  rw [zField, field_toNat] at h2
  rw [uopWord_toNat, codeField, opdField, field_toNat, field_toNat]
  omega

end Sys2Proof
end

