-- ==== Sys2Proof/Laws/Memory.lean ====
section
/-!
SUPPORT. Host memory: a read after a write, and that a write keeps the canonical form.
-/

namespace Sys2Proof.Machine

/-- Every address of m is above a. -/
abbrev Memory.above (a : Nat) (m : List Host.Cell) : Prop := ∀ c ∈ m, a < c.1

theorem Memory.wf_cons {c : Host.Cell} {m : List Host.Cell} :
    Memory.wf (c :: m) ↔ Memory.above c.1 m ∧ c.2 ≠ Memory.unlisted ∧ Memory.wf m := by
  simp only [Memory.wf, Memory.above, List.pairwise_cons, List.forall_mem_cons]
  tauto

theorem Memory.read_of_above {a : Nat} {m : List Host.Cell} (h : Memory.above a m) :
    Memory.read m a = Memory.unlisted := by
  induction m with
  | nil => rfl
  | cons c m ih =>
    have hc : a < c.1 := h c (by simp)
    simp [Memory.read, Nat.ne_of_gt hc, ih fun d hd => h d (by simp [hd])]

theorem Memory.read_consIf {a b : Nat} {v : Byte} {m : List Host.Cell} (h : Memory.above a m) :
    Memory.read (Memory.consIf a v m) b = if b = a then v else Memory.read m b := by
  unfold Memory.consIf
  split
  · split
    · subst_vars; exact Memory.read_of_above h
    · rfl
  · simp [Memory.read, eq_comm]

theorem Memory.above_consIf {a b : Nat} {v : Byte} {m : List Host.Cell} (hb : b < a) (h : Memory.above b m) :
    Memory.above b (Memory.consIf a v m) := by
  unfold Memory.consIf
  split
  · exact h
  · simpa [Memory.above, hb] using h

theorem Memory.wf_consIf {a : Nat} {v : Byte} {m : List Host.Cell} (ha : Memory.above a m) (h : Memory.wf m) :
    Memory.wf (Memory.consIf a v m) := by
  unfold Memory.consIf
  split
  · exact h
  · exact Memory.wf_cons.2 ⟨ha, ‹_›, h⟩

theorem Memory.above_write {a b : Nat} {v : Byte} {m : List Host.Cell} (hb : b < a) (h : Memory.above b m) :
    Memory.above b (Memory.write m a v) := by
  induction m with
  | nil => exact Memory.above_consIf hb h
  | cons c m ih =>
    have hm : Memory.above b m := fun d hd => h d (by simp [hd])
    simp only [Memory.write]
    split
    · exact Memory.above_consIf hb h
    · split
      · exact Memory.above_consIf hb hm
      · simpa [Memory.above, h c (by simp)] using ih hm

/-- Every address above the head stays above it, and so does a lower one. -/
theorem Memory.above_of_lt {a : Nat} {c : Host.Cell} {m : List Host.Cell} (h : a < c.1) (hm : Memory.above c.1 m) :
    Memory.above a (c :: m) := by
  intro d hd
  rcases List.mem_cons.1 hd with rfl | hd
  · exact h
  · exact h.trans (hm d hd)

/-- A write keeps the canonical form. -/
theorem Memory.write_wf {a : Nat} {v : Byte} {m : List Host.Cell} (h : Memory.wf m) :
    Memory.wf (Memory.write m a v) := by
  induction m with
  | nil => exact Memory.wf_consIf (by simp [Memory.above]) h
  | cons c m ih =>
    obtain ⟨hc, hv, hm⟩ := Memory.wf_cons.1 h
    simp only [Memory.write]
    split
    · exact Memory.wf_consIf (Memory.above_of_lt ‹_› hc) h
    · split
      · subst_vars; exact Memory.wf_consIf hc hm
      · exact Memory.wf_cons.2 ⟨Memory.above_write (by omega) hc, hv, ih hm⟩

/-- A read after a write, in a canonical memory: the byte written at its address, the old byte elsewhere. -/
theorem Memory.read_write {a b : Nat} {v : Byte} {m : List Host.Cell} (h : Memory.wf m) :
    Memory.read (Memory.write m a v) b = if b = a then v else Memory.read m b := by
  induction m with
  | nil => exact Memory.read_consIf (by simp [Memory.above])
  | cons c m ih =>
    obtain ⟨hc, -, hm⟩ := Memory.wf_cons.1 h
    simp only [Memory.write]
    split
    · exact Memory.read_consIf (Memory.above_of_lt ‹_› hc)
    · split
      · subst_vars
        rw [Memory.read_consIf hc]
        simp only [Memory.read]
        split
        · rfl
        · rw [if_neg (by omega)]
      · simp only [Memory.read, ih hm]
        split
        · rw [if_neg (by omega)]
        · rfl

end Sys2Proof.Machine
end

