-- ==== Sys2Proof/Laws/State.lean ====
section
/-!
SUPPORT. One lemma per field per update of State, true by rfl, so that no proof unfolds a record update.
-/

namespace Sys2Proof.Machine

variable (s : State)

/-! ### setBus -/

@[simp] theorem setBus_params (i : Nat) (b : Bus) : (s.setBus i b).params = s.params := rfl
@[simp] theorem setBus_buses (i : Nat) (b : Bus) : (s.setBus i b).buses = s.buses.set i b := rfl
@[simp] theorem setBus_mem (i : Nat) (b : Bus) : (s.setBus i b).mem = s.mem := rfl
@[simp] theorem setBus_layout (i : Nat) (b : Bus) : (s.setBus i b).layout = s.layout := rfl
@[simp] theorem setBus_txns (i : Nat) (b : Bus) : (s.setBus i b).txns = s.txns := rfl
@[simp] theorem setBus_requests (i : Nat) (b : Bus) : (s.setBus i b).requests = s.requests := rfl
@[simp] theorem setBus_returns (i : Nat) (b : Bus) : (s.setBus i b).returns = s.returns := rfl
@[simp] theorem setBus_blocked (i : Nat) (b : Bus) : (s.setBus i b).blocked = s.blocked := rfl
@[simp] theorem setBus_refusal (i : Nat) (b : Bus) : (s.setBus i b).refusal = s.refusal := rfl
@[simp] theorem setBus_noBusHist (i : Nat) (b : Bus) : (s.setBus i b).noBusHist = s.noBusHist := rfl
@[simp] theorem setBus_desc (i : Nat) (b : Bus) : (s.setBus i b).desc = s.desc := rfl
@[simp] theorem setBus_cur (i : Nat) (b : Bus) : (s.setBus i b).cur = s.cur := rfl
@[simp] theorem setBus_sched (i : Nat) (b : Bus) : (s.setBus i b).sched = s.sched := rfl
@[simp] theorem setBus_turns (i : Nat) (b : Bus) : (s.setBus i b).turns = s.turns := rfl

/-! ### putTxn -/

@[simp] theorem putTxn_params (x : Txn) : (s.putTxn x).params = s.params := rfl
@[simp] theorem putTxn_buses (x : Txn) : (s.putTxn x).buses = s.buses := rfl
@[simp] theorem putTxn_mem (x : Txn) : (s.putTxn x).mem = s.mem := rfl
@[simp] theorem putTxn_layout (x : Txn) : (s.putTxn x).layout = s.layout := rfl
@[simp] theorem putTxn_txns (x : Txn) : (s.putTxn x).txns = s.txns.map fun y => if y.thread = x.thread then x else y := rfl
@[simp] theorem putTxn_requests (x : Txn) : (s.putTxn x).requests = s.requests := rfl
@[simp] theorem putTxn_returns (x : Txn) : (s.putTxn x).returns = s.returns := rfl
@[simp] theorem putTxn_blocked (x : Txn) : (s.putTxn x).blocked = s.blocked := rfl
@[simp] theorem putTxn_refusal (x : Txn) : (s.putTxn x).refusal = s.refusal := rfl
@[simp] theorem putTxn_noBusHist (x : Txn) : (s.putTxn x).noBusHist = s.noBusHist := rfl
@[simp] theorem putTxn_desc (x : Txn) : (s.putTxn x).desc = s.desc := rfl
@[simp] theorem putTxn_cur (x : Txn) : (s.putTxn x).cur = s.cur := rfl
@[simp] theorem putTxn_sched (x : Txn) : (s.putTxn x).sched = s.sched := rfl
@[simp] theorem putTxn_turns (x : Txn) : (s.putTxn x).turns = s.turns := rfl

/-! ### addTxn -/

@[simp] theorem addTxn_params (x : Txn) : (s.addTxn x).params = s.params := rfl
@[simp] theorem addTxn_buses (x : Txn) : (s.addTxn x).buses = s.buses := rfl
@[simp] theorem addTxn_mem (x : Txn) : (s.addTxn x).mem = s.mem := rfl
@[simp] theorem addTxn_layout (x : Txn) : (s.addTxn x).layout = s.layout := rfl
@[simp] theorem addTxn_txns (x : Txn) : (s.addTxn x).txns = x :: s.txns.filter fun y => y.thread != x.thread := rfl
@[simp] theorem addTxn_requests (x : Txn) : (s.addTxn x).requests = s.requests := rfl
@[simp] theorem addTxn_returns (x : Txn) : (s.addTxn x).returns = s.returns := rfl
@[simp] theorem addTxn_blocked (x : Txn) : (s.addTxn x).blocked = s.blocked := rfl
@[simp] theorem addTxn_refusal (x : Txn) : (s.addTxn x).refusal = s.refusal := rfl
@[simp] theorem addTxn_noBusHist (x : Txn) : (s.addTxn x).noBusHist = s.noBusHist := rfl
@[simp] theorem addTxn_desc (x : Txn) : (s.addTxn x).desc = s.desc := rfl
@[simp] theorem addTxn_cur (x : Txn) : (s.addTxn x).cur = s.cur := rfl
@[simp] theorem addTxn_sched (x : Txn) : (s.addTxn x).sched = s.sched := rfl
@[simp] theorem addTxn_turns (x : Txn) : (s.addTxn x).turns = s.turns := rfl

/-! ### dropTxn -/

@[simp] theorem dropTxn_params (t : Nat) : (s.dropTxn t).params = s.params := rfl
@[simp] theorem dropTxn_buses (t : Nat) : (s.dropTxn t).buses = s.buses := rfl
@[simp] theorem dropTxn_mem (t : Nat) : (s.dropTxn t).mem = s.mem := rfl
@[simp] theorem dropTxn_layout (t : Nat) : (s.dropTxn t).layout = s.layout := rfl
@[simp] theorem dropTxn_txns (t : Nat) : (s.dropTxn t).txns = s.txns.filter fun y => y.thread != t := rfl
@[simp] theorem dropTxn_requests (t : Nat) : (s.dropTxn t).requests = s.requests := rfl
@[simp] theorem dropTxn_returns (t : Nat) : (s.dropTxn t).returns = s.returns := rfl
@[simp] theorem dropTxn_blocked (t : Nat) : (s.dropTxn t).blocked = s.blocked := rfl
@[simp] theorem dropTxn_refusal (t : Nat) : (s.dropTxn t).refusal = s.refusal := rfl
@[simp] theorem dropTxn_noBusHist (t : Nat) : (s.dropTxn t).noBusHist = s.noBusHist := rfl
@[simp] theorem dropTxn_desc (t : Nat) : (s.dropTxn t).desc = s.desc := rfl
@[simp] theorem dropTxn_cur (t : Nat) : (s.dropTxn t).cur = s.cur := rfl
@[simp] theorem dropTxn_sched (t : Nat) : (s.dropTxn t).sched = s.sched := rfl
@[simp] theorem dropTxn_turns (t : Nat) : (s.dropTxn t).turns = s.turns := rfl

/-! ### advance -/

@[simp] theorem advance_params (x : Txn) : (s.advance x).params = s.params := rfl
@[simp] theorem advance_buses (x : Txn) : (s.advance x).buses = s.buses := rfl
@[simp] theorem advance_mem (x : Txn) : (s.advance x).mem = s.mem := rfl
@[simp] theorem advance_layout (x : Txn) : (s.advance x).layout = s.layout := rfl
@[simp] theorem advance_txns (x : Txn) : (s.advance x).txns = s.txns.map fun y => if y.thread = x.thread then { x with upc := x.upc + 1 } else y := rfl
@[simp] theorem advance_requests (x : Txn) : (s.advance x).requests = s.requests := rfl
@[simp] theorem advance_returns (x : Txn) : (s.advance x).returns = s.returns := rfl
@[simp] theorem advance_blocked (x : Txn) : (s.advance x).blocked = s.blocked := rfl
@[simp] theorem advance_refusal (x : Txn) : (s.advance x).refusal = s.refusal := rfl
@[simp] theorem advance_noBusHist (x : Txn) : (s.advance x).noBusHist = s.noBusHist := rfl
@[simp] theorem advance_desc (x : Txn) : (s.advance x).desc = s.desc := rfl
@[simp] theorem advance_cur (x : Txn) : (s.advance x).cur = s.cur := rfl
@[simp] theorem advance_sched (x : Txn) : (s.advance x).sched = s.sched := rfl
@[simp] theorem advance_turns (x : Txn) : (s.advance x).turns = s.turns := rfl

/-! ### block -/

@[simp] theorem block_params (t : Nat) : (s.block t).params = s.params := rfl
@[simp] theorem block_buses (t : Nat) : (s.block t).buses = s.buses := rfl
@[simp] theorem block_mem (t : Nat) : (s.block t).mem = s.mem := rfl
@[simp] theorem block_layout (t : Nat) : (s.block t).layout = s.layout := rfl
@[simp] theorem block_txns (t : Nat) : (s.block t).txns = s.txns := rfl
@[simp] theorem block_requests (t : Nat) : (s.block t).requests = s.requests := rfl
@[simp] theorem block_returns (t : Nat) : (s.block t).returns = s.returns := rfl
@[simp] theorem block_blocked (t : Nat) : (s.block t).blocked = if t ∈ s.blocked then s.blocked else t :: s.blocked := rfl
@[simp] theorem block_refusal (t : Nat) : (s.block t).refusal = s.refusal := rfl
@[simp] theorem block_noBusHist (t : Nat) : (s.block t).noBusHist = s.noBusHist := rfl
@[simp] theorem block_desc (t : Nat) : (s.block t).desc = s.desc := rfl
@[simp] theorem block_cur (t : Nat) : (s.block t).cur = s.cur := rfl
@[simp] theorem block_sched (t : Nat) : (s.block t).sched = s.sched := rfl
@[simp] theorem block_turns (t : Nat) : (s.block t).turns = s.turns := rfl

/-! ### refuse -/

@[simp] theorem refuse_params (r : RefuseReason) : (s.refuse r).params = s.params := rfl
@[simp] theorem refuse_buses (r : RefuseReason) : (s.refuse r).buses = s.buses := rfl
@[simp] theorem refuse_mem (r : RefuseReason) : (s.refuse r).mem = s.mem := rfl
@[simp] theorem refuse_layout (r : RefuseReason) : (s.refuse r).layout = s.layout := rfl
@[simp] theorem refuse_txns (r : RefuseReason) : (s.refuse r).txns = s.txns := rfl
@[simp] theorem refuse_requests (r : RefuseReason) : (s.refuse r).requests = s.requests := rfl
@[simp] theorem refuse_returns (r : RefuseReason) : (s.refuse r).returns = s.returns := rfl
@[simp] theorem refuse_blocked (r : RefuseReason) : (s.refuse r).blocked = if s.cur ∈ s.blocked then s.blocked else s.cur :: s.blocked := rfl
@[simp] theorem refuse_refusal (r : RefuseReason) : (s.refuse r).refusal = some (s.refusal.getD r) := rfl
@[simp] theorem refuse_noBusHist (r : RefuseReason) : (s.refuse r).noBusHist = s.noBusHist := rfl
@[simp] theorem refuse_desc (r : RefuseReason) : (s.refuse r).desc = s.desc := rfl
@[simp] theorem refuse_cur (r : RefuseReason) : (s.refuse r).cur = s.cur := rfl
@[simp] theorem refuse_sched (r : RefuseReason) : (s.refuse r).sched = s.sched := rfl
@[simp] theorem refuse_turns (r : RefuseReason) : (s.refuse r).turns = s.turns := rfl

/-! ### raiseNoBus -/

@[simp] theorem raiseNoBus_params (t : Nat) (r : FaultReason) : (s.raiseNoBus t r).params = s.params := rfl
@[simp] theorem raiseNoBus_buses (t : Nat) (r : FaultReason) : (s.raiseNoBus t r).buses = s.buses := rfl
@[simp] theorem raiseNoBus_mem (t : Nat) (r : FaultReason) : (s.raiseNoBus t r).mem = s.mem := rfl
@[simp] theorem raiseNoBus_layout (t : Nat) (r : FaultReason) : (s.raiseNoBus t r).layout = s.layout := rfl
@[simp] theorem raiseNoBus_txns (t : Nat) (r : FaultReason) : (s.raiseNoBus t r).txns = s.txns := rfl
@[simp] theorem raiseNoBus_requests (t : Nat) (r : FaultReason) : (s.raiseNoBus t r).requests = s.requests := rfl
@[simp] theorem raiseNoBus_returns (t : Nat) (r : FaultReason) : (s.raiseNoBus t r).returns = s.returns := rfl
@[simp] theorem raiseNoBus_blocked (t : Nat) (r : FaultReason) : (s.raiseNoBus t r).blocked = if t ∈ s.blocked then s.blocked else t :: s.blocked := rfl
@[simp] theorem raiseNoBus_refusal (t : Nat) (r : FaultReason) : (s.raiseNoBus t r).refusal = s.refusal := rfl
@[simp] theorem raiseNoBus_noBusHist (t : Nat) (r : FaultReason) : (s.raiseNoBus t r).noBusHist = s.noBusHist ++ [{ thread := t, event := .fault r }] := rfl
@[simp] theorem raiseNoBus_desc (t : Nat) (r : FaultReason) : (s.raiseNoBus t r).desc = s.desc := rfl
@[simp] theorem raiseNoBus_cur (t : Nat) (r : FaultReason) : (s.raiseNoBus t r).cur = s.cur := rfl
@[simp] theorem raiseNoBus_sched (t : Nat) (r : FaultReason) : (s.raiseNoBus t r).sched = s.sched := rfl
@[simp] theorem raiseNoBus_turns (t : Nat) (r : FaultReason) : (s.raiseNoBus t r).turns = s.turns := rfl

/-! ### ret -/

@[simp] theorem ret_params (k : Option Nat) (a : Answer) : (s.ret k a).params = s.params := rfl
@[simp] theorem ret_buses (k : Option Nat) (a : Answer) : (s.ret k a).buses = s.buses := rfl
@[simp] theorem ret_mem (k : Option Nat) (a : Answer) : (s.ret k a).mem = s.mem := rfl
@[simp] theorem ret_layout (k : Option Nat) (a : Answer) : (s.ret k a).layout = s.layout := rfl
@[simp] theorem ret_txns (k : Option Nat) (a : Answer) : (s.ret k a).txns = s.txns := rfl
@[simp] theorem ret_requests (k : Option Nat) (a : Answer) : (s.ret k a).requests = s.requests := rfl
@[simp] theorem ret_returns (k : Option Nat) (a : Answer) : (s.ret k a).returns = s.returns ++ [{ thread := s.cur, bus := k, answer := a }] := rfl
@[simp] theorem ret_blocked (k : Option Nat) (a : Answer) : (s.ret k a).blocked = s.blocked := rfl
@[simp] theorem ret_refusal (k : Option Nat) (a : Answer) : (s.ret k a).refusal = s.refusal := rfl
@[simp] theorem ret_noBusHist (k : Option Nat) (a : Answer) : (s.ret k a).noBusHist = s.noBusHist := rfl
@[simp] theorem ret_desc (k : Option Nat) (a : Answer) : (s.ret k a).desc = s.desc := rfl
@[simp] theorem ret_cur (k : Option Nat) (a : Answer) : (s.ret k a).cur = s.cur := rfl
@[simp] theorem ret_sched (k : Option Nat) (a : Answer) : (s.ret k a).sched = s.sched := rfl
@[simp] theorem ret_turns (k : Option Nat) (a : Answer) : (s.ret k a).turns = s.turns := rfl

/-! ### writeByte -/

@[simp] theorem writeByte_params (a : Nat) (v : Byte) : (s.writeByte a v).params = s.params := rfl
@[simp] theorem writeByte_buses (a : Nat) (v : Byte) : (s.writeByte a v).buses = s.buses := rfl
@[simp] theorem writeByte_mem (a : Nat) (v : Byte) : (s.writeByte a v).mem = Memory.write s.mem a v := rfl
@[simp] theorem writeByte_layout (a : Nat) (v : Byte) : (s.writeByte a v).layout = s.layout := rfl
@[simp] theorem writeByte_txns (a : Nat) (v : Byte) : (s.writeByte a v).txns = s.txns := rfl
@[simp] theorem writeByte_requests (a : Nat) (v : Byte) : (s.writeByte a v).requests = s.requests := rfl
@[simp] theorem writeByte_returns (a : Nat) (v : Byte) : (s.writeByte a v).returns = s.returns := rfl
@[simp] theorem writeByte_blocked (a : Nat) (v : Byte) : (s.writeByte a v).blocked = s.blocked := rfl
@[simp] theorem writeByte_refusal (a : Nat) (v : Byte) : (s.writeByte a v).refusal = s.refusal := rfl
@[simp] theorem writeByte_noBusHist (a : Nat) (v : Byte) : (s.writeByte a v).noBusHist = s.noBusHist := rfl
@[simp] theorem writeByte_desc (a : Nat) (v : Byte) : (s.writeByte a v).desc = s.desc := rfl
@[simp] theorem writeByte_cur (a : Nat) (v : Byte) : (s.writeByte a v).cur = s.cur := rfl
@[simp] theorem writeByte_sched (a : Nat) (v : Byte) : (s.writeByte a v).sched = s.sched := rfl
@[simp] theorem writeByte_turns (a : Nat) (v : Byte) : (s.writeByte a v).turns = s.turns := rfl

/-! ### turn -/

@[simp] theorem turn_params : (s.turn).params = s.params := rfl
@[simp] theorem turn_buses : (s.turn).buses = s.buses := rfl
@[simp] theorem turn_mem : (s.turn).mem = s.mem := rfl
@[simp] theorem turn_layout : (s.turn).layout = s.layout := rfl
@[simp] theorem turn_txns : (s.turn).txns = s.txns := rfl
@[simp] theorem turn_requests : (s.turn).requests = s.requests := rfl
@[simp] theorem turn_returns : (s.turn).returns = s.returns := rfl
@[simp] theorem turn_blocked : (s.turn).blocked = s.blocked := rfl
@[simp] theorem turn_refusal : (s.turn).refusal = s.refusal := rfl
@[simp] theorem turn_noBusHist : (s.turn).noBusHist = s.noBusHist := rfl
@[simp] theorem turn_desc : (s.turn).desc = s.desc := rfl
@[simp] theorem turn_cur : (s.turn).cur = s.nextThread := rfl
@[simp] theorem turn_sched : (s.turn).sched = s.sched.tail := rfl
@[simp] theorem turn_turns : (s.turn).turns = s.turns + 1 := rfl

/-! ### takeRequest -/

@[simp] theorem takeRequest_params : (s.takeRequest).params = s.params := rfl
@[simp] theorem takeRequest_buses : (s.takeRequest).buses = s.buses := rfl
@[simp] theorem takeRequest_mem : (s.takeRequest).mem = s.mem := rfl
@[simp] theorem takeRequest_layout : (s.takeRequest).layout = s.layout := rfl
@[simp] theorem takeRequest_txns : (s.takeRequest).txns = s.txns := rfl
@[simp] theorem takeRequest_requests : (s.takeRequest).requests = dropRequest s.cur s.requests := rfl
@[simp] theorem takeRequest_returns : (s.takeRequest).returns = s.returns := rfl
@[simp] theorem takeRequest_blocked : (s.takeRequest).blocked = s.blocked := rfl
@[simp] theorem takeRequest_refusal : (s.takeRequest).refusal = s.refusal := rfl
@[simp] theorem takeRequest_noBusHist : (s.takeRequest).noBusHist = s.noBusHist := rfl
@[simp] theorem takeRequest_desc : (s.takeRequest).desc = s.desc := rfl
@[simp] theorem takeRequest_cur : (s.takeRequest).cur = s.cur := rfl
@[simp] theorem takeRequest_sched : (s.takeRequest).sched = s.sched := rfl
@[simp] theorem takeRequest_turns : (s.takeRequest).turns = s.turns := rfl

/-! ### takeDescriptor -/

@[simp] theorem takeDescriptor_params (d : Descriptor) : (s.takeDescriptor d).params = s.params := rfl
@[simp] theorem takeDescriptor_buses (d : Descriptor) : (s.takeDescriptor d).buses = s.buses := rfl
@[simp] theorem takeDescriptor_mem (d : Descriptor) : (s.takeDescriptor d).mem = s.mem := rfl
@[simp] theorem takeDescriptor_layout (d : Descriptor) : (s.takeDescriptor d).layout = s.layout := rfl
@[simp] theorem takeDescriptor_txns (d : Descriptor) : (s.takeDescriptor d).txns = s.txns := rfl
@[simp] theorem takeDescriptor_requests (d : Descriptor) : (s.takeDescriptor d).requests = dropRequest s.cur s.requests := rfl
@[simp] theorem takeDescriptor_returns (d : Descriptor) : (s.takeDescriptor d).returns = s.returns := rfl
@[simp] theorem takeDescriptor_blocked (d : Descriptor) : (s.takeDescriptor d).blocked = s.blocked := rfl
@[simp] theorem takeDescriptor_refusal (d : Descriptor) : (s.takeDescriptor d).refusal = s.refusal := rfl
@[simp] theorem takeDescriptor_noBusHist (d : Descriptor) : (s.takeDescriptor d).noBusHist = s.noBusHist := rfl
@[simp] theorem takeDescriptor_desc (d : Descriptor) : (s.takeDescriptor d).desc = d := rfl
@[simp] theorem takeDescriptor_cur (d : Descriptor) : (s.takeDescriptor d).cur = s.cur := rfl
@[simp] theorem takeDescriptor_sched (d : Descriptor) : (s.takeDescriptor d).sched = s.sched := rfl
@[simp] theorem takeDescriptor_turns (d : Descriptor) : (s.takeDescriptor d).turns = s.turns := rfl

end Sys2Proof.Machine
end

