-- ==== Sys2Proof/Laws/Ops.lean ====
section
/-!
SUPPORT. What the shared operations over the whole state do, one lemma per operation.
-/

namespace Sys2Proof.Machine

/-- A thread's command in flight is listed under that thread. -/
theorem txnOf_some {s : State} {t : Nat} {x : Txn} (h : s.txnOf t = some x) : x.thread = t ∧ x ∈ s.txns := by
  unfold State.txnOf at h
  exact ⟨by simpa using List.find?_some h, List.mem_of_find?_eq_some h⟩

theorem InFlight.thread {s : State} {x : Txn} {b : Bus} (h : InFlight s x b) : x.thread = s.cur := (txnOf_some h.1).1

/-- With a command in flight on an unfaulted instance, a micro-op's meaning runs and answers a next state. -/
theorem withCommand_inFlight {s : State} {x : Txn} {b : Bus} (h : InFlight s x b) (f : Txn → Bus → State) :
    s.withCommand f = .next (f x b) := by
  obtain ⟨h1, h2, h3⟩ := h
  simp [State.withCommand, h1, h2, h3]

/-- Everything withCommand can answer: a fault, the state unchanged on a faulted instance, or the meaning's state. -/
theorem withCommand_cases {s s' : State} {f : Txn → Bus → State} (h : s.withCommand f = .next s') :
    ∃ x b, s.txnOf s.cur = some x ∧ s.buses[x.bus]? = some b ∧
      ((b.fault ≠ none ∧ s' = s) ∨ (b.fault = none ∧ s' = f x b)) := by
  unfold State.withCommand at h
  split at h
  · cases h
  · rename_i x hx
    split at h
    · cases h
    · rename_i b hb
      refine ⟨x, b, hx, hb, ?_⟩
      cases hf : b.fault with
      | none => right; simp_all
      | some r => left; simp_all

theorem setBus_advance (s : State) (x : Txn) (b' : Bus) :
    (s.setBus x.bus b').advance x = s.afterMicroOp x b' { x with upc := x.upc + 1 } := rfl

theorem setBus_advance_withAck (s : State) (x : Txn) (b' : Bus) (ack : Bool) :
    (s.setBus x.bus b').advance (x.withAck ack) =
      s.afterMicroOp x b' { x with upc := x.upc + 1, ack := ack, fail := x.fail || !ack } := rfl

/-- A micro-op that only acts on its instance. -/
theorem busMicroOp_inFlight {s : State} {x : Txn} {b : Bus} (h : InFlight s x b) (f : Txn → Bus → Bus) :
    s.busMicroOp f = .next (s.afterMicroOp x (f x b) { x with upc := x.upc + 1 }) := by
  rw [State.busMicroOp, withCommand_inFlight h, setBus_advance]

/-- onBus acts on an instance that exists and is not faulted. -/
theorem onBus_unfaulted {s : State} {i : Nat} {b : Bus} (h : s.buses[i]? = some b) (hf : b.fault = none)
    (f : Bus → Bus) : s.onBus i f = s.setBus i (f b) := by
  simp [State.onBus, h, hf]

theorem onBus_cases (s : State) (i : Nat) (f : Bus → Bus) :
    (s.onBus i f = s ∧ ∀ b, s.buses[i]? = some b → b.fault ≠ none) ∨
      ∃ b, s.buses[i]? = some b ∧ b.fault = none ∧ s.onBus i f = s.setBus i (f b) := by
  cases hb : s.buses[i]? with
  | none => left; simp [State.onBus, hb]
  | some b =>
    cases hf : b.fault with
    | none => right; exact ⟨b, rfl, hf, onBus_unfaulted hb hf f⟩
    | some r => left; simp [State.onBus, hb, hf]

/-- raise on an instance that is not faulted puts it into the faulted state and stops the thread (R109). -/
theorem raise_unfaulted {s : State} {i : Nat} {b : Bus} (h : s.buses[i]? = some b) (hf : b.fault = none) (t : Nat)
    (r : FaultReason) : s.raise i t r = s.withFault i b t r := by
  rw [State.raise, onBus_unfaulted h hf, emit_eq]
  rfl

theorem mem_stopped {s : State} {t u : Nat} (h : u ∈ s.blocked) : u ∈ (s.stopped t).blocked := by
  unfold State.stopped
  dsimp only
  split <;> simp [h]

/-- raise changes nothing but the blocked threads and, if it is not faulted yet, the named instance (R32, R109). -/
theorem raise_cases (s : State) (i t : Nat) (r : FaultReason) :
    (s.raise i t r = s.stopped t ∧ ∀ b, s.buses[i]? = some b → b.fault ≠ none) ∨
      ∃ b, s.buses[i]? = some b ∧ b.fault = none ∧ s.raise i t r = s.withFault i b t r := by
  rcases onBus_cases s i (fun b => b.emit t (.fault r)) with ⟨h, hn⟩ | ⟨b, hb, hf, -⟩
  · left; exact ⟨by rw [State.raise, h]; rfl, hn⟩
  · right; exact ⟨b, hb, hf, raise_unfaulted hb hf t r⟩

/-- An access that breaks R49 although it only reads does so if it writes. -/
theorem races_of_read {a : Nat} {y : Txn} (w : Bool) (h : y.races false a = true) : y.races w a = true := by
  simp_all [Txn.races]

theorem noteTouch_eq_of_not_races {t a : Nat} {w : Bool} {y : Txn} (h : y.thread ≠ t → y.races w a = false) :
    y.noteTouch t w a = y := by
  unfold Txn.noteTouch
  split
  · rename_i hc; simp [h hc.1] at hc
  · rfl

/-- noteTouch changes nothing but the log of touched addresses. -/
theorem noteTouch_raced (t : Nat) (w : Bool) (a : Nat) (y : Txn) :
    y.noteTouch t w a = { y with raced := (y.noteTouch t w a).raced } := by
  unfold Txn.noteTouch
  split <;> rfl

theorem noteTouch_own {t a : Nat} {w : Bool} {y : Txn} (h : y.thread = t) : y.noteTouch t w a = y := by
  simp [Txn.noteTouch, h]

/-- An access that breaks R49 for no other command touches nothing. -/
theorem touch_of_quiet {s : State} {t a : Nat} {w : Bool} (h : s.quiet t w a) : s.touch t w a = s := by
  have hn : s.txns.map (Txn.noteTouch t w a) = s.txns := by
    conv_rhs => rw [← List.map_id s.txns]
    exact List.map_congr_left fun y hy => noteTouch_eq_of_not_races (h y hy)
  have hf : s.txns.filter (Txn.racesNow t a) = [] := by
    rw [List.filter_eq_nil_iff]
    intro y hy
    by_cases hy' : y.thread = t
    · simp [Txn.racesNow, hy']
    · have hr : y.races false a = false := by
        cases hr : y.races false a with
        | false => rfl
        | true => exact absurd (races_of_read w hr) (by simp [h y hy hy'])
      simp [Txn.racesNow, hr]
  simp [State.touch, hn, hf]

/-- What raising BUF_RACE for a list of commands can do: instances become faulted, threads stop, nothing else. -/
theorem raiseAll_spec (ys : List Txn) (s : State) :
    let s' := ys.foldl (fun s y => s.raise y.bus y.thread .bufRace) s
    s' = { s with buses := s'.buses, blocked := s'.blocked } ∧
    (∀ i, s'.buses[i]? = s.buses[i]? ∨
      ∃ b y, y ∈ ys ∧ y.bus = i ∧ s.buses[i]? = some b ∧ b.fault = none ∧
        s'.buses[i]? = some (b.faulted y.thread .bufRace)) ∧
    (∀ y ∈ ys, ∀ b, s.buses[y.bus]? = some b → b.fault = none → ∃ b', s'.buses[y.bus]? = some b' ∧
      b'.fault = some .bufRace) ∧
    (∀ t ∈ s.blocked, t ∈ s'.blocked) := by
  induction ys generalizing s with
  | nil => exact ⟨rfl, fun i => .inl rfl, by simp, fun t h => h⟩
  | cons y ys ih =>
    obtain ⟨h1, h2, h3, h4⟩ := ih (s.raise y.bus y.thread .bufRace)
    simp only [List.foldl_cons]
    set s'' := ys.foldl (fun s y => s.raise y.bus y.thread .bufRace) (s.raise y.bus y.thread .bufRace) with hs''
    rcases raise_cases s y.bus y.thread .bufRace with ⟨hr, hn⟩ | ⟨b, hb, hf, hr⟩
    · rw [hr] at h1 h2 h3 h4
      refine ⟨?_, ?_, ?_, ?_⟩
      · rw [h1]; rfl
      · intro i
        rcases h2 i with h | ⟨b, z, hz, hi, hb, hf, h⟩
        · exact .inl h
        · exact .inr ⟨b, z, by simp [hz], hi, hb, hf, h⟩
      · intro z hz b hb hf
        rcases List.mem_cons.1 hz with rfl | hz
        · exact absurd hf (hn b hb)
        · exact h3 z hz b hb hf
      · intro t ht
        exact h4 t (mem_stopped ht)
    · have hlt := (List.getElem?_eq_some_iff.1 hb).1
      rw [hr] at h1 h2 h3 h4
      have hbus : (s.withFault y.bus b y.thread .bufRace).buses =
          s.buses.set y.bus (b.faulted y.thread .bufRace) := rfl
      refine ⟨?_, ?_, ?_, ?_⟩
      · rw [h1]; rfl
      · intro i
        by_cases hi : y.bus = i
        · subst hi
          rcases h2 y.bus with h | ⟨b', z, hz, hi', hb', hf', h⟩
          · exact .inr ⟨b, y, by simp, rfl, hb, hf, by rw [h, hbus]; simp [hlt]⟩
          · rw [hbus, List.getElem?_set_self hlt] at hb'
            cases hb'
            simp [Bus.faulted] at hf'
        · rcases h2 i with h | ⟨b', z, hz, hi', hb', hf', h⟩
          · left; rw [h, hbus, List.getElem?_set_ne hi]
          · rw [hbus, List.getElem?_set_ne hi] at hb'
            exact .inr ⟨b', z, by simp [hz], hi', hb', hf', h⟩
      · intro z hz b' hb' hf'
        by_cases hi : y.bus = z.bus
        · rcases h2 z.bus with h | ⟨b'', w, -, -, hb'', hf'', h⟩
          · exact ⟨b.faulted y.thread .bufRace, by rw [h, hbus, hi]; simp [hi ▸ hlt], rfl⟩
          · exact ⟨_, h, rfl⟩
        · rcases List.mem_cons.1 hz with rfl | hz
          · exact absurd rfl hi
          · exact h3 z hz b' (by rw [hbus, List.getElem?_set_ne hi]; exact hb') hf'
      · intro t ht
        exact h4 t (mem_stopped (s := s.withBusOnly y.bus (b.faulted y.thread .bufRace)) ht)

/-- Everything an access can do to other commands and their instances (R49): commands get the address logged, instances
become faulted with BUF_RACE, threads stop; nothing else changes. -/
theorem touch_spec (s : State) (t : Nat) (w : Bool) (a : Nat) :
    s.touch t w a =
      { s with
        txns := s.txns.map (Txn.noteTouch t w a)
        buses := (s.touch t w a).buses
        blocked := (s.touch t w a).blocked } ∧
    (∀ i, (s.touch t w a).buses[i]? = s.buses[i]? ∨
      ∃ b y, y ∈ s.txns ∧ y.racesNow t a = true ∧ y.bus = i ∧ s.buses[i]? = some b ∧ b.fault = none ∧
        (s.touch t w a).buses[i]? = some (b.faulted y.thread .bufRace)) ∧
    (∀ y ∈ s.txns, y.racesNow t a = true → ∀ b, s.buses[y.bus]? = some b → b.fault = none →
      ∃ b', (s.touch t w a).buses[y.bus]? = some b' ∧ b'.fault = some .bufRace) ∧
    (∀ u ∈ s.blocked, u ∈ (s.touch t w a).blocked) := by
  obtain ⟨h1, h2, h3, h4⟩ := raiseAll_spec (s.txns.filter (Txn.racesNow t a))
    { s with txns := s.txns.map (Txn.noteTouch t w a) }
  refine ⟨h1, ?_, ?_, h4⟩
  · intro i
    rcases h2 i with h | ⟨b, y, hy, hi, hb, hf, h⟩
    · exact .inl h
    · rw [List.mem_filter] at hy
      exact .inr ⟨b, y, hy.1, hy.2, hi, hb, hf, h⟩
  · intro y hy hr b hb hf
    exact h3 y (List.mem_filter.2 ⟨hy, hr⟩) b hb hf

/-- Looking a command up after every command was changed in place, its thread kept. -/
theorem find_thread_map {l : List Txn} {t : Nat} {f : Txn → Txn} (hf : ∀ y ∈ l, (f y).thread = y.thread) :
    (l.map f).find? (fun x => x.thread == t) = (l.find? fun x => x.thread == t).map f := by
  induction l with
  | nil => rfl
  | cons y l ih =>
    have hy := hf y (by simp)
    have ih' := ih fun z hz => hf z (by simp [hz])
    simp only [List.map_cons, List.find?_cons, hy, ih']
    cases y.thread == t <;> rfl

/-- The command of x's thread after x' was put in its place. -/
theorem txnOf_put {s : State} {t : Nat} {x x' : Txn} (ht : x'.thread = x.thread) (hx : s.txnOf x.thread ≠ none)
    (l : List Txn) (hl : l = s.txns.map fun y => if y.thread = x.thread then x' else y) :
    l.find? (fun y => y.thread == t) = if t = x.thread then some x' else s.txnOf t := by
  subst hl
  rw [find_thread_map]
  · unfold State.txnOf at hx ⊢
    by_cases h : t = x.thread
    · subst h
      obtain ⟨y, hy⟩ := Option.ne_none_iff_exists'.1 hx
      have : y.thread = x.thread := by simpa using List.find?_some hy
      simp [hy, this]
    · simp only [h, if_false]
      cases hy : s.txns.find? (fun y => y.thread == t) with
      | none => rfl
      | some y =>
        have : y.thread = t := by simpa using List.find?_some hy
        have : y.thread ≠ x.thread := by omega
        simp [this]
  · intro y _
    split <;> simp_all

/-- raise on an instance that was just replaced by an unfaulted one. -/
theorem raise_setBus {s : State} {i : Nat} {b : Bus} (h : i < s.buses.length) (hf : b.fault = none) (t : Nat)
    (r : FaultReason) : (s.setBus i b).raise i t r = s.withFault i b t r := by
  rw [raise_unfaulted (by rw [setBus_buses, List.getElem?_set_self h]) hf]
  simp only [State.withFault, State.withBusOnly, State.setBus, List.set_set]

/-- raise changes only instances and the blocked threads. -/
theorem raise_frame (s : State) (i t : Nat) (r : FaultReason) :
    s.raise i t r = { s with buses := (s.raise i t r).buses, blocked := (s.raise i t r).blocked } := by
  rcases raise_cases s i t r with ⟨h, -⟩ | ⟨b, -, -, h⟩ <;> rw [h] <;> rfl

/-- Without a fault of its own instance, the rest of a micro-op runs; otherwise nothing happens. -/
theorem carryOn_cases (s : State) (x : Txn) (f : Bus → Bus) :
    s.carryOn x f = s ∨ ∃ b, s.buses[x.bus]? = some b ∧ b.fault = none ∧
      s.carryOn x f = s.afterMicroOp x (f b) { x with upc := x.upc + 1 } := by
  unfold State.carryOn
  split
  · exact .inl rfl
  · rename_i b hb
    split
    · exact .inl rfl
    · rename_i hf
      exact .inr ⟨b, hb, by simpa using hf, setBus_advance ..⟩

/-- A listed command is the one found under its thread, when threads have at most one each. -/
theorem txnOf_of_mem {s : State} (hn : (s.txns.map Txn.thread).Nodup) {x : Txn} (hx : x ∈ s.txns) :
    s.txnOf x.thread = some x := by
  unfold State.txnOf
  generalize s.txns = l at *
  induction l with
  | nil => simp at hx
  | cons y l ih =>
    simp only [List.map_cons, List.nodup_cons] at hn
    rcases List.mem_cons.1 hx with rfl | hx
    · simp
    · have : y.thread ≠ x.thread := fun h => hn.1 (by rw [h]; exact List.mem_map_of_mem hx)
      simp [this, ih hn.2 hx]

theorem txnOf_none {s : State} {t : Nat} (h : s.txnOf t = none) : ∀ y ∈ s.txns, y.thread ≠ t := by
  intro y hy
  unfold State.txnOf at h
  rw [List.find?_eq_none] at h
  simpa using h y hy

end Sys2Proof.Machine
end

