-- ==== Sys2Proof/Laws/PerInstr.lean ====
section
/-!
SUPPORT. What is said of every instruction as syntax, one lemma per constructor.
-/

namespace Sys2Proof.Laws.CodeInLowBits

/-- R57, R62: bits 3:0 of an instruction's word hold its code, and a micro-op's word has Z = 0, a command's RSV = 0. -/
def Statement (i : Instr) : Prop :=
  codeField (encode i) = i.code ∧
    match i.format with
    | .cmd => rsvField (encode i) = 0
    | .uop => zField (encode i) = 0

theorem init : Statement .init := ⟨codeField_cmdWord .., rsvField_cmdWord ..⟩
theorem deinit : Statement .deinit := ⟨codeField_cmdWord .., rsvField_cmdWord ..⟩
theorem probe (dev : BitVec 7) : Statement (.probe dev) := ⟨codeField_cmdWord .., rsvField_cmdWord ..⟩
theorem read8 (dev : BitVec 7) (reg : BitVec 8) : Statement (.read8 dev reg) :=
  ⟨codeField_cmdWord .., rsvField_cmdWord ..⟩
theorem read16 (dev : BitVec 7) (reg : BitVec 16) : Statement (.read16 dev reg) :=
  ⟨codeField_cmdWord .., rsvField_cmdWord ..⟩
theorem readna (dev : BitVec 7) : Statement (.readna dev) := ⟨codeField_cmdWord .., rsvField_cmdWord ..⟩
theorem write8 (dev : BitVec 7) (reg : BitVec 8) : Statement (.write8 dev reg) :=
  ⟨codeField_cmdWord .., rsvField_cmdWord ..⟩
theorem write16 (dev : BitVec 7) (reg : BitVec 16) : Statement (.write16 dev reg) :=
  ⟨codeField_cmdWord .., rsvField_cmdWord ..⟩
theorem idle : Statement .idle := ⟨codeField_uopWord .., zField_uopWord ..⟩
theorem start : Statement .start := ⟨codeField_uopWord .., zField_uopWord ..⟩
theorem stop : Statement .stop := ⟨codeField_uopWord .., zField_uopWord ..⟩
theorem txi (imm : BitVec 8) : Statement (.txi imm) := ⟨codeField_uopWord .., zField_uopWord ..⟩
theorem txm (i : BitVec 24) : Statement (.txm i) := ⟨codeField_uopWord .., zField_uopWord ..⟩
theorem ackchk : Statement .ackchk := ⟨codeField_uopWord .., zField_uopWord ..⟩
theorem rxm (i : BitVec 24) : Statement (.rxm i) := ⟨codeField_uopWord .., zField_uopWord ..⟩
theorem sendack : Statement .sendack := ⟨codeField_uopWord .., zField_uopWord ..⟩
theorem sendnack : Statement .sendnack := ⟨codeField_uopWord .., zField_uopWord ..⟩
theorem lock : Statement .lock := ⟨codeField_uopWord .., zField_uopWord ..⟩
theorem unlock : Statement .unlock := ⟨codeField_uopWord .., zField_uopWord ..⟩

end Sys2Proof.Laws.CodeInLowBits
end

