-- ==== Sys2Proof/Laws/Step.lean ====
section
/-!
SUPPORT. What a step can do, said once, and the run of several steps.
-/

namespace Sys2Proof.Machine

/-- A step that answers a next state is the first step of a longer run. -/
theorem run_next {s s' : State} {n : Nat} (h : step s = .next s') : core.run (n + 1) s = core.run n s' := by
  simp only [Host.Core.run]
  rw [show core.step s = .next s' from h]

/-- A turn of the command in flight x of the thread whose turn it is, on an unfaulted instance: the return, a micro-op,
or a refused word. -/
def MicroTurn (s s' : State) (x : Txn) : Prop :=
  (x.uprog[x.upc]? = none ∧ s' = s.finish x) ∨
    ∃ w, x.uprog[x.upc]? = some w ∧
      ((∃ i, decodeUop w = .ok i ∧ exec i s = .next s') ∨ ∃ r, decodeUop w = .error r ∧ s' = s.refuse r)

/-- A turn that takes the request a of the thread whose turn it is. -/
def RequestTurn (s s' : State) : HostAction → Prop
  | .issue d => d.wellFormed s.params = true ∧
      ((∃ i, decodeCmd d.word = .ok i ∧ exec i (s.takeDescriptor d) = .next s') ∨
        ∃ r, decodeCmd d.word = .error r ∧ s' = (s.takeDescriptor d).refuse r)
  | .construct tHalf p => s.construct tHalf p = .next s'
  | .load a => s.hostLoad a = .next s'
  | .store a v => s.hostStore a v = .next s'
  | .harness k c ws => s.openHarness k c ws = .next s'

/-- Every way a step can answer a next state: a hold, a turn of the thread's command in flight, or its next request. -/
theorem step_cases {s s' : State} (h : step s = .next s') :
    s' = s.turn ∨
    (∃ x, s.txnOf s.nextThread = some x ∧ s.nextThread ∉ s.blocked ∧ s.turn.busFaulted x.bus = false ∧
      MicroTurn s.turn s' x) ∨
    (s.txnOf s.nextThread = none ∧ s.nextThread ∉ s.blocked ∧
      ∃ a, s.requestOf s.nextThread = some a ∧ RequestTurn s.turn s' a) := by
  unfold step State.fetch at h
  by_cases hb : s.turn.cur ∈ s.turn.blocked
  · simp only [hb, if_true] at h
    cases h
    exact .inl rfl
  simp only [hb, if_false] at h
  cases hx : s.turn.txnOf s.turn.cur with
  | some x =>
    simp only [hx, State.fetchMicro] at h
    cases hf : s.turn.busFaulted x.bus with
    | true =>
      simp only [hf, if_true] at h
      cases h
      exact .inl rfl
    | false =>
      simp only [hf] at h
      cases hw : x.uprog[x.upc]? with
      | none =>
        simp only [hw] at h
        cases h
        exact .inr (.inl ⟨x, hx, hb, hf, .inl ⟨hw, rfl⟩⟩)
      | some w =>
        cases hh : s.turn.harnessWaits x with
        | true =>
          simp only [hw, hh, if_true] at h
          cases h
          exact .inl rfl
        | false =>
          refine .inr (.inl ⟨x, hx, hb, hf, .inr ⟨w, hw, ?_⟩⟩)
          simp only [hw, hh] at h
          cases hd : decodeUop w with
          | ok i =>
            simp only [hd] at h
            exact .inl ⟨i, rfl, h⟩
          | error r =>
            simp only [hd] at h
            cases h
            exact .inr ⟨r, rfl, rfl⟩
  | none =>
    simp only [hx] at h
    cases hr : s.turn.requestOf s.turn.cur with
    | none =>
      simp only [hr] at h
      cases h
      exact .inl rfl
    | some a =>
      simp only [hr] at h
      cases a with
      | construct | load | store | harness => exact .inr (.inr ⟨hx, hb, _, hr, h⟩)
      | issue d =>
        simp only [State.fetchCommand] at h
        cases hwf : d.wellFormed s.turn.params with
        | false =>
          simp only [hwf, if_true] at h
          cases h
        | true =>
          simp only [hwf] at h
          cases hd : decodeCmd d.word with
          | error r =>
            simp only [hd] at h
            cases h
            exact .inr (.inr ⟨hx, hb, _, hr, hwf, .inr ⟨r, hd, rfl⟩⟩)
          | ok i =>
            simp only [hd] at h
            have run (h : exec i (s.turn.takeDescriptor d) = .next s') :=
              (.inr (.inr ⟨hx, hb, _, hr, hwf, .inl ⟨i, hd, h⟩⟩) :
                s' = s.turn ∨ (∃ x, s.txnOf s.nextThread = some x ∧ s.nextThread ∉ s.blocked ∧
                  s.turn.busFaulted x.bus = false ∧ MicroTurn s.turn s' x) ∨
                (s.txnOf s.nextThread = none ∧ s.nextThread ∉ s.blocked ∧
                  ∃ a, s.requestOf s.nextThread = some a ∧ RequestTurn s.turn s' a))
            cases hk : d.bus with
            | none =>
              simp only [hk] at h
              exact run h
            | some k =>
              cases hf : s.turn.busFaulted k with
              | true =>
                simp only [hk, hf, if_true] at h
                cases h
                exact .inl rfl
              | false =>
                simp only [hk, hf] at h
                exact run h

end Sys2Proof.Machine
end

