-- ==== Sys2Proof/Tests/Slice0.lean ====
section
/-!
SUPPORT. The model's own tests. Expected values are those of spec/95_test_vectors.md (V-…, E…) or of the rules named in
a comment; then, for each statement with hypotheses, a witness that meets them.
-/

namespace Sys2Proof.Tests

open Sys2Proof Sys2Proof.Machine

/-! ### Well-formedness: an ill-formed term for each check -/

theorem test_wellFormed_refuses_txm_index : (Instr.txm 0xFFFFFF).wellFormed = false := by decide
theorem test_wellFormed_refuses_rxm_index : (Instr.rxm 0xFFFFFF).wellFormed = false := by decide
theorem test_wellFormedFor_refuses_index :
    (Instr.txm 2).wellFormedFor 2 = false ∧ (Instr.rxm 2).wellFormedFor 2 = false ∧ (Instr.txm 1).wellFormedFor 2 = true := by
  decide
theorem test_descriptor_refuses_count :
    (⟨0x00100507, some 0, 0x2000, 16⟩ : Descriptor).wellFormed { addrWidth := 16, countWidth := 4 } = false := by decide
theorem test_descriptor_refuses_buf :
    (⟨0x00100507, some 0, 0x10000, 2⟩ : Descriptor).wellFormed { addrWidth := 16, countWidth := 4 } = false := by decide
theorem test_params_refused :
    Params.legal ⟨0, 4⟩ = false ∧ Params.legal ⟨16, 0⟩ = false ∧ Params.legal ⟨16, 25⟩ = false ∧
      Params.legal ⟨16, 24⟩ = true := by decide

/-! ### Decoding words written out from the spec: commands (V-E1) -/

theorem test_decode_init : decodeCmd 0x00000001 = .ok .init := by decide
theorem test_decode_deinit : decodeCmd 0x00000002 = .ok .deinit := by decide
theorem test_decode_probe : decodeCmd 0x00000773 = .ok (.probe 0x77) ∧ decodeCmd 0x00000003 = .ok (.probe 0) := by decide
theorem test_decode_read8 : decodeCmd 0x00100504 = .ok (.read8 0x50 0x10) := by decide
theorem test_decode_read16 :
    decodeCmd 0x01230515 = .ok (.read16 0x51 0x0123) ∧ decodeCmd 0xFFFF07F5 = .ok (.read16 0x7F 0xFFFF) := by decide
theorem test_decode_readna : decodeCmd 0x00000516 = .ok (.readna 0x51) := by decide
theorem test_decode_write8 :
    decodeCmd 0x00100507 = .ok (.write8 0x50 0x10) ∧ decodeCmd 0x00FF0007 = .ok (.write8 0 0xFF) := by decide
theorem test_decode_write16 : decodeCmd 0x01230518 = .ok (.write16 0x51 0x0123) := by decide

-- V-E2
theorem test_refused_op :
    decodeCmd 0x00000000 = .error .reservedOp ∧ decodeCmd 0x00000009 = .error .reservedOp ∧
      decodeCmd 0x0000000F = .error .reservedOp ∧ decodeCmd 0xFFFFFFFF = .error .reservedOp ∧
      decodeCmd 0x00008000 = .error .reservedOp := by decide
theorem test_refused_bits :
    decodeCmd 0x00000803 = .error .reservedBits ∧ decodeCmd 0x00010003 = .error .reservedBits ∧
      decodeCmd 0x00010006 = .error .reservedBits ∧ decodeCmd 0x01000004 = .error .reservedBits ∧
      decodeCmd 0x01000007 = .error .reservedBits ∧ decodeCmd 0x00000011 = .error .reservedBits ∧
      decodeCmd 0x00010001 = .error .reservedBits ∧ decodeCmd 0x00000012 = .error .reservedBits := by decide

/-! ### Micro-ops (V-E3) -/

theorem test_decode_idle : decodeUop 0x00000001 = .ok .idle := by decide
theorem test_decode_start : decodeUop 0x00000002 = .ok .start := by decide
theorem test_decode_stop : decodeUop 0x00000003 = .ok .stop := by decide
theorem test_decode_txi : decodeUop 0x0000A504 = .ok (.txi 0xA5) ∧ decodeUop 0x0000EE04 = .ok (.txi 0xEE) := by decide
theorem test_decode_txm : decodeUop 0x00000005 = .ok (.txm 0) ∧ decodeUop 0x00000105 = .ok (.txm 1) := by decide
theorem test_decode_ackchk : decodeUop 0x00000006 = .ok .ackchk := by decide
theorem test_decode_rxm : decodeUop 0x00000007 = .ok (.rxm 0) ∧ decodeUop 0x00000107 = .ok (.rxm 1) := by decide
theorem test_decode_sendack : decodeUop 0x00000008 = .ok .sendack := by decide
theorem test_decode_sendnack : decodeUop 0x00000009 = .ok .sendnack := by decide
theorem test_decode_lock : decodeUop 0x0000000A = .ok .lock := by decide
theorem test_decode_unlock : decodeUop 0x0000000B = .ok .unlock := by decide
theorem test_refused_uop :
    decodeUop 0x00000000 = .error .reservedUop ∧ decodeUop 0x0000000C = .error .reservedUop ∧
      decodeUop 0x0000000F = .error .reservedUop ∧ decodeUop 0x00000016 = .error .reservedZ ∧
      decodeUop 0x00010004 = .error .reservedOpd ∧ decodeUop 0x00000101 = .error .reservedOpd := by decide

/-! ### Framers (V-F1, V-F2) -/

theorem test_addrByte :
    addrByte 0x50 dirWrite = 0xA0 ∧ addrByte 0x50 dirRead = 0xA1 ∧ addrByte 0x77 dirWrite = 0xEE ∧
      addrByte 0x7F dirRead = 0xFF ∧ addrByte 0 dirWrite = 0 := by decide
theorem test_register_bytes :
    regHigh 0x0123 = 0x01 ∧ regLow 0x0123 = 0x23 ∧ regHigh 0xFF00 = 0xFF ∧ regLow 0xFF00 = 0 := by decide
-- E2's micro-program
theorem test_expand_write8 :
    expand ⟨.write8, 0x50, 0x10, 2, 0x2000⟩ =
      [0x0000000A, 0x00000001, 0x00000002, 0x0000A004, 0x00000006, 0x00001004, 0x00000006, 0x00000005, 0x00000006,
        0x00000105, 0x00000006, 0x00000003, 0x0000000B] := by decide
-- E8 and E9
theorem test_microOps_read16 :
    microOps ⟨.read16, 0x51, 0x0123, 2, 0x3000⟩ =
      [.lock, .idle, .start, .txi 0xA2, .ackchk, .txi 0x01, .ackchk, .txi 0x23, .ackchk, .idle, .start, .txi 0xA3, .ackchk,
        .rxm 0, .sendack, .rxm 1, .sendnack, .stop, .unlock] := by decide

/-! ### A small machine -/

/-- An initialised instance with T_HALF = 5 and the environment's next answers. -/
def bus (lock : LockState) (port : Port) (env : List Bool) : Bus :=
  { tHalf := 5, pins := { scl := 0, sda := 1 }, initd := true, lock := lock, port := port, shift := 0, bitcnt := 0
    pollcnt := 0, idx := 0, result := none, hist := [], fault := none, env := env, draws := 0 }

/-- The instance before INIT. -/
def raw : Bus := { bus .absent idlePort [] with initd := false }

/-- A faulted instance. -/
def broken : Bus := { bus .free idlePort [] with fault := some .reInit }

/-- Both lines outputs, SCL low, SDA's latch as given. -/
def low (sda : Bool) : Port := { sdaMode := .out, sdaLat := sda, sclMode := .out, sclLat := false }

/-- WRITE8 0x50, 0x10 of two bytes at 0x2000, as in E2. -/
def wr : Cmd := ⟨.write8, 0x50, 0x10, 2, 0x2000⟩

/-- READ8 0x50, 0x10 of two bytes to 0x3000. -/
def rd : Cmd := ⟨.read8, 0x50, 0x10, 2, 0x3000⟩

/-- PROBE 0x50. -/
def pr : Cmd := ⟨.probe, 0x50, 0, 0, 0⟩

/-- The command c in flight of thread 1, at micro-op upc. -/
def txn (c : Cmd) (upc : Nat) : Txn :=
  { thread := 1, bus := 0, cmd := c, uprog := expand c, upc := upc, ack := false, fail := false, raced := []
    harness := false }

/-- Thread 1's turn, with the command x in flight on instance 0. The bytes from 0x1000 to 0x3FFF exist. -/
def machine (x : Txn) (b : Bus) : State :=
  { State.reset with
    buses := [b]
    mem := [(0x2000, 0xAA), (0x2001, 0xBB)]
    layout := [{ base := 0x1000, size := 0x3000, readable := true, writable := true }]
    txns := [x]
    cur := 1
    sched := [1] }

/-- Thread 1's turn, with no command in flight and the descriptor d handed over. -/
def caller (d : Descriptor) (b : Bus) : State := { machine (txn pr 0) b with txns := [], desc := d }

/-- Thread 1's turn, with a request. -/
def asking (a : HostAction) (b : Bus) : State :=
  { machine (txn pr 0) b with txns := [], requests := [{ thread := 1, action := a }] }

/-- The next state, if there is one. -/
def nextOf : Host.Outcome State Fault Refusal → Option State
  | .next s => some s
  | .fault _ => none
  | .refused _ => none

/-- Instance 0 of a next state. -/
def busOf (o : Host.Outcome State Fault Refusal) : Option Bus := (nextOf o).bind fun s => s.buses[0]?

/-- The events instance 0 has gained in a next state, when it had none. -/
def eventsOf (o : Host.Outcome State Fault Refusal) : Option (List Event) :=
  (busOf o).map fun b => b.hist.map Entry.event

/-- The command of thread 1 in a next state. -/
def txnAfter (o : Host.Outcome State Fault Refusal) : Option Txn := (nextOf o).bind fun s => s.txnOf 1

/-- What a next state has handed back. -/
def returnsOf (o : Host.Outcome State Fault Refusal) : Option (List Return) := (nextOf o).map State.returns

/-! ### Micro-ops on small states -/

-- V-P1
theorem test_idle :
    eventsOf (exec .idle (machine (txn rd 7) (bus (.held 1) (low false) []))) = some [.csOn, .sdaH, .sclH, .csOff] ∧
      (busOf (exec .idle (machine (txn rd 7) (bus (.held 1) (low false) [])))).map Bus.port = some idlePort := by decide
-- V-P2
theorem test_start :
    eventsOf (exec .start (machine (txn wr 2) (bus (.held 1) idlePort []))) =
        some [.csOn, .dly 5, .sdaL, .dly 5, .sclL, .dly 10, .csOff] ∧
      conditions idlePort [.csOn, .dly 5, .sdaL, .dly 5, .sclL, .dly 10, .csOff] = [.start] := by decide
-- V-P16
theorem test_stop :
    eventsOf (exec .stop (machine (txn wr 11) (bus (.held 1) (low true) []))) =
        some [.csOn, .sdaL, .dly 5, .sclH, .dly 5, .sdaH, .dly 5, .csOff] ∧
      conditions (low true) [.csOn, .sdaL, .dly 5, .sclH, .dly 5, .sdaH, .dly 5, .csOff] = [.stop] := by decide
-- V-P3: the bits 1,0,1,0,0,1,0,1
theorem test_txi :
    (eventsOf (exec (.txi 0xA5) (machine (txn wr 3) (bus (.held 1) (low false) [])))).map (sentBits (low false)) =
      some [true, false, true, false, false, true, false, true] := by decide
-- V-P4
theorem test_txm :
    ((eventsOf (exec (.txm 1) (machine (txn wr 9) (bus (.held 1) (low false) [])))).map (List.take 7)) =
        some [.mrd 0x2001 0xBB, .sdaH, .dly 5, .sclH, .dly 5, .sclL, .dly 5] ∧
      (eventsOf (exec (.txm 1) (machine (txn wr 9) (bus (.held 1) (low false) [])))).map (sentBits (low false)) =
        some [true, false, true, true, true, false, true, true] := by decide
-- V-P5: the byte is not in the host's memory
theorem test_txm_bad_address :
    eventsOf (exec (.txm 0) (machine (txn { wr with buf := 0x4000 } 7) (bus (.held 1) (low false) []))) =
      some [.fault .bufRange] := by decide
-- V-P8
theorem test_ackchk_last_sample :
    eventsOf (exec .ackchk (machine (txn wr 4) (bus (.held 1) (low false) (List.replicate 9 true ++ [false])))) =
        some ([.sdaIn, .sclH] ++ List.replicate 9 (.rdSda true) ++ [.rdSda false, .sclL, .sdaOut]) ∧
      ((txnAfter (exec .ackchk (machine (txn wr 4) (bus (.held 1) (low false) (List.replicate 9 true ++ [false]))))).map
        fun x => (x.ack, x.fail, x.upc)) = some (true, false, 5) := by decide
-- V-P9: the eleventh answer is not requested
theorem test_ackchk_never :
    (busOf (exec .ackchk (machine (txn wr 4) (bus (.held 1) (low false) (List.replicate 10 true ++ [false]))))).map
        Bus.env = some [false] ∧
      ((txnAfter (exec .ackchk (machine (txn wr 4) (bus (.held 1) (low false) (List.replicate 10 true ++ [false]))))).map
        fun x => (x.ack, x.fail, x.upc)) = some (false, true, 5) := by decide
-- V-P11
theorem test_rxm :
    (eventsOf (exec (.rxm 0) (machine (txn rd 11)
        (bus (.held 1) (low true) [true, false, true, true, false, false, true, false])))).map (List.drop 41) =
      some [.mwr 0x3000 0xB2, .sdaOut] := by decide
-- V-P13: the last sample is bit 0
theorem test_rxm_last_bit :
    (eventsOf (exec (.rxm 1) (machine (txn rd 13)
        (bus (.held 1) (low true) [false, false, false, false, false, false, false, true])))).map (List.drop 36) =
      some [.sclH, .rdSda true, .dly 5, .sclL, .dly 5, .mwr 0x3001 0x01, .sdaOut] := by decide
-- V-P14
theorem test_sendack :
    eventsOf (exec .sendack (machine (txn rd 12) (bus (.held 1) (low true) []))) =
      some [.sdaL, .dly 5, .sclH, .dly 10, .sdaL, .dly 10, .sclL, .sdaOut] := by decide
-- V-P15: SDA is driven low again at the end
theorem test_sendnack :
    eventsOf (exec .sendnack (machine (txn rd 14) (bus (.held 1) (low false) []))) =
        some [.sdaIn, .sclH, .dly 5, .sclL, .sdaOut] ∧
      (busOf (exec .sendnack (machine (txn rd 14) (bus (.held 1) (low false) [])))).map Bus.port = some (low false) := by
  decide
-- V-P17
theorem test_lock :
    (busOf (exec .lock (machine (txn wr 0) (bus .free idlePort [])))).map Bus.lock = some (.held 1) ∧
      exec .lock (machine (txn wr 0) (bus (.held 2) idlePort [])) = .next (machine (txn wr 0) (bus (.held 2) idlePort [])) :=
  ⟨by decide, rfl⟩
theorem test_lock_gone :
    eventsOf (exec .lock (machine (txn wr 0) raw)) = some [.fault .notInit] := by decide
theorem test_unlock :
    (busOf (exec .unlock (machine (txn wr 12) (bus (.held 1) idlePort [])))).map Bus.lock = some .free ∧
      eventsOf (exec .unlock (machine (txn wr 12) (bus (.held 1) idlePort []))) = some [.unlock] := by decide

/-! ### Commands on small states -/

-- V-L2
theorem test_init :
    eventsOf (exec .init (caller ⟨0x00000001, some 0, 0, 0⟩ { raw with env := [true] })) =
        some [.pcfg, .busy true, .warnBusy, .sdaH, .sclH, .sdaOut, .sclOut] ∧
      (busOf (exec .init (caller ⟨0x00000001, some 0, 0, 0⟩ { raw with env := [true] }))).map
        (fun b => (b.initd, b.lock, b.port)) = some (true, .free, idlePort) := by decide
-- V-L4
theorem test_init_twice :
    (busOf (exec .init (caller ⟨0x00000001, some 0, 0, 0⟩ (bus .free idlePort [])))).map
        (fun b => (b.fault, b.initd, b.lock, b.port)) = some (some .reInit, true, .free, idlePort) := by decide
-- V-L3
theorem test_deinit :
    eventsOf (exec .deinit (caller ⟨0x00000002, some 0, 0, 0⟩ (bus .free idlePort []))) = some [.prel] ∧
      (busOf (exec .deinit (caller ⟨0x00000002, some 0, 0, 0⟩ (bus .free idlePort [])))).map
        (fun b => (b.initd, b.lock)) = some (false, .absent) := by decide
-- V-L6
theorem test_deinit_busy :
    eventsOf (exec .deinit (caller ⟨0x00000002, some 0, 0, 0⟩ (bus (.held 2) idlePort []))) =
      some [.fault .deinitBusy] := by decide
-- V-C5: PROBE ignores BUF and COUNT
theorem test_probe :
    (txnAfter (exec (.probe 0x50) (caller ⟨0x00000503, some 0, 0, 0⟩ (bus .free idlePort [])))).map
      (fun x => (x.uprog, x.upc)) =
      some ([0x0000000A, 0x00000001, 0x00000002, 0x0000A004, 0x00000006, 0x00000003, 0x0000000B], 0) := by decide
-- V-C4
theorem test_probe_no_bus :
    returnsOf (exec (.probe 0x50) (caller ⟨0x00000503, none, 0, 0⟩ (bus .free idlePort []))) =
      some [⟨1, none, .code .eNullBus⟩] := by decide
-- V-C7, V-C8: the count check comes before the INITD check
theorem test_read8 :
    eventsOf (exec (.read8 0x50 0x10) (caller ⟨0x00100504, some 0, 0x3000, 1⟩ raw)) = some [.fault .notInit] ∧
      returnsOf (exec (.read8 0x50 0x10) (caller ⟨0x00100504, some 0, 0x3000, 0⟩ raw)) =
        some [⟨1, some 0, .code .eZeroCount⟩] := by decide
theorem test_read16 :
    (txnAfter (exec (.read16 0x51 0x0123) (caller ⟨0x01230515, some 0, 0x3000, 2⟩ (bus .free idlePort [])))).map Txn.cmd =
      some ⟨.read16, 0x51, 0x0123, 2, 0x3000⟩ := by decide
-- V-C3
theorem test_readna :
    eventsOf (exec (.readna 0x51) (caller ⟨0x00000516, some 0, 0, 0⟩ (bus .free idlePort []))) = some [] ∧
      txnAfter (exec (.readna 0x51) (caller ⟨0x00000516, some 0, 0, 0⟩ (bus .free idlePort []))) = none := by decide
theorem test_write8 :
    (txnAfter (exec (.write8 0x50 0x10) (caller ⟨0x00100507, some 0, 0x2000, 2⟩ (bus .free idlePort [])))).map Txn.cmd =
      some wr := by decide
-- V-C2
theorem test_write16 :
    returnsOf (exec (.write16 0x51 0x0123) (caller ⟨0x01230518, some 0, 0, 2⟩ (bus .free idlePort []))) =
      some [⟨1, some 0, .code .eNullBuf⟩] := by decide

/-! ### The step -/

-- the trace equivalence of R10: adjacent delays merge
theorem test_trace_equivalence : traceEquiv [.dly 5, .dly 5, .sdaL] [.dly 10, .sdaL] := by unfold traceEquiv; decide
-- R60: a reserved word is refused, and the thread does not return
theorem test_step_refuses :
    (nextOf (step (asking (.issue ⟨0x00000009, some 0, 0, 0⟩) raw))).map (fun s => (s.refusal, s.blocked, s.returns)) =
      some (some .reservedOp, [1], []) := by decide
-- R91: a completed command with FAIL = 1 returns false
theorem test_step_returns :
    returnsOf (step (machine { txn wr 13 with fail := true } (bus .free idlePort []))) =
      some [⟨1, some 0, .code .eNack⟩] := by decide
-- the placed word runs as the first instruction after reset
theorem test_withFetchWord :
    decodeTableWord 32 0x0000000A = some .lock ∧ decodeTableWord 32 0x00000773 = some (.probe 0x77) ∧
      decodeTableWord 32 0x00000000 = none ∧
      returnsOf (step (State.reset.withFetchWord 32 0x00000516)) = some [⟨1, some 0, .code .eZeroCount⟩] := by decide

/-! ### Witnesses: states and operands that meet the hypotheses of the statements -/

theorem witness_DecodeInvertsEncode : (Instr.txm 0xFFFFFE).wellFormed = true ∧ (Instr.read16 0x7F 0xFFFF).wellFormed = true := by
  decide
theorem witness_AcceptedWordIsItsEncoding :
    decodeAs .cmd 0xFFFF07F5 = .ok (.read16 0x7F 0xFFFF) ∧ decodeAs .uop 0xFFFFFE05 = .ok (.txm 0xFFFFFE) := by decide
-- one word for each clause, at a boundary of its field: OP, DEV, RSV and REG of the word
theorem witness_CommandDecoderFollowsRule :
    (0x00000009 : Word).toNat % 16 = 9 ∧ (0x00000010 : Word).toNat % 16 = 0 ∧
      (0x00000801 : Word).toNat / 2 ^ 11 % 2 ^ 5 = 1 ∧ (0x00000012 : Word).toNat / 2 ^ 4 % 2 ^ 7 = 1 ∧
      (0x00010003 : Word).toNat / 2 ^ 16 = 1 ∧ (0x01000004 : Word).toNat / 2 ^ 16 / 2 ^ 8 = 1 ∧
      (0x00FF07F7 : Word).toNat / 2 ^ 16 / 2 ^ 8 = 0 ∧ (0xFFFF07F8 : Word).toNat % 16 = 8 := by decide
theorem witness_MicroOpDecoderFollowsRule :
    (0x0000000C : Word).toNat % 16 = 12 ∧ (0x00000016 : Word).toNat / 2 ^ 4 % 2 ^ 4 = 1 ∧
      (0x00000101 : Word).toNat / 2 ^ 8 = 1 ∧ (0x00010004 : Word).toNat / 2 ^ 8 = 2 ^ 8 ∧
      (0x0000FF04 : Word).toNat / 2 ^ 8 + 1 = 2 ^ 8 ∧ (0xFFFFFE05 : Word).toNat / 2 ^ 8 + 2 = 2 ^ 24 ∧
      (0xFFFFFE07 : Word).toNat / 2 ^ 8 + 2 = 2 ^ 24 ∧ (0x0000000B : Word).toNat / 2 ^ 8 = 0 ∧
      (0xFFFFFF05 : Word).toNat / 2 ^ 8 + 1 = 2 ^ 24 ∧ (0xFFFFFF05 : Word).toNat % 16 = 5 ∧
      (0xFFFFFF07 : Word).toNat / 2 ^ 8 + 1 = 2 ^ 24 ∧ (0xFFFFFF07 : Word).toNat % 16 = 7 := by decide
theorem witness_acceptable : wr.acceptable ∧ rd.acceptable ∧ pr.acceptable := by simp [Cmd.acceptable, wr, rd, pr, TxnOp.hasBuffer]
theorem witness_acceptable_largest_count : (⟨.write16, 0x7F, 0xFFFF, 2 ^ 24 - 1, 1⟩ : Cmd).acceptable := by
  simp [Cmd.acceptable]
-- a TXI, a TXM, the LOCK and the UNLOCK of an expansion
theorem witness_expansion :
    ((expand wr)[3]?.map decodeUop, (expand wr)[7]?.map decodeUop, (expand wr)[0]?.map decodeUop,
      (expand wr)[12]?.map decodeUop) =
      (some (.ok (.txi 0xA0)), some (.ok (.txm 0)), some (.ok .lock), some (.ok .unlock)) := by decide

/-- A command in flight of thread 1 on an unfaulted instance is in flight in the sense of the statements. -/
theorem inFlight_machine (x : Txn) (b : Bus) (h1 : x.thread = 1) (h2 : x.bus = 0) (h3 : b.fault = none) :
    InFlight (machine x b) x b := by
  refine ⟨?_, ?_, h3⟩
  · simp [machine, State.txnOf, h1]
  · simp [machine, h2]

theorem witness_InFlight : InFlight (machine (txn wr 3) (bus (.held 1) (low false) [])) (txn wr 3) (bus (.held 1) (low false) []) :=
  inFlight_machine _ _ rfl rfl rfl

/-- Thread 1's turn, with the command y of another thread in flight beside its own. -/
def beside (y x : Txn) (b : Bus) : State := { machine x b with txns := [y, x] }

theorem quiet_machine (x : Txn) (b : Bus) (h : x.thread = 1) (w : Bool) (a : Nat) : (machine x b).quiet 1 w a := by
  intro y hy hne
  obtain rfl : y = x := by simpa [machine] using hy
  exact absurd h hne
/-- Another write command has the same buffer: a TXM beside it is quiet before and after that command has sent the byte. -/
theorem quiet_txm_beside_write (upc : Nat) :
    (beside { txn wr upc with thread := 2 } (txn wr 9) (bus (.held 1) (low false) [])).quiet 1 false 0x2001 := by
  intro y hy hne
  simp [beside, txn] at hy
  obtain rfl | rfl := hy
  · simp [Txn.races, wr, TxnOp.isRead]
  · exact absurd rfl hne
/-- A write command has sent the byte 0x2000 already, so an RXM to it is quiet. -/
theorem quiet_rxm_beside_sent_byte :
    (beside { txn wr 9 with thread := 2 } (txn { rd with buf := 0x2000 } 11) (bus (.held 1) (low false) [])).quiet 1 true
      0x2000 := by
  have h : ∀ y ∈ (beside { txn wr 9 with thread := 2 } (txn { rd with buf := 0x2000 } 11)
      (bus (.held 1) (low false) [])).txns, y.thread ≠ 1 → y.races true 0x2000 = false := by decide
  exact h
-- TXM and RXM: the last index, a readable or writable byte, nothing touched
theorem witness_TxmSendsBufferByte :
    (1 : BitVec 24).toNat < (txn wr 9).cmd.count ∧
      (machine (txn wr 9) (bus (.held 1) (low false) [])).readable 0x2001 = true ∧ 0x2001 ∉ (txn wr 9).raced := by decide
theorem witness_RxmReceivesByteMostSignificantFirst :
    (1 : BitVec 24).toNat < (txn rd 13).cmd.count ∧
      (machine (txn rd 13) (bus (.held 1) (low false) [])).writable 0x3001 = true ∧ 0x3001 ∉ (txn rd 13).raced ∧
      Memory.wf (machine (txn rd 13) (bus (.held 1) (low false) [])).mem := by decide
theorem witness_rxm_answers :
    (bus (.held 1) (low false) (List.replicate 8 true ++ [false])).env = List.replicate 8 true ++ [false] ∧
      (List.replicate 8 true).length = 8 := ⟨rfl, rfl⟩
-- ACKCHK: the first and the last sample, and ten answers of 1
theorem witness_AckchkFirstLowWins :
    (bus (.held 1) (low false) [false]).env = List.replicate (1 - 1) true ++ false :: [] ∧
      (bus (.held 1) (low false) (List.replicate 9 true ++ [false])).env = List.replicate (10 - 1) true ++ false :: [] ∧
      (bus (.held 1) (low false) (List.replicate 10 true)).env = List.replicate 10 true ++ [] := by decide
theorem witness_TxmRxmIndexIsChecked : (txn wr 9).cmd.count ≤ (2 : BitVec 24).toNat := by decide
theorem witness_bad_bytes :
    (machine (txn { wr with buf := 0x3FFF } 9) (bus (.held 1) (low false) [])).readable (0x3FFF + 1) = false ∧
      (machine (txn { rd with buf := 0x3FFF } 13) (bus (.held 1) (low false) [])).writable (0x3FFF + 1) = false ∧
      0x3001 ∈ ({ txn rd 13 with raced := [0x3001] } : Txn).raced := by decide
-- a host store into a buffer: thread 2 stores into thread 1's, before and after thread 1's own access
theorem witness_HostStoreIntoBufferIsRace :
    let s : State := { machine (txn rd 12) (bus (.held 1) (low false) []) with
      sched := [2], requests := [{ thread := 2, action := .store 0x3001 7 }] }
    s.txnOf 2 = none ∧ s.requestOf 2 = some (.store 0x3001 7) ∧ s.writable 0x3001 = true ∧ 2 ∉ s.blocked ∧
      (s.txns.map Txn.thread).Nodup ∧ (txn rd 12).covers 0x3001 = true ∧ (txn rd 12).awaits 0x3001 = true ∧
      (txn rd 12).covers 0x3000 = true ∧ (txn rd 12).awaits 0x3000 = false ∧ rd.op.isRead = true := by decide
-- a host load: thread 2 loads from thread 1's buffer
theorem witness_host_load :
    let s : State := { machine (txn rd 12) (bus (.held 1) (low false) []) with
      sched := [2], requests := [{ thread := 2, action := .load 0x3000 }] }
    s.txnOf 2 = none ∧ s.requestOf 2 = some (.load 0x3000) ∧ s.readable 0x3000 = true ∧ 2 ∉ s.blocked ∧
      (s.txns.map Txn.thread).Nodup := by decide
-- TXM of thread 1's byte 0x2001 while thread 2's read command has that buffer, and RXM into thread 2's unsent byte
theorem witness_command_race :
    let s := beside { txn { rd with buf := 0x2000 } 0 with thread := 2 } (txn wr 9) (bus (.held 1) (low false) [])
    let u := beside { txn wr 0 with thread := 2 } (txn { rd with buf := 0x2000 } 13) (bus (.held 1) (low false) [])
    s.txnOf s.cur = some (txn wr 9) ∧ (s.txns.map Txn.thread).Nodup ∧ s.readable 0x2001 = true ∧
      0x2001 ∉ (txn wr 9).raced ∧ u.txnOf u.cur = some (txn { rd with buf := 0x2000 } 13) ∧
      (u.txns.map Txn.thread).Nodup ∧ u.writable 0x2001 = true := by decide
-- the TXM is logged for the read command, which has still to write the byte
theorem test_txm_race_is_logged :
    ((nextOf (exec (.txm 1) (beside { txn { rd with buf := 0x2000 } 0 with thread := 2 } (txn wr 9)
        (bus (.held 1) (low false) [])))).bind fun s => s.txnOf 2).map Txn.raced = some [0x2001] := by decide
-- the store is seen: it is logged, or it faults the instance at once
theorem test_host_store_race :
    (nextOf (step { machine (txn rd 12) (bus (.held 1) (low false) []) with
      sched := [2], requests := [{ thread := 2, action := .store 0x3000 7 }] })).map
        (fun s => (s.buses.map Bus.fault, s.readByte 0x3000, s.blocked)) =
      some ([some .bufRace], 7, [1]) := by decide
theorem witness_LockAcquiresFaultsOrHolds :
    raw.initd = false ∧ (bus .free idlePort []).lock = .free ∧ (bus (.held 2) idlePort []).lock ≠ .free := by decide
theorem witness_UnlockFreesHeldLock :
    (bus (.held 1) idlePort []).lock = .held (txn wr 12).thread ∧ (bus (.held 2) idlePort []).lock ≠ .held (txn wr 12).thread := by
  decide
theorem witness_MicroOpNeedsCommandInFlight : Instr.idle.format = .uop ∧ State.reset.txnOf State.reset.cur = none := by decide

/-- A micro-op that completes: START from its entry state. -/
theorem witness_completed :
    ∃ s' b', exec .start (machine (txn wr 2) (bus (.held 1) idlePort [])) = .next s' ∧
      Completed (txn wr 2) (machine (txn wr 2) (bus (.held 1) idlePort [])) s' ∧ s'.buses[(txn wr 2).bus]? = some b' ∧
      entryState .start (bus (.held 1) idlePort []).port :=
  ⟨_, _, rfl, ⟨{ txn wr 2 with upc := 3 }, rfl, rfl⟩, rfl, ⟨rfl, rfl, rfl, rfl⟩⟩
/-- IDLE from the entry state of a repeated start, and TXI from its own. -/
theorem witness_entryStates :
    entryState .idle (low false) ∧ (low false).sclLat = false ∧ entryState (.txi 0xA5) (low true) :=
  ⟨⟨rfl, rfl⟩, rfl, ⟨rfl, rfl, rfl⟩⟩

-- commands: each check of R87 in turn, then acceptance
theorem witness_IssueChecksInOrder :
    txnFields (.read8 0x50 0x10) = some (.read8, 0x50, 0x10) ∧
      (caller ⟨0x00100504, none, 0, 0⟩ raw).desc.bus = none ∧
      (caller ⟨0x00100504, some 0, 0x3000, 0⟩ raw).desc.count = 0 ∧
      (caller ⟨0x00100504, some 0, 0, 1⟩ raw).desc.buf = 0 ∧
      (caller ⟨0x00100504, some 0, 1, 1⟩ raw).desc.buf ≠ 0 ∧ raw.initd = false ∧ raw.fault = none := by decide
theorem witness_AcceptedCommandIsLatched :
    let s := caller ⟨0x00100504, some 0, 1, 1⟩ (bus .free idlePort [])
    s.desc.bus = some 0 ∧ s.buses[0]? = some (bus .free idlePort []) ∧ (bus .free idlePort []).initd = true ∧
      s.desc.count ≠ 0 ∧ s.desc.buf ≠ 0 ∧ s.txnOf s.cur = none := by decide
theorem witness_lifecycle :
    (caller ⟨1, some 0, 0, 0⟩ raw).buses[0]? = some raw ∧ raw.fault = none ∧ raw.initd = false ∧
      (bus .free idlePort []).initd = true ∧ (bus .free idlePort []).lock = .free ∧
      (bus (.held 2) idlePort []).lock ≠ .free ∧ (caller ⟨1, none, 0, 0⟩ raw).desc.bus = none := by decide

-- the step: a micro-op word that decodes, and one that does not
theorem witness_StepRunsMicroOpAtUpc :
    let s := machine (txn wr 3) (bus (.held 1) (low false) [])
    s.nextThread = 1 ∧ 1 ∉ s.blocked ∧ s.txnOf 1 = some (txn wr 3) ∧ (txn wr 3).uprog[3]? = some 0x0000A004 ∧
      decodeUop 0x0000A004 = .ok (.txi 0xA0) ∧
      ({ txn wr 3 with uprog := [0], upc := 0 } : Txn).uprog[0]? = some 0 ∧ decodeUop 0 = .error .reservedUop ∧
      ((txn wr 3).harness = true → ∀ y ∈ s.txns, y.bus = 0 → y.harness = true) := by decide
-- a harness alone on its instance
theorem witness_harness_runs :
    let x : Txn := { txn wr 3 with harness := true }
    x.harness = true → ∀ y ∈ (machine x (bus .free idlePort [])).txns, y.bus = x.bus → y.harness = true := by decide

/-- Thread 1 is a harness with TXI next, beside the command of thread 2 on instance 0. -/
def harnessBeside : State :=
  beside { txn wr 0 with thread := 2 } { txn wr 3 with harness := true } (bus (.held 2) (low false) [])
-- R129: the harness does not touch the lines
theorem test_harness_waits :
    (nextOf (step harnessBeside)).map (fun s => (s.buses, s.txns)) = some (harnessBeside.buses, harnessBeside.txns) := by
  decide
theorem witness_StepRunsOrRefusesIssuedWord :
    let s := asking (.issue ⟨0x00100504, some 0, 0x3000, 2⟩) (bus .free idlePort [])
    s.nextThread ∉ s.blocked ∧ s.txnOf s.nextThread = none ∧
      s.requestOf s.nextThread = some (.issue ⟨0x00100504, some 0, 0x3000, 2⟩) ∧
      (⟨0x00100504, some 0, 0x3000, 2⟩ : Descriptor).wellFormed s.params = true ∧ s.busFaulted 0 = false ∧
      decodeCmd 0x00100504 = .ok (.read8 0x50 0x10) ∧ decodeCmd 0x00000009 = .error .reservedOp := by decide
theorem witness_CompletedCommandReturnsNotFail :
    let s := machine (txn wr 13) (bus .free idlePort [])
    s.nextThread ∉ s.blocked ∧ s.txnOf s.nextThread = some (txn wr 13) ∧ (txn wr 13).upc = (txn wr 13).uprog.length := by
  decide
theorem witness_ThreadThatCannotStepHolds :
    ({ machine (txn wr 3) raw with blocked := [1] } : State).nextThread ∈ [1] ∧
      (caller ⟨0, none, 0, 0⟩ raw).txnOf 1 = none ∧ (caller ⟨0, none, 0, 0⟩ raw).requestOf 1 = none ∧
      (machine (txn wr 3) broken).buses[(txn wr 3).bus]? = some broken ∧ broken.fault ≠ none ∧
      harnessBeside.txnOf harnessBeside.nextThread = some { txn wr 3 with harness := true } ∧
      { txn wr 0 with thread := 2 } ∈ harnessBeside.txns ∧ 3 < (expand wr).length := by decide
theorem witness_ConstructAddsInstance :
    let s := asking (.construct 1 { scl := 2, sda := 3 }) raw
    s.requestOf s.nextThread = some (.construct 1 { scl := 2, sda := 3 }) ∧ s.nextThread ∉ s.blocked ∧
      s.txnOf s.nextThread = none ∧
      ∀ b ∈ s.buses, b.pins.scl ≠ 2 ∧ b.pins.scl ≠ 3 ∧ b.pins.sda ≠ 2 ∧ b.pins.sda ≠ 3 := by decide
theorem witness_SampleNeverAboveDrive :
    (bus .free (low false) [true]).port.drvSda = false ∧ (bus .free (low true) [true]).port.drvSda = true ∧
      (bus .free (low true) [true]).env = true :: [] := by decide
-- ReadSCL of R9: one event, the answer
theorem test_readScl :
    ((bus .free idlePort [false]).readScl 1).1 = false ∧
      ((bus .free idlePort [false]).readScl 1).2.hist = [⟨1, .rdScl false⟩] := by decide
-- one line as both the clock and the data line is no construction (log 24)
theorem test_construct_refuses_one_line :
    step (asking (.construct 1 { scl := 2, sda := 2 }) raw) = .refused .badConstruction := rfl

/-- Mid-command: thread 1 holds the lock, IDLE has run and START is next. -/
def mid : State := machine (txn pr 2) (bus (.held 1) idlePort [])

/-- The invariant of the engine holds mid-command. -/
theorem witness_EngineInv : EngineInv mid := by
  refine ⟨by decide, by simp [mid, machine, State.reset], by decide, ?_, ?_, ?_⟩
  · intro x hx
    obtain rfl : x = txn pr 2 := by simpa [mid, machine] using hx
    exact ⟨⟨by simp [Cmd.acceptable, txn, pr, TxnOp.hasBuffer], rfl, by decide⟩, by decide⟩
  · intro x hx b hb _ _ _
    obtain rfl : x = txn pr 2 := by simpa [mid, machine] using hx
    obtain rfl : bus (.held 1) idlePort [] = b := by simpa [mid, machine, txn] using hb
    rfl
  · intro i b hb _
    match i with
    | 0 =>
      obtain rfl : bus (.held 1) idlePort [] = b := by simpa [mid, machine] using hb
      exact ⟨rfl, txn pr 2, 0x00000001, .idle, rfl, rfl, by decide, by decide, by decide, by decide, rfl⟩
    | i + 1 => simp [mid, machine] at hb

/-- A step from mid-command: its state meets every hypothesis about a next state. -/
theorem witness_step :
    ∃ s', step mid = .next s' ∧ Memory.wf mid.mem ∧ (∀ b ∈ mid.buses, b.countersInRange) ∧
      mid.buses[0]? = some (bus (.held 1) idlePort []) ∧ mid.txnOf 1 = some (txn pr 2) ∧
      (s'.txnOf 1).isSome = true ∧ (s'.buses[0]?).isSome = true :=
  ⟨_, rfl, by decide, by simp [mid, machine, Bus.countersInRange, bus], rfl, by decide, rfl, rfl⟩
theorem witness_MicroOpsFindTheirEntryState :
    (txn pr 2).uprog[(txn pr 2).upc]? = some 0x00000002 ∧ decodeUop 0x00000002 = .ok .start ∧ 0 < (txn pr 2).upc ∧
      (expand rd)[7]? = some 0x00000001 := by decide
/-- An idle instance in a state of the invariant: no command is in flight. -/
theorem witness_IdleInstanceHasLinesReleased :
    EngineInv { mid with txns := [], buses := [bus .free idlePort []] } := by
  refine ⟨by decide, by simp [mid, machine, State.reset], by decide, by simp, by simp, ?_⟩
  intro i b hb _
  match i with
  | 0 =>
    obtain rfl : bus .free idlePort [] = b := by simpa using hb
    exact ⟨rfl, rfl⟩
  | i + 1 => simp at hb
theorem witness_FaultedInstanceNeverSteps :
    (nextOf (step { mid with buses := [broken] })).isSome = true ∧ ([broken] : List Bus)[0]? = some broken ∧
      broken.fault ≠ none := by decide
/-- Two instances; the command in flight runs on instance 0. -/
theorem witness_OtherInstancesUnchanged :
    let s : State := { mid with buses := [bus (.held 1) idlePort [], raw] }
    (nextOf (exec .start s)).isSome = true ∧ s.buses[1]? = some raw ∧ s.txnOf s.cur = some (txn pr 2) ∧ (txn pr 2).bus ≠ 1 := by
  decide
theorem witness_rxm_memory :
    let s := machine (txn rd 13) (bus (.held 1) (low false) (List.replicate 8 true))
    s.txnOf s.cur = some (txn rd 13) ∧ (nextOf (exec (.rxm 1) s)).isSome = true ∧ Memory.wf s.mem ∧
      0x3000 ≠ (txn rd 13).cmd.buf + (1 : BitVec 24).toNat := by decide
theorem witness_exec_rules :
    (nextOf (exec .start mid)).isSome = true ∧ (∀ j, Instr.start ≠ .rxm j) ∧
      (busOf (exec .start mid)).isSome = true := ⟨by decide, by simp, by decide⟩

/-- WRITE8 accepted, alone, with a turn for each micro-op and one for the return: every hypothesis of the two statements
about whole commands. -/
theorem witness_whole_command :
    let b := bus .free idlePort []
    let s : State := { machine (txn wr 0) b with sched := List.replicate 14 1 }
    wr.acceptable ∧ s.sched = List.replicate ((expand (txn wr 0).cmd).length + 1) 1 ++ [] ∧ 1 ∉ s.blocked ∧
      s.txns = [txn wr 0] ∧ (txn wr 0).thread = 1 ∧ (txn wr 0).bus = 0 ∧ (txn wr 0).uprog = expand (txn wr 0).cmd ∧
      (txn wr 0).upc = 0 ∧ (txn wr 0).raced = [] ∧ s.buses[0]? = some b ∧ b.fault = none ∧ b.initd = true ∧
      b.lock = .free ∧ b.port = idlePort ∧
      (∀ i, i < wr.count → (wr.op.isRead = true → s.writable (wr.buf + i) = true) ∧
        (wr.op.hasBuffer = true → wr.op.isRead = false → s.readable (wr.buf + i) = true)) :=
  ⟨witness_acceptable.1, by decide, by decide, rfl, rfl, rfl, rfl, rfl, rfl, rfl, rfl, rfl, rfl, rfl, by decide⟩
/-- The buffer hypothesis of the two statements holds for a write from read-only memory and a read into write-only memory. -/
theorem witness_whole_command_one_way_memory :
    let s : State := { State.reset with layout := [⟨0x2000, 2, true, false⟩, ⟨0x3000, 2, false, true⟩] }
    s.writable 0x2000 = false ∧ s.readable 0x3000 = false ∧
      (∀ i, i < wr.count → (wr.op.isRead = true → s.writable (wr.buf + i) = true) ∧
        (wr.op.hasBuffer = true → wr.op.isRead = false → s.readable (wr.buf + i) = true)) ∧
      ∀ i, i < rd.count → (rd.op.isRead = true → s.writable (rd.buf + i) = true) ∧
        (rd.op.hasBuffer = true → rd.op.isRead = false → s.readable (rd.buf + i) = true) := by decide
/-- A step from a state with every mark of StepOnlyExtendsHistories. -/
theorem witness_marks_kept :
    let s : State := { mid with refusal := some .reservedOp, blocked := [7], noBusHist := [⟨7, .fault .nullBus⟩] }
    (nextOf (step s)).isSome = true ∧ s.refusal ≠ none ∧ 7 ∈ s.blocked ∧ s.noBusHist ≠ [] := by decide

/-- For each clause: traces with equal and with different heads, a delay beside another event, two single delays, and
equivalent traces. Each is R10's answer for the two lists. -/
theorem witness_TraceEquivalenceMergesDelays :
    traceEquiv [.sdaL, .dly 10] [.sdaL, .dly 5, .dly 5] ∧ ¬ traceEquiv [.sdaL, .dly 5] [.dly 5, .sdaL] ∧
      traceEquiv [.dly 5, .sclL] [.dly 5, .sclL] ∧ ¬ traceEquiv [.dly 5] [.dly 4] ∧ ¬ traceEquiv [] [.dly 0] ∧
      (∀ k, [Event.sclL].head? ≠ some (.dly k)) ∧ ∀ e ∈ [Event.sdaL, .sclL], e.isDelay = false := by
  unfold traceEquiv
  refine ⟨by decide, by decide, by decide, by decide, by decide, by simp, by decide⟩

end Sys2Proof.Tests
end

section
/-!
SUPPORT. Trace equivalence (R10): how the merging of delays computes, event by event, and what it keeps.
-/

namespace Sys2Proof.Machine

theorem Event.eq_dly_of_isDelay {e : Event} (h : e.isDelay = true) : ∃ n, e = .dly n := by
  cases e with
  | dly n => exact ⟨n, rfl⟩
  | _ => cases h

/-! ### consDelay -/

/-- A delay put in front always shows as a leading delay, so the result starts with no other event and is not empty. -/
theorem consDelay_eq_cons (n : Nat) (es : List Event) : ∃ k fs, consDelay n es = .dly k :: fs := by
  unfold consDelay
  split <;> exact ⟨_, _, rfl⟩

/-- In front of events that start with no delay, nothing is merged. -/
theorem consDelay_of_head {n : Nat} {es : List Event} (h : ∀ k, es.head? ≠ some (.dly k)) :
    consDelay n es = .dly n :: es := by
  unfold consDelay
  split
  · simp at h
  · rfl

/-- Two delays put in front one after the other are one delay of their sum. -/
theorem consDelay_consDelay (m n : Nat) (es : List Event) : consDelay m (consDelay n es) = consDelay (m + n) es := by
  match es with
  | [] => rfl
  | e :: es =>
    cases e with
    | dly k => simp [consDelay, Nat.add_assoc]
    | _ => rfl

@[simp] theorem filter_consDelay (n : Nat) (es : List Event) :
    ((consDelay n es).filter fun e => e.isDelay = false) = es.filter fun e => e.isDelay = false := by
  unfold consDelay
  split <;> simp [Event.isDelay]

@[simp] theorem dlySum_cons (e : Event) (es : List Event) : dlySum (e :: es) = e.delay + dlySum es := rfl

@[simp] theorem dlySum_consDelay (n : Nat) (es : List Event) : dlySum (consDelay n es) = n + dlySum es := by
  unfold consDelay
  split <;> simp [Event.delay, Nat.add_assoc]

/-! ### mergeDelays -/

theorem mergeDelays_dly (n : Nat) (es : List Event) :
    mergeDelays (.dly n :: es) = consDelay n (mergeDelays es) := rfl

theorem mergeDelays_cons {e : Event} (h : e.isDelay = false) (es : List Event) :
    mergeDelays (e :: es) = e :: mergeDelays es := by
  cases e with
  | dly n => cases h
  | _ => rfl

/-- Merging neither removes a leading event nor puts a delay there that was not there. -/
theorem mergeDelays_head {es : List Event} (h : ∀ k, es.head? ≠ some (.dly k)) (k : Nat) :
    (mergeDelays es).head? ≠ some (.dly k) := by
  cases es with
  | nil => simp [mergeDelays]
  | cons e es =>
    cases he : e.isDelay with
    | false => rw [mergeDelays_cons he]; exact h k
    | true =>
      obtain ⟨n, rfl⟩ := Event.eq_dly_of_isDelay he
      exact absurd rfl (h n)

/-- A leading delay that no second delay follows is merged with nothing. -/
theorem mergeDelays_single_dly {es : List Event} (h : ∀ k, es.head? ≠ some (.dly k)) (n : Nat) :
    mergeDelays (.dly n :: es) = .dly n :: mergeDelays es :=
  consDelay_of_head (mergeDelays_head h)

theorem mergeDelays_eq_nil {es : List Event} : mergeDelays es = [] ↔ es = [] := by
  fun_cases mergeDelays es with
  | case1 => simp
  | case2 n es =>
    obtain ⟨k, fs, h⟩ := consDelay_eq_cons n (mergeDelays es)
    simp [h]
  | case3 e es => simp

@[simp] theorem filter_mergeDelays (es : List Event) :
    ((mergeDelays es).filter fun e => e.isDelay = false) = es.filter fun e => e.isDelay = false := by
  fun_induction mergeDelays es with
  | case1 => rfl
  | case2 n es ih => rw [filter_consDelay, ih]; rfl
  | case3 e es _ ih => rw [List.filter_cons, List.filter_cons, ih]

@[simp] theorem dlySum_mergeDelays (es : List Event) : dlySum (mergeDelays es) = dlySum es := by
  fun_induction mergeDelays es with
  | case1 => rfl
  | case2 n es ih => rw [dlySum_consDelay, ih]; rfl
  | case3 e es _ ih => rw [dlySum_cons, dlySum_cons, ih]

/-- Without delays there is nothing to merge. -/
theorem mergeDelays_of_no_delay {es : List Event} (h : ∀ e ∈ es, e.isDelay = false) : mergeDelays es = es := by
  induction es with
  | nil => rfl
  | cons e es ih =>
    rw [List.forall_mem_cons] at h
    rw [mergeDelays_cons h.1, ih h.2]

/-! ### traceEquiv -/

/-- The same events may stand before two equivalent traces. -/
theorem traceEquiv_append_left (es : List Event) {fs gs : List Event} (h : traceEquiv fs gs) :
    traceEquiv (es ++ fs) (es ++ gs) := by
  unfold traceEquiv at h ⊢
  induction es with
  | nil => exact h
  | cons e es ih =>
    cases he : e.isDelay with
    | false => rw [List.cons_append, List.cons_append, mergeDelays_cons he, mergeDelays_cons he, ih]
    | true =>
      obtain ⟨n, rfl⟩ := Event.eq_dly_of_isDelay he
      rw [List.cons_append, List.cons_append, mergeDelays_dly, mergeDelays_dly, ih]

/-- R10: a delay is equivalent to two adjacent ones that add up to it. -/
theorem traceEquiv_split_dly (m n : Nat) (fs : List Event) :
    traceEquiv (.dly (m + n) :: fs) (.dly m :: .dly n :: fs) :=
  (consDelay_consDelay m n (mergeDelays fs)).symm

theorem traceEquiv_nil_left {es : List Event} : traceEquiv [] es ↔ es = [] := by
  rw [← mergeDelays_eq_nil, eq_comm]
  rfl

theorem traceEquiv_cons_iff {e f : Event} (he : e.isDelay = false) (hf : f.isDelay = false) (es fs : List Event) :
    traceEquiv (e :: es) (f :: fs) ↔ e = f ∧ traceEquiv es fs := by
  unfold traceEquiv
  rw [mergeDelays_cons he, mergeDelays_cons hf, List.cons.injEq]

theorem not_traceEquiv_cons_dly {e : Event} (he : e.isDelay = false) (n : Nat) (es fs : List Event) :
    ¬ traceEquiv (e :: es) (.dly n :: fs) := by
  unfold traceEquiv
  obtain ⟨k, gs, h⟩ := consDelay_eq_cons n (mergeDelays fs)
  rw [mergeDelays_cons he, mergeDelays_dly, h]
  rintro ⟨⟩
  cases he

theorem traceEquiv_single_dly_iff {es fs : List Event} (hes : ∀ k, es.head? ≠ some (.dly k))
    (hfs : ∀ k, fs.head? ≠ some (.dly k)) (m n : Nat) :
    traceEquiv (.dly m :: es) (.dly n :: fs) ↔ m = n ∧ traceEquiv es fs := by
  unfold traceEquiv
  rw [mergeDelays_single_dly hes, mergeDelays_single_dly hfs, List.cons.injEq, Event.dly.injEq]

theorem filter_eq_of_traceEquiv {es fs : List Event} (h : traceEquiv es fs) :
    (es.filter fun e => e.isDelay = false) = fs.filter fun e => e.isDelay = false := by
  rw [← filter_mergeDelays es, h, filter_mergeDelays]

theorem dlySum_eq_of_traceEquiv {es fs : List Event} (h : traceEquiv es fs) : dlySum es = dlySum fs := by
  rw [← dlySum_mergeDelays es, h, dlySum_mergeDelays]

theorem traceEquiv_iff_eq_of_no_delay {es fs : List Event} (h : ∀ e ∈ es ++ fs, e.isDelay = false) :
    traceEquiv es fs ↔ es = fs := by
  rw [List.forall_mem_append] at h
  unfold traceEquiv
  rw [mergeDelays_of_no_delay h.1, mergeDelays_of_no_delay h.2]

/-- Settles O60: merging computes head by head, and keeps the other events and the sum of the delays. -/
theorem traceEquivalenceMergesDelays : Obligations.TraceEquivalenceMergesDelays :=
  ⟨fun es fs m n => traceEquiv_append_left es (traceEquiv_split_dly m n fs),
    fun es fs =>
      ⟨traceEquiv_nil_left,
        fun _ _ he hf => traceEquiv_cons_iff he hf es fs,
        fun _ n he => not_traceEquiv_cons_dly he n es fs,
        fun m n hes hfs => traceEquiv_single_dly_iff hes hfs m n,
        fun h => ⟨h.symm, filter_eq_of_traceEquiv h, dlySum_eq_of_traceEquiv h⟩,
        traceEquiv_iff_eq_of_no_delay⟩⟩

end Sys2Proof.Machine
end

section
/-!
SUPPORT. The configuration of a bus (T_HALF and PINS, R15, R16) and of the machine (the widths, the memory layout):
no operation changes it.
-/

namespace Sys2Proof.Machine

/-! ### One bus -/

/-- From b to b' the bus keeps T_HALF and PINS (R15, R16). -/
def Bus.SameConfig (b b' : Bus) : Prop := b'.tHalf = b.tHalf ∧ b'.pins = b.pins

theorem Bus.SameConfig.refl (b : Bus) : b.SameConfig b := ⟨rfl, rfl⟩

theorem Bus.SameConfig.trans {a b c : Bus} (h : a.SameConfig b) (h' : b.SameConfig c) : a.SameConfig c :=
  ⟨h'.1.trans h.1, h'.2.trans h.2⟩

theorem result_sameConfig (r : Option Bool) (b : Bus) : b.SameConfig { b with result := r } := ⟨rfl, rfl⟩

theorem effect_sameConfig (t : Nat) (e : Event) (b : Bus) : b.SameConfig (e.effect t b) := by
  cases e <;> exact ⟨rfl, rfl⟩

theorem emit_sameConfig (t : Nat) (e : Event) (b : Bus) : b.SameConfig (b.emit t e) :=
  effect_sameConfig t e b

theorem emits_sameConfig (t : Nat) (es : List Event) (b : Bus) : b.SameConfig (b.emits t es) := by
  induction es generalizing b with
  | nil => exact .refl b
  | cons e es ih => exact (emit_sameConfig t e b).trans (ih (b.emit t e))

theorem txbyte_sameConfig (t : Nat) (v : Byte) (b : Bus) : b.SameConfig (b.txbyte t v) := by
  rw [txbyte_eq]
  exact ⟨rfl, rfl⟩

theorem ackchk_sameConfig (t : Nat) (b : Bus) : b.SameConfig (b.ackchk t).2 := by
  obtain ⟨bits, last, env, draws, -, -, -, h, -⟩ := ackchk_spec t b
  rw [h]
  exact ⟨rfl, rfl⟩

theorem initialise_sameConfig (t : Nat) (b : Bus) : b.SameConfig (b.initialise t) := by
  obtain ⟨busy, env, draws, -, h⟩ := initialise_spec t b
  rw [h]
  exact ⟨rfl, rfl⟩

theorem deinitialise_sameConfig (t : Nat) (b : Bus) : b.SameConfig (b.deinitialise t) :=
  emit_sameConfig t .prel b

theorem receive_sameConfig (i : BitVec 24) (t : Nat) (b : Bus) :
    b.SameConfig
      (({ ({ b with idx := i.toNat } : Bus).emit t .sdaIn with shift := 0, bitcnt := 0 } : Bus).rxbits t 8) := by
  obtain ⟨v, env, draws, h, -⟩ := receive_spec i t b
  rw [h]
  exact ⟨rfl, rfl⟩

/-! ### The machine -/

/-- From s to s' the widths, the memory layout and T_HALF and PINS of every bus are kept; buses may be added. -/
structure KeepsConfig (s s' : State) : Prop where
  params : s'.params = s.params
  layout : s'.layout = s.layout
  buses : ∀ (i : Nat) (b : Bus), s.buses[i]? = some b → ∃ b', s'.buses[i]? = some b' ∧ b.SameConfig b'

theorem KeepsConfig.refl (s : State) : KeepsConfig s s := ⟨rfl, rfl, fun _ b hb => ⟨b, hb, .refl b⟩⟩

theorem KeepsConfig.trans {s s' s'' : State} (h : KeepsConfig s s') (h' : KeepsConfig s' s'') : KeepsConfig s s'' where
  params := h'.params.trans h.params
  layout := h'.layout.trans h.layout
  buses i b hb := by
    obtain ⟨b', hb', hc⟩ := h.buses i b hb
    obtain ⟨b'', hb'', hc'⟩ := h'.buses i b' hb'
    exact ⟨b'', hb'', hc.trans hc'⟩

/-- Whatever touches neither the widths, nor the layout, nor a bus. -/
theorem keepsConfig_of_eq {s s' : State} (hp : s'.params = s.params) (hl : s'.layout = s.layout)
    (hb : s'.buses = s.buses) : KeepsConfig s s' :=
  ⟨hp, hl, fun _ b h => ⟨b, hb ▸ h, .refl b⟩⟩

theorem KeepsConfig.setBus {s : State} {i : Nat} {b b' : Bus} (hb : s.buses[i]? = some b) (h : b.SameConfig b') :
    KeepsConfig s (s.setBus i b') := by
  refine ⟨rfl, rfl, fun k c hc => ?_⟩
  by_cases hk : i = k
  · subst hk
    obtain rfl : b = c := Option.some.inj (hb.symm.trans hc)
    exact ⟨b', List.getElem?_set_self (List.getElem?_eq_some_iff.1 hb).1, h⟩
  · exact ⟨c, (List.getElem?_set_ne hk).trans hc, .refl c⟩

section
variable {s s' : State} (h : KeepsConfig s s')
include h

theorem KeepsConfig.block (t : Nat) : KeepsConfig s (s'.block t) := ⟨h.params, h.layout, h.buses⟩

theorem KeepsConfig.ret (k : Option Nat) (a : Answer) : KeepsConfig s (s'.ret k a) := ⟨h.params, h.layout, h.buses⟩

theorem KeepsConfig.advance (x : Txn) : KeepsConfig s (s'.advance x) := ⟨h.params, h.layout, h.buses⟩

theorem KeepsConfig.writeByte (a : Nat) (v : Byte) : KeepsConfig s (s'.writeByte a v) :=
  ⟨h.params, h.layout, h.buses⟩

theorem KeepsConfig.dropTxn (t : Nat) : KeepsConfig s (s'.dropTxn t) := ⟨h.params, h.layout, h.buses⟩

theorem KeepsConfig.refuse (r : RefuseReason) : KeepsConfig s (s'.refuse r) := ⟨h.params, h.layout, h.buses⟩

theorem KeepsConfig.takeRequest : KeepsConfig s s'.takeRequest := ⟨h.params, h.layout, h.buses⟩

theorem KeepsConfig.onBus {f : Bus → Bus} (i : Nat) (hf : ∀ b : Bus, b.SameConfig (f b)) :
    KeepsConfig s (s'.onBus i f) := by
  rcases onBus_cases s' i f with ⟨ho, -⟩ | ⟨b, hb, -, ho⟩
  · rwa [ho]
  · rw [ho]
    exact h.trans (.setBus hb (hf b))

theorem KeepsConfig.raise (i t : Nat) (r : FaultReason) : KeepsConfig s (s'.raise i t r) :=
  (h.onBus i (emit_sameConfig t (.fault r))).block t

theorem KeepsConfig.touch (t : Nat) (w : Bool) (a : Nat) : KeepsConfig s (s'.touch t w a) := by
  obtain ⟨hframe, hbuses, -, -⟩ := touch_spec s' t w a
  refine h.trans ⟨(congrArg State.params hframe :), (congrArg State.layout hframe :), fun i b hb => ?_⟩
  rcases hbuses i with hi | ⟨c, y, -, -, -, hc, -, hi⟩
  · exact ⟨b, hi.trans hb, .refl b⟩
  · obtain rfl : b = c := Option.some.inj (hb.symm.trans hc)
    exact ⟨_, hi, rfl, rfl⟩

theorem KeepsConfig.carryOn {f : Bus → Bus} (x : Txn) (hf : ∀ b : Bus, b.SameConfig (f b)) :
    KeepsConfig s (s'.carryOn x f) := by
  rcases carryOn_cases s' x f with ho | ⟨b, hb, -, ho⟩
  · rwa [ho]
  · rw [ho, ← setBus_advance]
    exact (h.trans (.setBus hb (hf b))).advance x

end

/-- A micro-op's meaning keeps the configuration if it does so on the bus of the command in flight. -/
theorem withCommand_keepsConfig {s s' : State} {f : Txn → Bus → State}
    (hf : ∀ x b, s.buses[x.bus]? = some b → KeepsConfig s (f x b)) (h : s.withCommand f = .next s') :
    KeepsConfig s s' := by
  obtain ⟨x, b, -, hb, ⟨-, rfl⟩ | ⟨-, rfl⟩⟩ := withCommand_cases h
  · exact .refl _
  · exact hf x b hb

theorem busMicroOp_keepsConfig {s s' : State} {f : Txn → Bus → Bus} (hf : ∀ (x : Txn) (b : Bus), b.SameConfig (f x b))
    (h : s.busMicroOp f = .next s') : KeepsConfig s s' :=
  withCommand_keepsConfig (fun x b hb => (KeepsConfig.setBus hb (hf x b)).advance x) h

/-! ### The instructions -/

theorem execInit_keepsConfig {s s' : State} (h : execInit s = .next s') : KeepsConfig s s' := by
  unfold execInit at h
  split at h
  · cases h
    exact keepsConfig_of_eq rfl rfl rfl
  · split at h
    · cases h
    · rename_i i _ _ b hb
      cases h
      split_ifs
      · exact .refl s
      · exact (KeepsConfig.refl s).raise i s.cur .reInit
      · exact (KeepsConfig.setBus hb (initialise_sameConfig s.cur b)).ret ..

theorem execDeinit_keepsConfig {s s' : State} (h : execDeinit s = .next s') : KeepsConfig s s' := by
  unfold execDeinit at h
  split at h
  · cases h
    exact keepsConfig_of_eq rfl rfl rfl
  · split at h
    · cases h
    · rename_i i _ _ b hb
      cases h
      split_ifs
      · exact .refl s
      · exact (KeepsConfig.refl s).raise i s.cur .notInit
      · exact (KeepsConfig.refl s).raise i s.cur .deinitBusy
      · exact (KeepsConfig.setBus hb (deinitialise_sameConfig s.cur b)).ret ..

theorem failPrecondition_keepsConfig (s : State) (i : Nat) (c : Code) : KeepsConfig s (s.failPrecondition i c) :=
  ((KeepsConfig.refl s).onBus i (result_sameConfig (some false))).ret ..

theorem issueTxn_keepsConfig {s s' : State} {op : TxnOp} {dev : BitVec 7} {reg : BitVec 16}
    (h : s.issueTxn op dev reg = .next s') : KeepsConfig s s' := by
  unfold State.issueTxn at h
  split at h
  · cases h
    exact keepsConfig_of_eq rfl rfl rfl
  · split at h
    · cases h
    · rename_i i _ _ b hb
      cases h
      split_ifs
      · exact .refl s
      · exact failPrecondition_keepsConfig s i .eZeroCount
      · exact failPrecondition_keepsConfig s i .eNullBuf
      · exact (KeepsConfig.refl s).raise i s.cur .notInit
      · exact keepsConfig_of_eq rfl rfl rfl

theorem execLock_keepsConfig {s s' : State} (h : execLock s = .next s') : KeepsConfig s s' := by
  refine withCommand_keepsConfig (fun x b hb => ?_) h
  split_ifs
  · exact (KeepsConfig.refl s).raise x.bus x.thread .notInit
  · exact (KeepsConfig.setBus hb (emit_sameConfig x.thread .lock b)).advance x
  · exact .refl s

theorem execUnlock_keepsConfig {s s' : State} (h : execUnlock s = .next s') : KeepsConfig s s' := by
  refine withCommand_keepsConfig (fun x b hb => ?_) h
  split_ifs
  · exact (KeepsConfig.setBus hb (emit_sameConfig x.thread .unlock b)).advance x
  · exact .refl s

theorem execAckchk_keepsConfig {s s' : State} (h : execAckchk s = .next s') : KeepsConfig s s' :=
  withCommand_keepsConfig
    (fun x b hb => (KeepsConfig.setBus hb (ackchk_sameConfig x.thread b)).advance (x.withAck (b.ackchk x.thread).1)) h

theorem execTxm_keepsConfig {i : BitVec 24} {s s' : State} (h : execTxm i s = .next s') : KeepsConfig s s' := by
  refine withCommand_keepsConfig (fun x b hb => ?_) h
  dsimp only
  have hidx : KeepsConfig s (s.setBus x.bus { b with idx := i.toNat }) := .setBus hb ⟨rfl, rfl⟩
  split_ifs
  · exact (KeepsConfig.refl s).refuse .indexRange
  · exact hidx.raise ..
  · exact hidx.raise ..
  · refine ((KeepsConfig.setBus hb ?_).touch ..).carryOn x (txbyte_sameConfig x.thread _)
    exact emit_sameConfig x.thread (.mrd _ _) { b with idx := i.toNat }

theorem execRxm_keepsConfig {i : BitVec 24} {s s' : State} (h : execRxm i s = .next s') : KeepsConfig s s' := by
  refine withCommand_keepsConfig (fun x b hb => ?_) h
  have hrecv := receive_sameConfig i x.thread b
  have hbits := KeepsConfig.setBus hb hrecv
  dsimp only
  split_ifs
  · exact (KeepsConfig.refl s).refuse .indexRange
  · exact hbits.raise ..
  · exact hbits.raise ..
  · refine ((KeepsConfig.writeByte (.setBus hb ?_) ..).touch ..).carryOn x (emits_sameConfig x.thread [.sdaOut])
    exact hrecv.trans (emit_sameConfig ..)

/-- R33: no instruction changes the configuration. -/
theorem exec_keepsConfig {i : Instr} {s s' : State} (h : exec i s = .next s') : KeepsConfig s s' := by
  cases i with
  | init => exact execInit_keepsConfig h
  | deinit => exact execDeinit_keepsConfig h
  | probe | read8 | read16 | readna | write8 | write16 => exact issueTxn_keepsConfig h
  | idle | start | stop | sendack | sendnack => exact busMicroOp_keepsConfig (fun x b => emits_sameConfig x.thread _ b) h
  | txi imm => exact busMicroOp_keepsConfig (fun x b => txbyte_sameConfig x.thread imm b) h
  | txm => exact execTxm_keepsConfig h
  | ackchk => exact execAckchk_keepsConfig h
  | rxm => exact execRxm_keepsConfig h
  | lock => exact execLock_keepsConfig h
  | unlock => exact execUnlock_keepsConfig h

/-! ### A turn -/

theorem finish_keepsConfig (s : State) (x : Txn) : KeepsConfig s (s.finish x) := by
  unfold State.finish
  split
  · exact .refl s
  · exact (((KeepsConfig.refl s).onBus x.bus (result_sameConfig (some x.result))).dropTxn x.thread).ret ..

theorem MicroTurn.keepsConfig {s s' : State} {x : Txn} (h : MicroTurn s s' x) : KeepsConfig s s' := by
  obtain ⟨-, rfl⟩ | ⟨w, -, ⟨i, -, h⟩ | ⟨r, -, rfl⟩⟩ := h
  · exact finish_keepsConfig s x
  · exact exec_keepsConfig h
  · exact (KeepsConfig.refl s).refuse r

/-- A constructed bus is added behind the others (R118). -/
theorem construct_keepsConfig {s s' : State} {tHalf : Nat} {p : Pins} (h : s.construct tHalf p = .next s') :
    KeepsConfig s s' := by
  unfold State.construct at h
  split at h
  · cases h
  · cases h
    refine ⟨rfl, rfl, fun i b hb => ⟨b, ?_, .refl b⟩⟩
    exact (List.getElem?_append_left (List.getElem?_eq_some_iff.1 hb).1).trans hb

theorem hostLoad_keepsConfig {s s' : State} {a : Nat} (h : s.hostLoad a = .next s') : KeepsConfig s s' := by
  unfold State.hostLoad at h
  split at h
  · cases h
    exact ((KeepsConfig.refl s).takeRequest.touch ..).ret ..
  · cases h

theorem hostStore_keepsConfig {s s' : State} {a : Nat} {v : Byte} (h : s.hostStore a v = .next s') :
    KeepsConfig s s' := by
  unfold State.hostStore at h
  split at h
  · cases h
    exact (((KeepsConfig.refl s).takeRequest.writeByte a v).touch ..).ret ..
  · cases h

theorem openHarness_keepsConfig {s s' : State} {k : Nat} {c : Cmd} {ws : List Word}
    (h : s.openHarness k c ws = .next s') : KeepsConfig s s' := by
  unfold State.openHarness at h
  split at h
  · cases h
  · cases h
    exact keepsConfig_of_eq rfl rfl rfl

theorem RequestTurn.keepsConfig {s s' : State} {a : HostAction} (h : RequestTurn s s' a) : KeepsConfig s s' := by
  cases a with
  | issue d =>
    have htake : KeepsConfig s (s.takeDescriptor d) := keepsConfig_of_eq rfl rfl rfl
    obtain ⟨-, ⟨i, -, h⟩ | ⟨r, -, rfl⟩⟩ := h
    · exact htake.trans (exec_keepsConfig h)
    · exact htake.refuse r
  | construct tHalf p => exact construct_keepsConfig h
  | load a => exact hostLoad_keepsConfig h
  | store a v => exact hostStore_keepsConfig h
  | harness k c ws => exact openHarness_keepsConfig h

theorem turn_keepsConfig (s : State) : KeepsConfig s s.turn := keepsConfig_of_eq rfl rfl rfl

/-- No step changes the configuration. -/
theorem step_keepsConfig {s s' : State} (h : step s = .next s') : KeepsConfig s s' := by
  obtain rfl | ⟨x, -, -, -, h⟩ | ⟨-, -, a, -, h⟩ := step_cases h
  · exact turn_keepsConfig s
  · exact (turn_keepsConfig s).trans h.keepsConfig
  · exact (turn_keepsConfig s).trans h.keepsConfig

/-- Settles O52, by the cases of a step: every operation keeps the configuration. -/
theorem configurationNeverChanges : Obligations.ConfigurationNeverChanges := by
  intro s s' i b h hb
  obtain ⟨hp, hl, hbuses⟩ := step_keepsConfig h
  exact ⟨hp, hl, hbuses i b hb⟩

end Sys2Proof.Machine
end

section
/-!
SUPPORT. The turns in which a thread holds (R103, R129): what State.fetch comes to in them.
-/

namespace Sys2Proof.Machine

@[simp] theorem turn_txnOf (s : State) (t : Nat) : s.turn.txnOf t = s.txnOf t := rfl
@[simp] theorem turn_requestOf (s : State) (t : Nat) : s.turn.requestOf t = s.requestOf t := rfl

theorem busFaulted_of_fault {s : State} {i : Nat} {b : Bus} (hb : s.buses[i]? = some b) (hf : b.fault ≠ none) :
    s.busFaulted i = true := by
  simpa [State.busFaulted, hb, Option.isSome_iff_ne_none] using hf

theorem harnessWaits_iff {s : State} {x : Txn} :
    s.harnessWaits x = true ↔ x.harness = true ∧ ∃ y ∈ s.txns, y.bus = x.bus ∧ y.harness = false := by
  simp [State.harnessWaits]

theorem fetch_of_blocked {s : State} (h : s.cur ∈ s.blocked) : s.fetch = .done (.next s) := if_pos h

theorem fetch_of_nothing_to_do {s : State} (hx : s.txnOf s.cur = none) (hr : s.requestOf s.cur = none) :
    s.fetch = .done (.next s) := by
  unfold State.fetch
  rw [hx, hr]
  exact ite_self _

/-- Blocked or not, a thread holds when the micro-op of its command in flight does. -/
theorem fetch_of_micro_holds {s : State} {x : Txn} (hx : s.txnOf s.cur = some x)
    (h : s.fetchMicro x = .done (.next s)) : s.fetch = .done (.next s) := by
  unfold State.fetch
  rw [hx]
  dsimp only
  rw [h]
  exact ite_self _

theorem fetchMicro_of_busFaulted {s : State} {x : Txn} (h : s.busFaulted x.bus = true) :
    s.fetchMicro x = .done (.next s) := if_pos h

theorem fetchMicro_of_harnessWaits {s : State} {x : Txn} (hu : x.upc < x.uprog.length)
    (h : s.harnessWaits x = true) : s.fetchMicro x = .done (.next s) := by
  unfold State.fetchMicro
  rw [List.getElem?_eq_getElem hu, h]
  exact ite_self _

theorem step_of_fetch_holds {s : State} (h : s.turn.fetch = .done (.next s.turn)) : step s = .next s.turn := by
  unfold step
  rw [h]

/-- Settles O39: in each of the four cases the fetch of the turn comes to the state after the turn. -/
theorem threadThatCannotStepHolds : Obligations.ThreadThatCannotStepHolds := by
  intro s h
  apply step_of_fetch_holds
  rcases h with hb | ⟨hx, hr⟩ | ⟨x, b, hx, hb, hf⟩ | ⟨x, y, hx, hh, hu, hy, hbus, hny⟩
  · exact fetch_of_blocked hb
  · exact fetch_of_nothing_to_do hx hr
  · exact fetch_of_micro_holds hx (fetchMicro_of_busFaulted (busFaulted_of_fault hb hf))
  · exact fetch_of_micro_holds hx (fetchMicro_of_harnessWaits hu (harnessWaits_iff.2 ⟨hh, y, hy, hbus, hny⟩))

end Sys2Proof.Machine
end

section
/-!
SUPPORT. The drive of a line (R20), a sample whatever the drive (R22), and the state after reset (R37, R119).
-/

namespace Sys2Proof.Machine

theorem drvSda_eq_false_iff (p : Port) : p.drvSda = false ↔ p.sdaMode = .out ∧ p.sdaLat = false := by
  cases h : p.sdaMode <;> simp [Port.drvSda, h]

theorem drvScl_eq_false_iff (p : Port) : p.drvScl = false ↔ p.sclMode = .out ∧ p.sclLat = false := by
  cases h : p.sclMode <;> simp [Port.drvScl, h]

/-- A sample of SDA where the engine drives it low. -/
theorem readSda_of_driven {b : Bus} (t : Nat) (h : b.port.drvSda = false) : (b.readSda t).1 = false := by
  simp [Bus.readSda, h]

/-- A sample of SDA where the engine does not drive it low is the environment's answer. -/
theorem readSda_of_released {b : Bus} (t : Nat) (h : b.port.drvSda = true) : (b.readSda t).1 = b.answer.1 := by
  simp [Bus.readSda, h]

/-- Settles O41: a sample uses one answer of the environment and emits its one event. -/
theorem sampleNeverAboveDrive : Obligations.SampleNeverAboveDrive := by
  intro t b
  obtain ⟨env, draws, hrest, hans⟩ := answer_spec b
  refine ⟨drvSda_eq_false_iff b.port, drvScl_eq_false_iff b.port, readSda_of_driven t, ?_, ?_, env, draws, ?_, ?_⟩
  · intro h v rest he
    exact (readSda_of_released t h).trans (hans v rest he).1
  · intro v rest he
    exact (hans v rest he).1
  · simp [Bus.readSda, emit_eq, hrest, Event.effect]
  · simp [Bus.readScl, emit_eq, hrest, Event.effect]

/-- A constructed bus is in order whatever is in flight: it is not initialised and has no lock (R37). -/
theorem constructed_busInOrder (s : State) (i tHalf : Nat) (p : Pins) :
    s.busInOrder i (Bus.constructed tHalf p) := rfl

theorem constructed_countersInRange {tHalf : Nat} (h : 0 < tHalf) (p : Pins) :
    (Bus.constructed tHalf p).countersInRange :=
  ⟨h, Nat.zero_le _, Nat.zero_le _⟩

theorem mem_reset_buses {b : Bus} (h : b ∈ State.reset.buses) :
    b = Bus.constructed Config.tHalf { scl := 0, sda := 1 } :=
  List.mem_singleton.1 h

theorem reset_engineInv : EngineInv State.reset := by
  have htxns : State.reset.txns = [] := rfl
  have hrequests : State.reset.requests = [] := rfl
  refine ⟨by decide, by simp [hrequests], by simp [htxns], by simp [htxns], by simp [htxns], ?_⟩
  intro i b hb _
  rw [mem_reset_buses (List.mem_of_getElem? hb)]
  exact constructed_busInOrder ..

/-- Settles O43: reset has nothing in flight, an empty memory and one constructed bus. -/
theorem resetMeetsInvariants : Obligations.ResetMeetsInvariants := by
  refine ⟨reset_engineInv, by decide, fun b hb => ?_⟩
  rw [mem_reset_buses hb]
  exact constructed_countersInRange (Nat.succ_pos _) _

end Sys2Proof.Machine
end

section
/-!
SUPPORT. What the events of one micro-op are (R75 to R86) and what they do on the drive trace (R23): the port they
leave, the bus conditions they make and the bits they transmit.
-/

namespace Sys2Proof.Machine

/-! ### Events in sequence -/

/-- The port that events leave, as far as the history tells it (R21, R23). -/
def portAfter (p : Port) (es : List Event) : Port := es.foldl (fun p e => e.onPort p) p

@[simp] theorem portAfter_nil (p : Port) : portAfter p [] = p := rfl

@[simp] theorem portAfter_cons (p : Port) (e : Event) (es : List Event) :
    portAfter p (e :: es) = portAfter (e.onPort p) es := rfl

@[simp] theorem portAfter_append (p : Port) (es fs : List Event) :
    portAfter p (es ++ fs) = portAfter (portAfter p es) fs := List.foldl_append

theorem conditions_append (p : Port) (es fs : List Event) :
    conditions p (es ++ fs) = conditions p es ++ conditions (portAfter p es) fs := by
  induction es generalizing p with
  | nil => rfl
  | cons e es ih => simp only [List.cons_append, conditions, ih, List.append_assoc, portAfter_cons]

/-- An event that leaves the port as it is makes no bus condition. -/
theorem conditions_cons_of_onPort {e : Event} {p : Port} (h : e.onPort p = p) (es : List Event) :
    conditions p (e :: es) = conditions p es := by
  cases hc : p.drvSda <;> simp [conditions, h, hc]

theorem portAfter_rdSda (p : Port) (bits : List Bool) : portAfter p (bits.map .rdSda) = p := by
  induction bits with
  | nil => rfl
  | cons v bits ih => exact ih

theorem conditions_rdSda (p : Port) (bits : List Bool) : conditions p (bits.map .rdSda) = [] := by
  induction bits with
  | nil => rfl
  | cons v bits ih => rw [List.map_cons, conditions_cons_of_onPort rfl, ih]

/-! ### Sent and received bytes -/

theorem portAfter_sendBit (T : Nat) (v : Bool) (p : Port) :
    portAfter p (sendBitEvents T v) = { p with sdaLat := v, sclLat := false } := by
  cases v <;> rfl

theorem portAfter_sendByte (T : Nat) (v : Byte) (p : Port) :
    portAfter p (sendByteEvents T v) = { p with sdaLat := v.getLsbD 0, sclLat := false } := by
  simp [sendByteEvents, wireBits, portAfter_sendBit]

/-- Bits sent while SCL starts low: SDA moves only while SCL is low (R77). -/
theorem conditions_sendBits (T : Nat) (bits : List Bool) (l : Bool) :
    conditions ⟨.out, l, .out, false⟩ (bits.flatMap (sendBitEvents T)) = [] := by
  induction bits generalizing l with
  | nil => rfl
  | cons v bits ih =>
    have hbit : conditions ⟨.out, l, .out, false⟩ (sendBitEvents T v) = [] := by cases l <;> cases v <;> rfl
    rw [List.flatMap_cons, conditions_append, hbit, portAfter_sendBit]
    exact ih v

/-- SCL rises once for each bit, with SDA at the bit (R77). -/
theorem sentBits_sendBits (T : Nat) (bits : List Bool) (l : Bool) :
    sentBits ⟨.out, l, .out, false⟩ (bits.flatMap (sendBitEvents T)) = bits := by
  induction bits generalizing l with
  | nil => rfl
  | cons v bits ih =>
    have hbit (fs : List Event) : sentBits ⟨.out, l, .out, false⟩ (sendBitEvents T v ++ fs) =
        v :: sentBits ⟨.out, v, .out, false⟩ fs := by cases v <;> rfl
    rw [List.flatMap_cons, hbit, ih]

theorem portAfter_receive (T : Nat) {bits : List Bool} (h : bits ≠ []) (p : Port) :
    portAfter p (receiveEvents T bits) = { p with sclLat := false } := by
  induction bits generalizing p with
  | nil => exact absurd rfl h
  | cons v bits ih =>
    cases bits with
    | nil => rfl
    | cons v' bits => exact ih (by simp) { p with sclLat := false }

/-- Bits received with SDA released: the engine moves only SCL (R81). -/
theorem conditions_receive (T : Nat) (bits : List Bool) (l : Bool) :
    conditions ⟨.inp, l, .out, false⟩ (receiveEvents T bits) = [] := by
  induction bits with
  | nil => rfl
  | cons v bits ih => exact ih

/-! ### Micro-ops -/

/-- The events of ACKCHK with its samples, the last one apart (R80). -/
def ackchkEvents (bits : List Bool) (last : Bool) : List Event :=
  [Event.sdaIn, .sclH] ++ (bits ++ [last]).map Event.rdSda ++ [Event.sclL, .sdaOut]

theorem portAfter_ackchk (p : Port) (bits : List Bool) (last : Bool) :
    portAfter p (ackchkEvents bits last) = { p with sdaMode := .out, sclLat := false } := by
  rw [ackchkEvents, portAfter_append, portAfter_append, portAfter_rdSda]
  rfl

/-- The events of RXM with the byte v received for the address a (R81). -/
def rxmEvents (T a : Nat) (v : Byte) : List Event :=
  .sdaIn :: (receiveEvents T ((List.range 8).map fun k => v.getLsbD (7 - k)) ++ [Event.mwr a v, .sdaOut])

theorem portAfter_rxm (T a : Nat) (v : Byte) (p : Port) :
    portAfter p (rxmEvents T a v) = { p with sdaMode := .out, sclLat := false } := by
  rw [rxmEvents, portAfter_cons, portAfter_append, portAfter_receive T (by simp)]
  rfl

/-- The events of a micro-op that completes, on a bus whose T_HALF is T (R75 to R86). -/
inductive OpEvents (T : Nat) : Instr → List Event → Prop
  | idle : OpEvents T .idle [.csOn, .sdaH, .sclH, .csOff]
  | start : OpEvents T .start [.csOn, .dly T, .sdaL, .dly T, .sclL, .dly (2 * T), .csOff]
  | stop : OpEvents T .stop [.csOn, .sdaL, .dly T, .sclH, .dly T, .sdaH, .dly T, .csOff]
  | txi (imm : BitVec 8) : OpEvents T (.txi imm) (sendByteEvents T imm)
  | txm (i : BitVec 24) (a : Nat) (v : Byte) : OpEvents T (.txm i) (.mrd a v :: sendByteEvents T v)
  | ackchk (bits : List Bool) (last : Bool) (hlen : bits.length ≤ 9) (hbits : ∀ v ∈ bits, v = true) :
    OpEvents T .ackchk (ackchkEvents bits last)
  | rxm (i : BitVec 24) (a : Nat) (v : Byte) : OpEvents T (.rxm i) (rxmEvents T a v)
  | sendack : OpEvents T .sendack [.sdaL, .dly T, .sclH, .dly (2 * T), .sdaL, .dly (2 * T), .sclL, .sdaOut]
  | sendnack : OpEvents T .sendnack [.sdaIn, .sclH, .dly T, .sclL, .sdaOut]
  | lock : OpEvents T .lock [.lock]
  | unlock : OpEvents T .unlock [.unlock]

/-- The bus conditions of a micro-op: START and STOP make one each, no other makes any (R94). -/
def ownConditions : Instr → List Condition
  | .start => [.start]
  | .stop => [.stop]
  | _ => []

/-- A port with both lines outputs and SCL low. -/
theorem port_of_clockLow {p : Port} (h : p.sdaMode = .out ∧ p.sclMode = .out ∧ p.sclLat = false) :
    p = ⟨.out, p.sdaLat, .out, false⟩ := by
  obtain ⟨sdaMode, sdaLat, sclMode, sclLat⟩ := p
  obtain ⟨rfl, rfl, rfl⟩ := h
  rfl

/-- From its entry state (R74) a micro-op makes no bus condition but START's and STOP's own (R94). -/
theorem OpEvents.conditions {T : Nat} {i : Instr} {es : List Event} {p : Port} (h : OpEvents T i es)
    (hp : entryState i p) (hidle : i = .idle → p.sdaLat = true ∨ p.sclLat = false) :
    conditions p es = ownConditions i := by
  cases h with
  | lock | unlock => rw [conditions_cons_of_onPort rfl]; rfl
  | idle =>
    obtain ⟨sdaMode, l, sclMode, c⟩ := p
    obtain ⟨rfl, rfl⟩ := hp
    obtain rfl | rfl : l = true ∨ c = false := hidle rfl
    · cases c <;> rfl
    · cases l <;> rfl
  | start =>
    obtain ⟨sdaMode, l, sclMode, c⟩ := p
    obtain ⟨rfl, rfl, rfl, rfl⟩ := hp
    rfl
  | stop | sendack | sendnack =>
    rw [port_of_clockLow hp]
    cases p.sdaLat <;> rfl
  | txi imm =>
    rw [port_of_clockLow hp]
    exact conditions_sendBits T (wireBits imm) p.sdaLat
  | txm i a v =>
    rw [port_of_clockLow hp, conditions_cons_of_onPort rfl]
    exact conditions_sendBits T (wireBits v) p.sdaLat
  | ackchk bits last =>
    rw [port_of_clockLow hp, ackchkEvents, List.append_assoc, conditions_append, conditions_append, conditions_rdSda,
      portAfter_rdSda]
    cases p.sdaLat <;> rfl
  | rxm i a v =>
    rw [port_of_clockLow hp, rxmEvents, ← List.singleton_append, conditions_append, conditions_append]
    have hin : portAfter ⟨.out, p.sdaLat, .out, false⟩ [.sdaIn] = ⟨.inp, p.sdaLat, .out, false⟩ := rfl
    rw [hin, conditions_receive, portAfter_receive T (by simp)]
    cases p.sdaLat <;> rfl

end Sys2Proof.Machine
end

section
/-!
SUPPORT. The phases between micro-ops (R74), and the missed acknowledges that the events of micro-ops show (R80, R91).
-/

namespace Sys2Proof.Machine

/-! ### Phases -/

/-- What a micro-op finds in an expansion: its entry state (R74), for IDLE one in which releasing SDA is no STOP, and
for LOCK and UNLOCK, which have none and do not touch the port, both lines released (R35). -/
def opensOn (i : Instr) (p : Port) : Prop :=
  match i with
  | .lock | .unlock => p = idlePort
  | .idle => entryState .idle p ∧ (p.sdaLat = true ∨ p.sclLat = false)
  | i => entryState i p

/-- A micro-op that found that leaves the port in its phase (R74). -/
theorem OpEvents.phase {T : Nat} {i : Instr} {es : List Event} {p : Port} (h : OpEvents T i es) (hp : opensOn i p) :
    (phaseAfter i).holds (portAfter p es) := by
  cases h with
  | lock | unlock => exact hp
  | idle =>
    obtain ⟨sdaMode, l, sclMode, c⟩ := p
    obtain ⟨⟨rfl, rfl⟩, -⟩ := hp
    rfl
  | start =>
    obtain ⟨hsda, hscl, -, -⟩ := hp
    exact ⟨hsda, hscl, rfl⟩
  | stop =>
    rw [port_of_clockLow hp]
    rfl
  | txi imm =>
    rw [portAfter_sendByte]
    exact ⟨hp.1, hp.2.1, rfl⟩
  | txm i a v =>
    rw [portAfter_cons, portAfter_sendByte]
    exact ⟨hp.1, hp.2.1, rfl⟩
  | ackchk bits last =>
    rw [portAfter_ackchk]
    exact ⟨rfl, hp.2.1, rfl⟩
  | rxm i a v =>
    rw [portAfter_rxm]
    exact ⟨rfl, hp.2.1, rfl⟩
  | sendack | sendnack =>
    rw [port_of_clockLow hp]
    exact ⟨rfl, rfl, rfl⟩

/-! ### Missed acknowledges -/

/-- Where events stop at no sample of 1, the acknowledge checks behind them are counted apart. -/
theorem missedAcks_append {es : List Event} (h : es.getLast? ≠ some (.rdSda true)) (fs : List Event) :
    missedAcks (es ++ fs) = missedAcks es + missedAcks fs := by
  induction es with
  | nil => simp [missedAcks]
  | cons e es ih =>
    cases es with
    | nil =>
      have he : e ≠ .rdSda true := by simpa using h
      simp [missedAcks, he]
    | cons e' es =>
      have ih' := ih (by simpa [List.getLast?_cons_cons] using h)
      have hcons (gs : List Event) : missedAcks (e :: e' :: gs) =
          (if e = .rdSda true ∧ e' = .sclL then 1 else 0) + missedAcks (e' :: gs) := by simp [missedAcks]
      rw [List.cons_append, List.cons_append, hcons, hcons, ← List.cons_append, ih']
      omega

theorem missedAcks_of_no_sample {es : List Event} (h : ∀ e ∈ es, e ≠ .rdSda true) : missedAcks es = 0 := by
  induction es with
  | nil => rfl
  | cons e es ih =>
    rw [List.forall_mem_cons] at h
    simp [missedAcks, h.1, ih h.2]

/-- The last sample of an acknowledge check decides it (R80). -/
theorem missedAcks_samples (bits : List Bool) (last : Bool) :
    missedAcks ((bits ++ [last]).map Event.rdSda ++ [Event.sclL, .sdaOut]) = if last then 1 else 0 := by
  induction bits with
  | nil => cases last <;> rfl
  | cons v bits ih =>
    have hhead : ((bits ++ [last]).map Event.rdSda ++ [Event.sclL, Event.sdaOut]).head? ≠ some .sclL := by
      cases bits <;> simp
    rw [List.cons_append, List.map_cons, List.cons_append, missedAcks, ih, if_neg fun hc => hhead hc.2, Nat.zero_add]

theorem missedAcks_ackchk (bits : List Bool) (last : Bool) :
    missedAcks (ackchkEvents bits last) = if last then 1 else 0 := by
  rw [ackchkEvents, List.append_assoc, missedAcks_append (by simp), missedAcks_samples]
  simp [missedAcks]

theorem missedAcks_receive (T : Nat) (bits : List Bool) (fs : List Event) :
    missedAcks (receiveEvents T bits ++ fs) = missedAcks fs := by
  induction bits with
  | nil => rfl
  | cons v bits ih =>
    rw [← ih]
    simp [receiveEvents, missedAcks]

theorem sendByteEvents_no_sample (T : Nat) (v : Byte) : ∀ e ∈ sendByteEvents T v, e ≠ .rdSda true := by
  intro e he
  obtain ⟨bit, -, he⟩ := List.mem_flatMap.1 he
  rintro rfl
  cases bit <;> simp [sendBitEvents, setSda] at he

/-- Only ACKCHK can miss an acknowledge. -/
theorem OpEvents.missedAcks_eq_zero {T : Nat} {i : Instr} {es : List Event} (h : OpEvents T i es) (hi : i ≠ .ackchk) :
    missedAcks es = 0 := by
  cases h with
  | ackchk => exact absurd rfl hi
  | txi imm => exact missedAcks_of_no_sample (sendByteEvents_no_sample T imm)
  | txm i a v =>
    refine missedAcks_of_no_sample (List.forall_mem_cons.2 ⟨?_, sendByteEvents_no_sample T v⟩)
    exact Event.noConfusion
  | rxm i a v =>
    rw [rxmEvents, missedAcks, missedAcks_receive]
    simp [missedAcks]
  | _ => simp [missedAcks]

/-- No micro-op ends in a sample. -/
theorem OpEvents.getLast?_ne {T : Nat} {i : Instr} {es : List Event} (h : OpEvents T i es) :
    es.getLast? ≠ some (.rdSda true) := by
  cases h with
  | txi imm => exact fun hl => sendByteEvents_no_sample T imm _ (List.mem_of_getLast? hl) rfl
  | txm i a v =>
    intro hl
    rcases List.mem_cons.1 (List.mem_of_getLast? hl) with hl | hl
    · cases hl
    · exact sendByteEvents_no_sample T v _ hl rfl
  | ackchk =>
    rw [ackchkEvents, List.getLast?_append]
    simp
  | rxm =>
    rw [rxmEvents, ← List.cons_append, List.getLast?_append]
    simp
  | _ => simp

end Sys2Proof.Machine
end

section
/-!
SUPPORT. What an instruction does to the bus it acts on: what every instruction keeps, whole or in part, and what a
micro-op that completes leaves.
-/

namespace Sys2Proof.Machine

/-- From b to b' an instruction i ran, whole or up to a fault: the history grew, FAULT is the same, the
counters are in range if they were, and INITD and the lock changed only if i may change them (R17, R18). -/
structure Bus.Went (i : Instr) (b b' : Bus) : Prop where
  hist : b.hist <+: b'.hist
  fault : b'.fault = b.fault
  initd : i ≠ .init → i ≠ .deinit → b'.initd = b.initd
  lock : i ≠ .lock → i ≠ .unlock → i ≠ .init → i ≠ .deinit → b'.lock = b.lock
  counters : b.countersInRange → b'.countersInRange

/-- The lock after micro-op i of thread t (R85, R86). -/
def lockAfter (i : Instr) (t : Nat) (l : LockState) : LockState :=
  match i with
  | .lock => .held t
  | .unlock => .free
  | _ => l

/-- From b to b' micro-op i of thread t completed with the events es: they are in the history and give the port. -/
structure Bus.Ran (i : Instr) (t : Nat) (es : List Event) (b b' : Bus) : Prop where
  events : OpEvents b.tHalf i es
  hist : b'.hist = b.hist ++ tagged t es
  port : b'.port = portAfter b.port es
  lock : b'.lock = lockAfter i t b.lock
  initd : b'.initd = b.initd
  fault : b'.fault = b.fault
  tHalf : b'.tHalf = b.tHalf
  counters : b.countersInRange → b'.countersInRange

theorem lockAfter_of_ne {i : Instr} (h : i ≠ .lock) (h' : i ≠ .unlock) (t : Nat) (l : LockState) :
    lockAfter i t l = l := by
  cases i with
  | lock => exact absurd rfl h
  | unlock => exact absurd rfl h'
  | _ => rfl

theorem Bus.Ran.went {i : Instr} {t : Nat} {es : List Event} {b b' : Bus} (h : b.Ran i t es b') : b.Went i b' where
  hist := h.hist ▸ List.prefix_append ..
  fault := h.fault
  initd _ _ := h.initd
  lock hl hu _ _ := h.lock.trans (lockAfter_of_ne hl hu t b.lock)
  counters := h.counters

theorem Bus.Went.refl (i : Instr) (b : Bus) : b.Went i b :=
  ⟨List.prefix_rfl, rfl, fun _ _ => rfl, fun _ _ _ _ => rfl, id⟩

theorem went_result (i : Instr) (r : Option Bool) (b : Bus) : b.Went i { b with result := r } :=
  ⟨List.prefix_rfl, rfl, fun _ _ => rfl, fun _ _ _ _ => rfl, id⟩

theorem went_idx (i : Instr) (n : Nat) (b : Bus) : b.Went i { b with idx := n } :=
  ⟨List.prefix_rfl, rfl, fun _ _ => rfl, fun _ _ _ _ => rfl, id⟩

theorem went_mrd (i : Instr) (n t a : Nat) (v : Byte) (b : Bus) :
    b.Went i (({ b with idx := n } : Bus).emit t (.mrd a v)) :=
  ⟨List.prefix_append .., rfl, fun _ _ => rfl, fun _ _ _ _ => rfl, id⟩

/-! ### The lifecycle commands -/

theorem went_initialise (t : Nat) (b : Bus) : b.Went .init (b.initialise t) := by
  obtain ⟨busy, env, draws, -, h⟩ := initialise_spec t b
  rw [h]
  exact ⟨List.prefix_append .., rfl, fun h => absurd rfl h, fun _ _ h => absurd rfl h, id⟩

theorem went_deinitialise (t : Nat) (b : Bus) : b.Went .deinit (b.deinitialise t) :=
  ⟨List.prefix_append .., rfl, fun _ h => absurd rfl h, fun _ _ _ h => absurd rfl h,
    fun h => ⟨h.1, Nat.zero_le _, Nat.zero_le _⟩⟩

/-! ### The micro-ops -/

/-- The events that act on nothing but the pin port (R21). -/
def actsOnPortOnly : Event → Bool
  | .busy _ | .prel | .lock | .unlock | .fault _ => false
  | _ => true

theorem effect_of_actsOnPortOnly {e : Event} (h : actsOnPortOnly e = true) (t : Nat) (b : Bus) :
    e.effect t b = { b with port := e.onPort b.port } := by
  cases e with
  | busy | prel | lock | unlock | fault => cases h
  | _ => rfl

theorem applyEffects_of_actsOnPortOnly {es : List Event} (h : es.all actsOnPortOnly = true) (t : Nat) (b : Bus) :
    applyEffects t es b = { b with port := portAfter b.port es } := by
  induction es generalizing b with
  | nil => rfl
  | cons e es ih =>
    rw [List.all_cons, Bool.and_eq_true] at h
    have hcons : applyEffects t (e :: es) b = applyEffects t es (e.effect t b) := rfl
    rw [hcons, effect_of_actsOnPortOnly h.1, ih h.2, portAfter_cons]

/-- A micro-op that only emits events that act on the port. -/
theorem ran_emits {i : Instr} {b : Bus} {es : List Event} (hes : OpEvents b.tHalf i es)
    (h : es.all actsOnPortOnly = true) (hl : i ≠ .lock) (hu : i ≠ .unlock) (t : Nat) :
    b.Ran i t es (b.emits t es) := by
  rw [emits_eq, applyEffects_of_actsOnPortOnly h]
  exact ⟨hes, rfl, rfl, (lockAfter_of_ne hl hu t b.lock).symm, rfl, rfl, rfl, id⟩

theorem ran_lock (t : Nat) (b : Bus) : b.Ran .lock t [.lock] (b.emit t .lock) :=
  ⟨.lock, rfl, rfl, rfl, rfl, rfl, rfl, id⟩

theorem ran_unlock (t : Nat) (b : Bus) : b.Ran .unlock t [.unlock] (b.emit t .unlock) :=
  ⟨.unlock, rfl, rfl, rfl, rfl, rfl, rfl, id⟩

theorem ran_txi (imm : BitVec 8) (t : Nat) (b : Bus) :
    b.Ran (.txi imm) t (sendByteEvents b.tHalf imm) (b.txbyte t imm) := by
  rw [txbyte_eq]
  exact ⟨.txi imm, rfl, (portAfter_sendByte ..).symm, rfl, rfl, rfl, rfl, fun h => ⟨h.1, le_rfl, h.2.2⟩⟩

theorem ran_txm (i : BitVec 24) (t a : Nat) (v : Byte) (b : Bus) :
    b.Ran (.txm i) t (.mrd a v :: sendByteEvents b.tHalf v)
      ((({ b with idx := i.toNat } : Bus).emit t (.mrd a v)).txbyte t v) := by
  rw [txbyte_eq, emit_eq]
  refine ⟨.txm i a v, List.append_assoc .., ?_, rfl, rfl, rfl, rfl, fun h => ⟨h.1, le_rfl, h.2.2⟩⟩
  rw [portAfter_cons, portAfter_sendByte]
  rfl

theorem ran_ackchk (t : Nat) (b : Bus) :
    ∃ (bits : List Bool) (last : Bool), (b.ackchk t).1 = !last ∧
      b.Ran .ackchk t (ackchkEvents bits last) (b.ackchk t).2 := by
  obtain ⟨bits, last, env, draws, hlen, hbits, -, h, -⟩ := ackchk_spec t b
  refine ⟨bits, last, by rw [h], ?_⟩
  rw [h]
  exact ⟨.ackchk bits last hlen hbits, rfl, (portAfter_ackchk ..).symm, rfl, rfl, rfl, rfl,
    fun hc => ⟨hc.1, hc.2.1, Nat.succ_le_succ hlen⟩⟩

/-- The receiving part of RXM, at whose end it may still fault (R81). -/
theorem went_receive (i : BitVec 24) (t : Nat) (b : Bus) :
    b.Went (.rxm i)
      (({ ({ b with idx := i.toNat } : Bus).emit t .sdaIn with shift := 0, bitcnt := 0 } : Bus).rxbits t 8) := by
  obtain ⟨v, env, draws, h, -⟩ := receive_spec i t b
  rw [h]
  exact ⟨List.prefix_append .., rfl, fun _ _ => rfl, fun _ _ _ _ => rfl, fun h => ⟨h.1, le_rfl, h.2.2⟩⟩

theorem ran_rxm (i : BitVec 24) (t a : Nat) (b : Bus) :
    let c := ({ ({ b with idx := i.toNat } : Bus).emit t .sdaIn with shift := 0, bitcnt := 0 } : Bus).rxbits t 8
    ∃ es, b.Ran (.rxm i) t es ((c.emit t (.mwr a c.shift)).emits t [.sdaOut]) ∧
      b.Went (.rxm i) (c.emit t (.mwr a c.shift)) := by
  obtain ⟨v, env, draws, h, -⟩ := receive_spec i t b
  dsimp only
  rw [h]
  refine ⟨rxmEvents b.tHalf a v,
    ⟨.rxm i a v, ?_, ?_, rfl, rfl, rfl, rfl, fun hc => ⟨hc.1, le_rfl, hc.2.2⟩⟩,
    ⟨?_, rfl, fun _ _ => rfl, fun _ _ _ _ => rfl, fun hc => ⟨hc.1, le_rfl, hc.2.2⟩⟩⟩
  · simp [emits_eq, emit_eq, rxmEvents]
  · rw [portAfter_rxm]
    rfl
  · exact (List.prefix_append ..).trans (List.prefix_append ..)

end Sys2Proof.Machine
end

section
/-!
SUPPORT. Everything an instruction can do, said once: `exec_next`, the inversion of exec for all nineteen instructions.
-/

namespace Sys2Proof.Machine

/-- The bus an instruction acts on (R36): a micro-op on that of the current command, a command on that its
descriptor names. -/
def ActsOn (i : Instr) (s : State) (k : Nat) : Prop :=
  match i.format with
  | .uop => ∃ x, s.txnOf s.cur = some x ∧ x.bus = k
  | .cmd => s.desc.bus = some k

/-- The micro-ops that access host memory (R41). -/
def Accesses (i : Instr) : Prop := (∃ j, i = .txm j) ∨ ∃ j, i = .rxm j

/-- From s to s' an access of thread t's agent was seen (R49): addresses are logged for other threads' commands, buses
are faulted with BUF_RACE, threads stop, memory may change; nothing else does. -/
structure Touched (t : Nat) (s s' : State) : Prop where
  params : s'.params = s.params
  requests : s'.requests = s.requests
  returns : s'.returns = s.returns
  refusal : s'.refusal = s.refusal
  noBusHist : s'.noBusHist = s.noBusHist
  cur : s'.cur = s.cur
  blocked : ∀ u ∈ s.blocked, u ∈ s'.blocked
  txns : ∃ f : Txn → Txn, (∀ y, f y = { y with raced := (f y).raced }) ∧ (∀ y, y.thread = t → f y = y) ∧
    s'.txns = s.txns.map f
  buses : ∀ k : Nat, s'.buses[k]? = s.buses[k]? ∨
    ∃ (b : Bus) (u : Nat), s.buses[k]? = some b ∧ b.fault = none ∧ s'.buses[k]? = some (b.faulted u .bufRace)

/-- From x to y the command of a micro-op that completed with the events es: UPC is one more, and FAIL is set by an
acknowledge check that saw no acknowledge (R28, R73). -/
def Txn.Continued (es : List Event) (x y : Txn) : Prop :=
  y = { x with upc := x.upc + 1, ack := y.ack, fail := x.fail || decide (0 < missedAcks es) }

/-- A lifecycle command or a failed precondition from b to b': port, lock and INITD are the same, or they are those of
INIT's or DEINIT's end (R101, R102). -/
def Bus.Answered (b b' : Bus) : Prop :=
  (b'.port = b.port ∧ b'.lock = b.lock ∧ b'.initd = b.initd) ∨
  (b.initd = false ∧ b'.initd = true ∧ b'.lock = .free ∧ b'.port = idlePort) ∨
  (b.lock = .free ∧ b'.initd = false ∧ b'.lock = .absent)

/-- Every next state of instruction i from s. -/
inductive ExecNext (i : Instr) (s : State) : State → Prop
  | hold : ExecNext i s s
  | refused (r : RefuseReason) : ExecNext i s (s.refuse r)
  | noInstance : ExecNext i s (s.raiseNoBus s.cur .nullBus)
  | nullBus : ExecNext i s (s.ret none (.code .eNullBus))
  | answered {k : Nat} {b b' : Bus} {c : Code} (hk : ActsOn i s k) (hb : s.buses[k]? = some b) (hf : b.fault = none)
    (hw : b.Went i b') (ha : b.Answered b') : ExecNext i s ((s.setBus k b').ret (some k) (.code c))
  | accepted {k : Nat} {b : Bus} {op : TxnOp} {dev : BitVec 7} {reg : BitVec 16} (hi : i.format = .cmd)
    (hb : s.buses[k]? = some b) (hop : op.hasBuffer = true → 1 ≤ s.desc.count ∧ s.desc.buf ≠ 0) :
    ExecNext i s (s.accept k op dev reg)
  | raised {k : Nat} {b c : Bus} {r : FaultReason} (hk : ActsOn i s k) (hb : s.buses[k]? = some b)
    (hf : b.fault = none) (hw : b.Went i c) : ExecNext i s (s.withFault k c s.cur r)
  | completed {T : State} {x x' : Txn} {b b' : Bus} {es : List Event} (hi : i.format = .uop) (hx : InFlight s x b)
    (hT : T = s ∨ Accesses i ∧ Touched x.thread s T) (hb : T.buses[x.bus]? = some b) (hr : b.Ran i x.thread es b')
    (hx' : x.Continued es x') (hl : i = .lock → b.initd = true ∧ b.lock = .free) :
    ExecNext i s (T.afterMicroOp x b' x')
  | raced {T : State} {x : Txn} {b c : Bus} {u : Nat} (hi : i.format = .uop) (hx : InFlight s x b) (ha : Accesses i)
    (hT : Touched x.thread s T) (hb : T.buses[x.bus]? = some b) (hw : b.Went i c) :
    ExecNext i s (T.withBusOnly x.bus (c.faulted u .bufRace))

/-! ### Accesses -/

theorem touch_touched (s : State) (t : Nat) (w : Bool) (a : Nat) : Touched t s (s.touch t w a) := by
  obtain ⟨hframe, hbuses, -, hblocked⟩ := touch_spec s t w a
  rw [hframe]
  refine ⟨rfl, rfl, rfl, rfl, rfl, rfl, hblocked, ⟨_, noteTouch_raced t w a, fun _ => noteTouch_own, rfl⟩, fun k => ?_⟩
  rcases hbuses k with h | ⟨b, y, -, -, -, hb, hf, h⟩
  · exact .inl h
  · exact .inr ⟨b, y.thread, hb, hf, h⟩

/-- A command looked up after an access was seen: only its log may be longer. -/
theorem Touched.txnOf {t : Nat} {s s' : State} (h : Touched t s s') :
    ∃ f : Txn → Txn, (∀ y, f y = { y with raced := (f y).raced }) ∧ (∀ y, y.thread = t → f y = y) ∧
      s'.txns = s.txns.map f ∧ ∀ u, s'.txnOf u = (s.txnOf u).map f := by
  obtain ⟨f, hf, hown, htxns⟩ := h.txns
  refine ⟨f, hf, hown, htxns, fun u => ?_⟩
  rw [State.txnOf, htxns]
  exact find_thread_map fun y _ => by rw [hf y]

theorem getElem?_set_self_of_some {α : Type} {l : List α} {k : Nat} {v : α} (h : l[k]? = some v) (v' : α) :
    (l.set k v')[k]? = some v' :=
  List.getElem?_set_self (List.getElem?_eq_some_iff.1 h).1

theorem withBusOnly_withBusOnly (s : State) (k : Nat) (b b' : Bus) :
    (s.withBusOnly k b).withBusOnly k b' = s.withBusOnly k b' := by
  simp [State.withBusOnly]

theorem withBusOnly_of_some {s : State} {k : Nat} {b : Bus} (h : s.buses[k]? = some b) : s.withBusOnly k b = s := by
  obtain ⟨hk, rfl⟩ := List.getElem?_eq_some_iff.1 h
  rw [State.withBusOnly, List.set_getElem_self hk]

/-- An access seen after bus k was replaced is an access seen before, and then bus k is the replacement,
faulted with BUF_RACE or not. -/
theorem touch_setBus {s : State} {k t : Nat} {b : Bus} (hb : s.buses[k]? = some b) (c : Bus) (mem : List Host.Cell)
    (w : Bool) (a : Nat) :
    ∃ T, Touched t s T ∧ T.buses[k]? = some b ∧
      ∃ c', (c' = c ∨ ∃ u, c' = c.faulted u .bufRace) ∧
        ({ s.setBus k c with mem := mem } : State).touch t w a = T.withBusOnly k c' := by
  set s2 : State := { s.setBus k c with mem := mem }
  have hc : s2.buses[k]? = some c := getElem?_set_self_of_some hb c
  obtain ⟨hp, hreq, hret, href, hnb, hcur, hbl, htx, hbuses⟩ := touch_touched s2 t w a
  obtain ⟨c', hc', hT⟩ : ∃ c', (c' = c ∨ ∃ u, c' = c.faulted u .bufRace) ∧ (s2.touch t w a).buses[k]? = some c' := by
    rcases hbuses k with h | ⟨d, u, hd, -, h⟩
    · exact ⟨c, .inl rfl, h.trans hc⟩
    · obtain rfl : c = d := Option.some.inj (hc.symm.trans hd)
      exact ⟨_, .inr ⟨u, rfl⟩, h⟩
  have hTb : ((s2.touch t w a).withBusOnly k b).buses[k]? = some b := getElem?_set_self_of_some hT b
  refine ⟨(s2.touch t w a).withBusOnly k b, ⟨hp, hreq, hret, href, hnb, hcur, hbl, htx, fun j => ?_⟩, hTb, c', hc', ?_⟩
  · by_cases hj : k = j
    · subst hj
      exact .inl (hTb.trans hb.symm)
    · have hafter : ((s2.touch t w a).withBusOnly k b).buses[j]? = (s2.touch t w a).buses[j]? := List.getElem?_set_ne hj
      have hbefore : s2.buses[j]? = s.buses[j]? := List.getElem?_set_ne hj
      rw [hafter, ← hbefore]
      exact hbuses j
  · rw [withBusOnly_withBusOnly, withBusOnly_of_some hT]

/-- The end of TXM and RXM: the access, made with bus c, is seen by other commands, and unless that faults the
bus itself, f is the rest of the micro-op. -/
theorem access_next {i : Instr} {s : State} {x : Txn} {b c : Bus} {mem : List Host.Cell} {w : Bool} {a : Nat}
    {f : Bus → Bus} {es : List Event} (hi : i.format = .uop) (ha : Accesses i) (hx : InFlight s x b)
    (hw : b.Went i c) (hr : b.Ran i x.thread es (f c)) (hes : missedAcks es = 0) :
    ExecNext i s ((({ s.setBus x.bus c with mem := mem } : State).touch x.thread w a).carryOn x f) := by
  obtain ⟨-, hb, hf⟩ := id hx
  have hcf : c.fault = none := hw.fault.trans hf
  obtain ⟨T, hT, hTb, c', hc', htouch⟩ := touch_setBus (t := x.thread) hb c mem w a
  have hTc : (T.withBusOnly x.bus c').buses[x.bus]? = some c' := getElem?_set_self_of_some hTb c'
  rw [htouch]
  unfold State.carryOn
  rw [hTc]
  obtain rfl | ⟨u, rfl⟩ := hc'
  · have hafter : ((T.withBusOnly x.bus c').setBus x.bus (f c')).advance x =
        T.afterMicroOp x (f c') { x with upc := x.upc + 1 } := by
      rw [setBus_advance]
      simp [State.afterMicroOp, State.withBusOnly]
    simp only [hcf, Option.isSome_none, Bool.false_eq_true, if_false, hafter]
    refine .completed hi hx (.inr ⟨ha, hT⟩) hTb hr (by simp [Txn.Continued, hes]) ?_
    rintro rfl
    obtain ⟨j, h⟩ | ⟨j, h⟩ := ha <;> cases h
  · exact .raced hi hx ha hT hTb hw

/-! ### Each instruction -/

/-- A micro-op with nothing left to do, or with a command in flight on an unfaulted bus. -/
theorem withCommand_next {i : Instr} {s s' : State} {f : Txn → Bus → State}
    (hf : ∀ x b, InFlight s x b → ExecNext i s (f x b)) (h : s.withCommand f = .next s') : ExecNext i s s' := by
  obtain ⟨x, b, hx, hb, ⟨-, rfl⟩ | ⟨hfault, rfl⟩⟩ := withCommand_cases h
  · exact .hold
  · exact hf x b ⟨hx, hb, hfault⟩

/-- A micro-op that completes with its access seen by no other command, or without one. -/
theorem afterMicroOp_next {i : Instr} {s : State} {x x' : Txn} {b b' : Bus} {es : List Event} (hi : i.format = .uop)
    (hx : InFlight s x b) (hr : b.Ran i x.thread es b') (hx' : x.Continued es x')
    (hl : i = .lock → b.initd = true ∧ b.lock = .free) : ExecNext i s (s.afterMicroOp x b' x') :=
  .completed hi hx (.inl rfl) hx.2.1 hr hx' hl

theorem continued_of_ran {i : Instr} {t : Nat} {es : List Event} {b b' : Bus} (h : b.Ran i t es b') (hi : i ≠ .ackchk)
    (x : Txn) : x.Continued es { x with upc := x.upc + 1 } := by
  simp [Txn.Continued, h.events.missedAcks_eq_zero hi]

theorem busMicroOp_next {i : Instr} {s s' : State} {f : Txn → Bus → Bus} (hi : i.format = .uop) (hne : i ≠ .ackchk)
    (hl : i ≠ .lock) (hf : ∀ (x : Txn) (b : Bus), ∃ es, b.Ran i x.thread es (f x b))
    (h : s.busMicroOp f = .next s') : ExecNext i s s' := by
  refine withCommand_next (fun x b hx => ?_) h
  obtain ⟨es, hr⟩ := hf x b
  exact afterMicroOp_next hi hx hr (continued_of_ran hr hne x) fun h => absurd h hl

/-- A fault of the micro-op of the current thread. -/
theorem withFault_next {i : Instr} {s : State} {x : Txn} {b c : Bus} (hi : i.format = .uop) (hx : InFlight s x b)
    (hw : b.Went i c) (r : FaultReason) : ExecNext i s (s.withFault x.bus c x.thread r) := by
  rw [hx.thread]
  refine .raised ?_ hx.2.1 hx.2.2 hw
  rw [ActsOn, hi]
  exact ⟨x, hx.1, rfl⟩

theorem raise_setBus_next {i : Instr} {s : State} {x : Txn} {b c : Bus} (hi : i.format = .uop) (hx : InFlight s x b)
    (hw : b.Went i c) (r : FaultReason) : ExecNext i s ((s.setBus x.bus c).raise x.bus x.thread r) := by
  rw [raise_setBus (List.getElem?_eq_some_iff.1 hx.2.1).1 (hw.fault.trans hx.2.2)]
  exact withFault_next hi hx hw r

theorem execTxm_next {j : BitVec 24} {s s' : State} (h : execTxm j s = .next s') : ExecNext (.txm j) s s' := by
  refine withCommand_next (fun x b hx => ?_) h
  dsimp only
  split_ifs
  · exact .refused .indexRange
  · exact raise_setBus_next rfl hx (went_idx _ j.toNat b) .bufRange
  · exact raise_setBus_next rfl hx (went_idx _ j.toNat b) .bufRace
  · have hr := ran_txm j x.thread (x.cmd.bufAddr j.toNat) (s.readByte (x.cmd.bufAddr j.toNat)) b
    exact access_next (mem := s.mem) rfl (.inl ⟨j, rfl⟩) hx (went_mrd ..) hr (hr.events.missedAcks_eq_zero (by simp))

theorem execRxm_next {j : BitVec 24} {s s' : State} (h : execRxm j s = .next s') : ExecNext (.rxm j) s s' := by
  refine withCommand_next (fun x b hx => ?_) h
  dsimp only
  split_ifs
  · exact .refused .indexRange
  · exact raise_setBus_next rfl hx (went_receive j x.thread b) .bufRange
  · exact raise_setBus_next rfl hx (went_receive j x.thread b) .bufRace
  · obtain ⟨es, hr, hw⟩ := ran_rxm j x.thread (x.cmd.bufAddr j.toNat) b
    exact access_next rfl (.inr ⟨j, rfl⟩) hx hw hr (hr.events.missedAcks_eq_zero (by simp))

/-- ACKCHK on its bus and on its command: FAIL is set by a last sample of 1 (R80). -/
theorem ackchk_continued (x : Txn) (b : Bus) :
    ∃ es, b.Ran .ackchk x.thread es (b.ackchk x.thread).2 ∧
      x.Continued es { x.withAck (b.ackchk x.thread).1 with upc := x.upc + 1 } := by
  obtain ⟨bits, last, hack, hr⟩ := ran_ackchk x.thread b
  refine ⟨_, hr, ?_⟩
  rw [Txn.Continued, missedAcks_ackchk, hack]
  cases last <;> simp [Txn.withAck]

theorem execAckchk_next {s s' : State} (h : execAckchk s = .next s') : ExecNext .ackchk s s' := by
  refine withCommand_next (fun x b hx => ?_) h
  obtain ⟨es, hr, hx'⟩ := ackchk_continued x b
  exact afterMicroOp_next rfl hx hr hx' (by simp)

theorem execLock_next {s s' : State} (h : execLock s = .next s') : ExecNext .lock s s' := by
  refine withCommand_next (fun x b hx => ?_) h
  split_ifs with hinit hfree
  · rw [raise_unfaulted hx.2.1 hx.2.2]
    exact withFault_next rfl hx (.refl ..) .notInit
  · have hr := ran_lock x.thread b
    exact afterMicroOp_next rfl hx hr (continued_of_ran hr (by simp) x) fun _ => ⟨by simpa using hinit, hfree⟩
  · exact .hold

theorem execUnlock_next {s s' : State} (h : execUnlock s = .next s') : ExecNext .unlock s s' := by
  refine withCommand_next (fun x b hx => ?_) h
  split_ifs
  · have hr := ran_unlock x.thread b
    exact afterMicroOp_next rfl hx hr (continued_of_ran hr (by simp) x) (by simp)
  · exact .hold

/-- A fault of a command on the bus of its descriptor. -/
theorem raise_next {i : Instr} {s : State} {k : Nat} {b : Bus} (hk : ActsOn i s k) (hb : s.buses[k]? = some b)
    (hf : b.fault = none) (r : FaultReason) : ExecNext i s (s.raise k s.cur r) := by
  rw [raise_unfaulted hb hf]
  exact .raised hk hb hf (.refl i b)

theorem answered_initialise (t : Nat) {b : Bus} (h : b.initd = false) : b.Answered (b.initialise t) := by
  obtain ⟨busy, env, draws, -, hi⟩ := initialise_spec t b
  rw [hi]
  exact .inr (.inl ⟨h, rfl, rfl, rfl⟩)

theorem execInit_next {s s' : State} (h : execInit s = .next s') : ExecNext .init s s' := by
  unfold execInit at h
  split at h
  · cases h
    exact .noInstance
  · rename_i k hk
    split at h
    · cases h
    · rename_i b hb
      cases h
      split_ifs with hf hinit
      · exact .hold
      · exact raise_next (i := .init) hk hb (by simpa using hf) .reInit
      · exact .answered hk hb (by simpa using hf) (went_initialise s.cur b)
          (answered_initialise s.cur (by simpa using hinit))

theorem execDeinit_next {s s' : State} (h : execDeinit s = .next s') : ExecNext .deinit s s' := by
  unfold execDeinit at h
  split at h
  · cases h
    exact .noInstance
  · rename_i k hk
    split at h
    · cases h
    · rename_i b hb
      cases h
      split_ifs with hf hinit hfree
      · exact .hold
      · exact raise_next (i := .deinit) hk hb (by simpa using hf) .notInit
      · exact raise_next (i := .deinit) hk hb (by simpa using hf) .deinitBusy
      · exact .answered hk hb (by simpa using hf) (went_deinitialise s.cur b)
          (.inr (.inr ⟨by simpa using hfree, rfl, rfl⟩))

theorem failPrecondition_next {i : Instr} {s : State} {k : Nat} {b : Bus} (hk : ActsOn i s k)
    (hb : s.buses[k]? = some b) (hf : b.fault = none) (c : Code) : ExecNext i s (s.failPrecondition k c) := by
  rw [State.failPrecondition, onBus_unfaulted hb hf]
  exact .answered hk hb hf (went_result ..) (.inl ⟨rfl, rfl, rfl⟩)

theorem issueTxn_next {i : Instr} {s s' : State} {op : TxnOp} {dev : BitVec 7} {reg : BitVec 16}
    (hi : i.format = .cmd) (h : s.issueTxn op dev reg = .next s') : ExecNext i s s' := by
  unfold State.issueTxn at h
  split at h
  · cases h
    exact .nullBus
  · rename_i k hdesc
    have hk : ActsOn i s k := by rwa [ActsOn, hi]
    split at h
    · cases h
    · rename_i b hb
      cases h
      split_ifs with hf hcount hbuf hinit
      · exact .hold
      · exact failPrecondition_next hk hb (by simpa using hf) .eZeroCount
      · exact failPrecondition_next hk hb (by simpa using hf) .eNullBuf
      · exact raise_next hk hb (by simpa using hf) .notInit
      · refine .accepted hi hb fun hop => ?_
        simp only [hop, Bool.true_and, decide_eq_true_eq] at hcount hbuf
        exact ⟨Nat.one_le_iff_ne_zero.2 hcount, hbuf⟩

/-- Everything an instruction can do when it answers a next state. -/
theorem exec_next {i : Instr} {s s' : State} (h : exec i s = .next s') : ExecNext i s s' := by
  cases i with
  | init => exact execInit_next h
  | deinit => exact execDeinit_next h
  | probe | read8 | read16 | readna | write8 | write16 => exact issueTxn_next rfl h
  | idle =>
    exact busMicroOp_next rfl (by simp) (by simp) (fun x _ => ⟨_, ran_emits .idle rfl (by simp) (by simp) x.thread⟩) h
  | start =>
    exact busMicroOp_next rfl (by simp) (by simp) (fun x _ => ⟨_, ran_emits .start rfl (by simp) (by simp) x.thread⟩) h
  | stop =>
    exact busMicroOp_next rfl (by simp) (by simp) (fun x _ => ⟨_, ran_emits .stop rfl (by simp) (by simp) x.thread⟩) h
  | sendack =>
    exact busMicroOp_next rfl (by simp) (by simp) (fun x _ => ⟨_, ran_emits .sendack rfl (by simp) (by simp) x.thread⟩) h
  | sendnack =>
    exact busMicroOp_next rfl (by simp) (by simp) (fun x _ => ⟨_, ran_emits .sendnack rfl (by simp) (by simp) x.thread⟩) h
  | txi imm => exact busMicroOp_next rfl (by simp) (by simp) (fun x b => ⟨_, ran_txi imm x.thread b⟩) h
  | txm => exact execTxm_next h
  | ackchk => exact execAckchk_next h
  | rxm => exact execRxm_next h
  | lock => exact execLock_next h
  | unlock => exact execUnlock_next h

end Sys2Proof.Machine
end

section
/-!
SUPPORT. What an instruction and a step do to each bus (R31, R32, R36), to the marks of a refused or faulted run, and
to the commands in flight.
-/

namespace Sys2Proof.Machine

/-! ### Buses -/

/-- What instruction i can make of bus k, which is b. -/
inductive BusNext (i : Instr) (s : State) (k : Nat) (b : Bus) : Bus → Prop
  | same : BusNext i s k b b
  | went {c : Bus} (hk : ActsOn i s k) (hf : b.fault = none) (hw : b.Went i c) : BusNext i s k b c
  | faulted {c : Bus} {u : Nat} {r : FaultReason} (hk : ActsOn i s k) (hf : b.fault = none) (hw : b.Went i c) :
    BusNext i s k b (c.faulted u r)
  | raced {u : Nat} (hf : b.fault = none) (ha : Accesses i) : BusNext i s k b (b.faulted u .bufRace)

theorem actsOn_of_inFlight {i : Instr} {s : State} {x : Txn} {b : Bus} (hi : i.format = .uop) (hx : InFlight s x b) :
    ActsOn i s x.bus := by
  rw [ActsOn, hi]
  exact ⟨x, hx.1, rfl⟩

/-- Replacing one bus of a list: it is the replacement, the others are as before. -/
theorem forall_getElem?_set {l : List Bus} {j : Nat} {c : Bus} {P : Nat → Bus → Bus → Prop}
    (hj : ∀ b, l[j]? = some b → P j b c) (hrest : ∀ k b, l[k]? = some b → P k b b) (k : Nat) (b : Bus)
    (hb : l[k]? = some b) : ∃ b', (l.set j c)[k]? = some b' ∧ P k b b' := by
  by_cases h : j = k
  · subst h
    exact ⟨c, getElem?_set_self_of_some hb c, hj b hb⟩
  · exact ⟨b, (List.getElem?_set_ne h).trans hb, hrest k b hb⟩

theorem Touched.bus {t : Nat} {s s' : State} (h : Touched t s s') {i : Instr} (ha : Accesses i) {k : Nat} {b : Bus}
    (hb : s.buses[k]? = some b) : ∃ b', s'.buses[k]? = some b' ∧ BusNext i s k b b' := by
  obtain h | ⟨d, u, hd, hf, h⟩ := h.buses k
  · exact ⟨b, h.trans hb, .same⟩
  · obtain rfl := Option.some.inj (hb.symm.trans hd)
    exact ⟨_, h, .raced hf ha⟩

/-- What an instruction makes of each bus. -/
theorem ExecNext.bus {i : Instr} {s s' : State} (h : ExecNext i s s') (k : Nat) (b : Bus)
    (hb : s.buses[k]? = some b) : ∃ b', s'.buses[k]? = some b' ∧ BusNext i s k b b' := by
  cases h with
  | hold | refused | noInstance | nullBus | accepted => exact ⟨b, hb, .same⟩
  | answered hk hc hf hw ha =>
    refine forall_getElem?_set (P := BusNext i s) (fun d hd => ?_) (fun _ _ _ => .same) k b hb
    obtain rfl := Option.some.inj (hc.symm.trans hd)
    exact .went hk hf hw
  | raised hk hc hf hw =>
    refine forall_getElem?_set (P := BusNext i s) (fun d hd => ?_) (fun _ _ _ => .same) k b hb
    obtain rfl := Option.some.inj (hc.symm.trans hd)
    exact .faulted hk hf hw
  | @completed T x x' c b' es hi hx hT hc hr hx' hl =>
    by_cases hk : x.bus = k
    · subst hk
      obtain rfl := Option.some.inj (hx.2.1.symm.trans hb)
      exact ⟨b', getElem?_set_self_of_some hc b', .went (actsOn_of_inFlight hi hx) hx.2.2 hr.went⟩
    · have hk' : (T.afterMicroOp x b' x').buses[k]? = T.buses[k]? := List.getElem?_set_ne hk
      rw [hk']
      obtain rfl | ⟨ha, hT⟩ := hT
      · exact ⟨b, hb, .same⟩
      · exact hT.bus ha hb
  | @raced T x c d u hi hx ha hT hc hw =>
    by_cases hk : x.bus = k
    · subst hk
      obtain rfl := Option.some.inj (hx.2.1.symm.trans hb)
      exact ⟨_, getElem?_set_self_of_some hc _, .faulted (actsOn_of_inFlight hi hx) hx.2.2 hw⟩
    · have hk' : (T.withBusOnly x.bus (d.faulted u .bufRace)).buses[k]? = T.buses[k]? := List.getElem?_set_ne hk
      rw [hk']
      exact hT.bus ha hb

/-- Settles O53: a bus that an instruction changes keeps INITD and the lock, but for the named instructions. -/
theorem onlyLifecycleAndLockOpsChangeLock : Obligations.OnlyLifecycleAndLockOpsChangeLock := by
  intro i s s' k b b' h hb hb'
  obtain ⟨c, hc, hnext⟩ := (exec_next h).bus k b hb
  obtain rfl := Option.some.inj (hc.symm.trans hb')
  have of_went {d : Bus} (hw : b.Went i d) : (d.initd ≠ b.initd → i = .init ∨ i = .deinit) ∧
      (d.lock ≠ b.lock → i = .lock ∨ i = .unlock ∨ i = .init ∨ i = .deinit) := by
    constructor
    · contrapose!
      exact fun ⟨h1, h2⟩ => hw.initd h1 h2
    · contrapose!
      exact fun ⟨h1, h2, h3, h4⟩ => hw.lock h1 h2 h3 h4
  cases hnext with
  | same | raced => exact ⟨fun h => absurd rfl h, fun h => absurd rfl h⟩
  | went _ _ hw => exact of_went hw
  | faulted _ _ hw => exact (of_went hw :)

/-- Settles O56: a bus that the instruction does not act on is unchanged or was raced. -/
theorem otherInstancesUnchanged : Obligations.OtherInstancesUnchanged := by
  intro i s s' k b h hb huop hcmd
  have hk : ¬ ActsOn i s k := by
    unfold ActsOn
    split
    · rintro ⟨x, hx, rfl⟩
      exact huop ‹_› x hx rfl
    · exact hcmd ‹_›
  obtain ⟨c, hc, hnext⟩ := (exec_next h).bus k b hb
  cases hnext with
  | same => exact .inl hc
  | raced _ ha => exact .inr ⟨ha, _, hc⟩
  | went hk' => exact absurd hk' hk
  | faulted hk' => exact absurd hk' hk

/-- From b to b' in one step: nothing if b is faulted (R32); the history grew (R31); the counters stayed in range. -/
structure Bus.Grew (b b' : Bus) : Prop where
  faulted : b.fault ≠ none → b' = b
  hist : b.hist <+: b'.hist
  counters : b.countersInRange → b'.countersInRange

theorem Bus.Grew.refl (b : Bus) : b.Grew b := ⟨fun _ => rfl, List.prefix_rfl, id⟩

theorem grew_faulted {b : Bus} (hf : b.fault = none) (u : Nat) (r : FaultReason) : b.Grew (b.faulted u r) :=
  ⟨fun h => absurd hf h, List.prefix_append .., id⟩

theorem BusNext.grew {i : Instr} {s : State} {k : Nat} {b b' : Bus} (h : BusNext i s k b b') : b.Grew b' := by
  cases h with
  | same => exact .refl b
  | went _ hf hw => exact ⟨fun h => absurd hf h, hw.hist, hw.counters⟩
  | faulted _ hf hw => exact ⟨fun h => absurd hf h, hw.hist.trans (List.prefix_append ..), hw.counters⟩
  | raced hf _ => exact grew_faulted hf ..

/-- From the buses l to l' in one step: none is gone, each grew, and the counters of all stayed in range. -/
structure BusesGrew (l l' : List Bus) : Prop where
  old : ∀ (k : Nat) (b : Bus), l[k]? = some b → ∃ b', l'[k]? = some b' ∧ b.Grew b'
  counters : (∀ b ∈ l, b.countersInRange) → ∀ b' ∈ l', b'.countersInRange

theorem BusesGrew.refl (l : List Bus) : BusesGrew l l := ⟨fun _ b hb => ⟨b, hb, .refl b⟩, id⟩

/-- Where no bus is new it is enough that each grew. -/
theorem busesGrew_of_old {l l' : List Bus}
    (hold : ∀ (k : Nat) (b : Bus), l[k]? = some b → ∃ b', l'[k]? = some b' ∧ b.Grew b')
    (hnone : ∀ k : Nat, l[k]? = none → l'[k]? = none) : BusesGrew l l' := by
  refine ⟨hold, fun hl b' hb' => ?_⟩
  obtain ⟨k, hk⟩ := List.mem_iff_getElem?.1 hb'
  cases hb : l[k]? with
  | none => simp [hnone k hb] at hk
  | some b =>
    obtain ⟨c, hc, hg⟩ := hold k b hb
    obtain rfl := Option.some.inj (hc.symm.trans hk)
    exact hg.counters (hl b (List.mem_of_getElem? hb))

theorem getElem?_set_none {l : List Bus} {k : Nat} (h : l[k]? = none) (j : Nat) (c : Bus) : (l.set j c)[k]? = none := by
  rw [List.getElem?_eq_none_iff] at h ⊢
  simpa using h

theorem Touched.buses_none {t : Nat} {s s' : State} (h : Touched t s s') {k : Nat} (hk : s.buses[k]? = none) :
    s'.buses[k]? = none := by
  obtain h | ⟨d, u, hd, -⟩ := h.buses k
  · exact h.trans hk
  · simp [hk] at hd

theorem Touched.busesGrew {t : Nat} {s s' : State} (h : Touched t s s') : BusesGrew s.buses s'.buses := by
  refine busesGrew_of_old (fun k b hb => ?_) fun k => h.buses_none
  obtain h | ⟨d, u, hd, hf, h⟩ := h.buses k
  · exact ⟨b, h.trans hb, .refl b⟩
  · obtain rfl := Option.some.inj (hb.symm.trans hd)
    exact ⟨_, h, grew_faulted hf ..⟩

/-- No instruction adds a bus. -/
theorem ExecNext.buses_none {i : Instr} {s s' : State} (h : ExecNext i s s') {k : Nat} (hk : s.buses[k]? = none) :
    s'.buses[k]? = none := by
  cases h with
  | hold | refused | noInstance | nullBus | accepted => exact hk
  | answered | raised => exact getElem?_set_none hk ..
  | completed _ _ hT =>
    obtain rfl | ⟨-, hT⟩ := hT
    · exact getElem?_set_none hk ..
    · exact getElem?_set_none (hT.buses_none hk) ..
  | raced _ _ _ hT => exact getElem?_set_none (hT.buses_none hk) ..

theorem ExecNext.busesGrew {i : Instr} {s s' : State} (h : ExecNext i s s') : BusesGrew s.buses s'.buses := by
  refine busesGrew_of_old (fun k b hb => ?_) fun k => h.buses_none
  obtain ⟨b', hb', hnext⟩ := h.bus k b hb
  exact ⟨b', hb', hnext.grew⟩

/-! ### The return of a command -/

/-- The return of a command: nothing on a faulted bus; else at most RESULT is set, and the thread has its answer. -/
theorem finish_cases (s : State) (x : Txn) :
    s.finish x = s ∨
      ∃ l, s.finish x = (({ s with buses := l } : State).dropTxn x.thread).ret (some x.bus) (.code x.code) ∧
        (l = s.buses ∨ ∃ b, s.buses[x.bus]? = some b ∧ b.fault = none ∧
          l = s.buses.set x.bus { b with result := some x.result }) := by
  unfold State.finish
  split
  · exact .inl rfl
  · right
    rcases onBus_cases s x.bus (fun b => { b with result := some x.result }) with ⟨h, -⟩ | ⟨b, hb, hf, h⟩
    · exact ⟨_, by rw [h], .inl rfl⟩
    · exact ⟨_, by rw [h]; rfl, .inr ⟨b, hb, hf, rfl⟩⟩

theorem finish_busesGrew (s : State) (x : Txn) : BusesGrew s.buses (s.finish x).buses := by
  obtain h | ⟨l, h, rfl | ⟨b, hb, hf, rfl⟩⟩ := finish_cases s x
  · rw [h]
    exact .refl _
  · rw [h]
    exact .refl _
  · rw [h]
    refine busesGrew_of_old
      (forall_getElem?_set (P := fun _ => Bus.Grew) (fun d hd => ?_) fun _ b _ => .refl b)
      fun k hk => getElem?_set_none hk ..
    obtain rfl := Option.some.inj (hb.symm.trans hd)
    exact ⟨fun h => absurd hf h, List.prefix_rfl, id⟩

/-! ### A step -/

/-- A constructed bus is added with its counters in range (R118). -/
theorem construct_busesGrew {s s' : State} {tHalf : Nat} {p : Pins} (h : s.construct tHalf p = .next s') :
    BusesGrew s.buses s'.buses := by
  unfold State.construct at h
  split at h
  · cases h
  · rename_i hc
    cases h
    refine ⟨fun k b hb => ⟨b, ?_, .refl b⟩, fun hl b' hb' => ?_⟩
    · exact (List.getElem?_append_left (List.getElem?_eq_some_iff.1 hb).1).trans hb
    · rcases List.mem_append.1 hb' with hmem | hmem
      · exact hl b' hmem
      · rw [List.mem_singleton.1 hmem]
        exact constructed_countersInRange (by omega) p

theorem hostLoad_touched {s s' : State} {a : Nat} (h : s.hostLoad a = .next s') :
    ∃ T v, Touched s.cur s.takeRequest T ∧ s' = T.ret none (.loaded v) := by
  unfold State.hostLoad at h
  split at h
  · cases h
    exact ⟨_, _, touch_touched .., rfl⟩
  · cases h

theorem hostStore_touched {s s' : State} {a : Nat} {v : Byte} (h : s.hostStore a v = .next s') :
    ∃ T, Touched s.cur (s.takeRequest.writeByte a v) T ∧ s' = T.ret none .stored := by
  unfold State.hostStore at h
  split at h
  · cases h
    exact ⟨_, touch_touched .., rfl⟩
  · cases h

theorem openHarness_eq {s s' : State} {k : Nat} {c : Cmd} {ws : List Word} (h : s.openHarness k c ws = .next s') :
    s' = s.takeRequest.addTxn (harnessTxn s.cur k c ws) := by
  unfold State.openHarness at h
  split at h
  · cases h
  · cases h
    rfl

theorem MicroTurn.busesGrew {s s' : State} {x : Txn} (h : MicroTurn s s' x) : BusesGrew s.buses s'.buses := by
  obtain ⟨-, rfl⟩ | ⟨w, -, ⟨i, -, h⟩ | ⟨r, -, rfl⟩⟩ := h
  · exact finish_busesGrew s x
  · exact (exec_next h).busesGrew
  · exact .refl _

theorem RequestTurn.busesGrew {s s' : State} {a : HostAction} (h : RequestTurn s s' a) :
    BusesGrew s.buses s'.buses := by
  cases a with
  | issue d =>
    obtain ⟨-, ⟨i, -, h⟩ | ⟨r, -, rfl⟩⟩ := h
    · exact (exec_next h).busesGrew
    · exact .refl _
  | construct tHalf p => exact construct_busesGrew h
  | load a =>
    obtain ⟨T, v, hT, rfl⟩ := hostLoad_touched h
    exact hT.busesGrew
  | store a v =>
    obtain ⟨T, hT, rfl⟩ := hostStore_touched h
    exact hT.busesGrew
  | harness k c ws =>
    obtain rfl := openHarness_eq h
    exact .refl _

/-- What a step makes of the buses. -/
theorem step_busesGrew {s s' : State} (h : step s = .next s') : BusesGrew s.buses s'.buses := by
  obtain rfl | ⟨x, -, -, -, h⟩ | ⟨-, -, a, -, h⟩ := step_cases h
  · exact .refl _
  · exact h.busesGrew
  · exact h.busesGrew

/-- Settles O45: the counters stay in range on each bus that an instruction changes, and start in range. -/
theorem stepKeepsCountersInRange : Obligations.StepKeepsCountersInRange :=
  fun _ _ hs h => (step_busesGrew h).counters hs

/-- Settles O51: a step changes a bus only if it is not faulted. -/
theorem faultedInstanceNeverSteps : Obligations.FaultedInstanceNeverSteps := by
  refine ⟨fun _ _ => rfl, fun s s' k b h hb hf => ?_, fun s k b hb hf hend => ?_⟩
  · obtain ⟨b', hb', hg⟩ := (step_busesGrew h).old k b hb
    rwa [hg.faulted hf] at hb'
  · obtain ⟨-, -, -, -, -, hbuses⟩ := hend
    exact hf (hbuses b (List.mem_of_getElem? hb))

end Sys2Proof.Machine
end

section
/-!
SUPPORT. The decoder of micro-op words (R62 to R64): it gives micro-ops only, and reads an encoded micro-op back.
-/

namespace Sys2Proof

theorem eq_of_whenOpd {b : Bool} {i j : Instr} (h : whenOpd b i = .ok j) : i = j := by
  cases b with
  | true => exact Except.ok.inj h
  | false => cases h

theorem eq_of_whenIndex {k : BitVec 24} {i j : Instr} (h : whenIndex k i = .ok j) : i = j := by
  unfold whenIndex at h
  split at h
  · exact Except.ok.inj h
  · cases h

/-- A micro-op word that is accepted is a micro-op. -/
theorem decodeUop_format {w : Word} {i : Instr} (h : decodeUop w = .ok i) : i.format = .uop := by
  unfold decodeUop at h
  dsimp only at h
  split_ifs at h
  split at h
  case h_5 | h_7 => rw [← eq_of_whenIndex h]; rfl
  all_goals rw [← eq_of_whenOpd h]; rfl

/-- Decoding the word of a well-formed micro-op gives the micro-op. -/
theorem decodeUop_encode {i : Instr} (hf : i.format = .uop) (hw : i.wellFormed = true) :
    decodeUop (encode i) = .ok i := by
  cases i with
  | txi imm =>
    have hhigh : (imm.setWidth 24).extractLsb' 8 16 = 0 := by ext k hk; simp
    have hlow : (imm.setWidth 24).extractLsb' 0 8 = imm := by ext k hk; simp [hk]; omega
    simp [decodeUop, encode, Instr.code, codeField_uopWord, zField_uopWord, opdField_uopWord, whenOpd, hhigh, hlow]
  | txm k | rxm k =>
    have hk : indexOk k = true := hw
    simp [decodeUop, encode, Instr.code, codeField_uopWord, zField_uopWord, opdField_uopWord, whenIndex, hk]
  | idle | start | stop | ackchk | sendack | sendnack | lock | unlock => decide
  | _ => cases hf

end Sys2Proof
end

section
/-!
SUPPORT. What an instruction and a step do to the marks of a refused or faulted run (R60, R103), to what is handed back,
and to the commands in flight (R25, R28).
-/

namespace Sys2Proof.Machine

/-! ### Marks and returns -/

/-- From s to s' every mark is kept, and only the current thread is handed something back. -/
structure KeepsMarks (s s' : State) : Prop where
  noBusHist : s.noBusHist <+: s'.noBusHist
  refusal : ∀ r, s.refusal = some r → s'.refusal = some r
  blocked : ∀ t ∈ s.blocked, t ∈ s'.blocked
  returns : ∃ rs, s'.returns = s.returns ++ rs ∧ ∀ r ∈ rs, r.thread = s.cur

theorem mem_block {t u : Nat} {l : List Nat} (h : t ∈ l) : t ∈ if u ∈ l then l else u :: l := by
  split
  · exact h
  · exact List.mem_cons_of_mem u h

/-- Whatever touches none of the marks and hands nothing back. -/
theorem keepsMarks_of_eq {s s' : State} (hn : s'.noBusHist = s.noBusHist) (hr : s'.refusal = s.refusal)
    (hb : s'.blocked = s.blocked) (hret : s'.returns = s.returns) : KeepsMarks s s' :=
  ⟨by rw [hn], fun r h => hr.trans h, fun t h => hb ▸ h, [], by simp [hret], by simp⟩

theorem KeepsMarks.refl (s : State) : KeepsMarks s s := keepsMarks_of_eq rfl rfl rfl rfl

theorem refuse_keepsMarks (s : State) (r : RefuseReason) : KeepsMarks s (s.refuse r) :=
  ⟨List.prefix_rfl, fun q h => by simp [h], fun _ => mem_block, [], by simp, by simp⟩

/-- Handing an answer to the current thread, where the rest hands nothing back. -/
theorem KeepsMarks.ret {s s' : State} (h : KeepsMarks s s') (hret : s'.returns = s.returns) (hcur : s'.cur = s.cur)
    (k : Option Nat) (a : Answer) : KeepsMarks s (s'.ret k a) :=
  ⟨h.noBusHist, h.refusal, h.blocked, [⟨s.cur, k, a⟩], by simp [hret, hcur], by simp⟩

theorem Touched.keepsMarks {t : Nat} {s s' : State} (h : Touched t s s') : KeepsMarks s s' :=
  ⟨by rw [h.noBusHist], fun _ hr => h.refusal.trans hr, h.blocked, [], by simp [h.returns], by simp⟩

theorem ExecNext.keepsMarks {i : Instr} {s s' : State} (h : ExecNext i s s') : KeepsMarks s s' := by
  cases h with
  | hold => exact .refl s
  | refused r => exact refuse_keepsMarks s r
  | noInstance => exact ⟨List.prefix_append .., fun _ h => h, fun _ => mem_block, [], by simp, by simp⟩
  | nullBus => exact (KeepsMarks.refl s).ret rfl rfl ..
  | answered => exact (keepsMarks_of_eq rfl rfl rfl rfl : KeepsMarks s (s.setBus _ _)).ret rfl rfl ..
  | accepted => exact keepsMarks_of_eq rfl rfl rfl rfl
  | raised => exact ⟨List.prefix_rfl, fun _ h => h, fun _ => mem_block, [], (List.append_nil _).symm, by simp⟩
  | completed _ _ hT =>
    obtain rfl | ⟨-, hT⟩ := hT
    · exact keepsMarks_of_eq rfl rfl rfl rfl
    · obtain ⟨hn, hr, hb, hret⟩ := hT.keepsMarks
      exact ⟨hn, hr, hb, hret⟩
  | raced _ _ _ hT =>
    obtain ⟨hn, hr, hb, hret⟩ := hT.keepsMarks
    exact ⟨hn, hr, hb, hret⟩

theorem finish_keepsMarks (s : State) (x : Txn) : KeepsMarks s (s.finish x) := by
  obtain h | ⟨l, h, -⟩ := finish_cases s x <;> rw [h]
  · exact .refl s
  · exact (keepsMarks_of_eq rfl rfl rfl rfl : KeepsMarks s (({ s with buses := l } : State).dropTxn x.thread)).ret
      rfl rfl ..

theorem construct_keepsMarks {s s' : State} {tHalf : Nat} {p : Pins} (h : s.construct tHalf p = .next s') :
    KeepsMarks s s' := by
  unfold State.construct at h
  split at h
  · cases h
  · cases h
    exact (keepsMarks_of_eq rfl rfl rfl rfl :
      KeepsMarks s { s.takeRequest with buses := s.buses ++ [Bus.constructed tHalf p] }).ret rfl rfl ..

theorem MicroTurn.keepsMarks {s s' : State} {x : Txn} (h : MicroTurn s s' x) : KeepsMarks s s' := by
  obtain ⟨-, rfl⟩ | ⟨w, -, ⟨i, -, h⟩ | ⟨r, -, rfl⟩⟩ := h
  · exact finish_keepsMarks s x
  · exact (exec_next h).keepsMarks
  · exact refuse_keepsMarks s r

theorem RequestTurn.keepsMarks {s s' : State} {a : HostAction} (h : RequestTurn s s' a) : KeepsMarks s s' := by
  cases a with
  | issue d =>
    obtain ⟨-, ⟨i, -, h⟩ | ⟨r, -, rfl⟩⟩ := h
    · obtain ⟨hn, hr, hb, hret⟩ := (exec_next h).keepsMarks
      exact ⟨hn, hr, hb, hret⟩
    · obtain ⟨hn, hr, hb, hret⟩ := refuse_keepsMarks (s.takeDescriptor d) r
      exact ⟨hn, hr, hb, hret⟩
  | construct tHalf p => exact construct_keepsMarks h
  | load a =>
    obtain ⟨T, v, hT, rfl⟩ := hostLoad_touched h
    obtain ⟨hn, hr, hb, hret⟩ := hT.keepsMarks
    exact (⟨hn, hr, hb, hret⟩ : KeepsMarks s T).ret hT.returns hT.cur ..
  | store a v =>
    obtain ⟨T, hT, rfl⟩ := hostStore_touched h
    obtain ⟨hn, hr, hb, hret⟩ := hT.keepsMarks
    exact (⟨hn, hr, hb, hret⟩ : KeepsMarks s T).ret hT.returns hT.cur ..
  | harness k c ws =>
    obtain rfl := openHarness_eq h
    exact keepsMarks_of_eq rfl rfl rfl rfl

/-- A step keeps the marks, and hands something back only to the thread whose turn it is, which then is not stopped. -/
theorem step_keepsMarks {s s' : State} (h : step s = .next s') :
    KeepsMarks s.turn s' ∧ (s'.returns = s.returns ∨ s.nextThread ∉ s.blocked) := by
  obtain rfl | ⟨x, -, hb, -, h⟩ | ⟨-, hb, a, -, h⟩ := step_cases h
  · exact ⟨.refl _, .inl rfl⟩
  · exact ⟨h.keepsMarks, .inr hb⟩
  · exact ⟨h.keepsMarks, .inr hb⟩

/-- Settles O50: histories grow with the buses, and every operation keeps the marks, which no final state has. -/
theorem stepOnlyExtendsHistories : Obligations.StepOnlyExtendsHistories := by
  refine ⟨fun s s' h => ?_, fun s hmark ⟨_, _, hb, hr, hn, _⟩ => ?_⟩
  · obtain ⟨⟨hn, hr, hb, rs, hrs, hcur⟩, hfree⟩ := step_keepsMarks h
    refine ⟨fun k b hk => ?_, hn, hr, hb, rs, hrs, fun r hmem => ⟨hcur r hmem, ?_⟩⟩
    · obtain ⟨b', hb', hg⟩ := (step_busesGrew h).old k b hk
      exact ⟨b', hb', hg.hist⟩
    · obtain hsame | hfree := hfree
      · rw [hsame, turn_returns, List.self_eq_append_right] at hrs
        simp [hrs] at hmem
      · rw [hcur r hmem]
        exact hfree
  · rcases hmark with h | h | h
    · exact h hr
    · exact h hb
    · exact h hn

/-! ### Commands in flight -/

/-- From x to y in one step: the same command, with UPC at most one more and FAIL not cleared (R25, R28). -/
structure Txn.SameCommand (x y : Txn) : Prop where
  bus : y.bus = x.bus
  cmd : y.cmd = x.cmd
  uprog : y.uprog = x.uprog
  upc : y.upc = x.upc ∨ y.upc = x.upc + 1
  fail : x.fail = true → y.fail = true

theorem Txn.SameCommand.refl (x : Txn) : x.SameCommand x := ⟨rfl, rfl, rfl, .inl rfl, id⟩

theorem sameCommand_of_raced {x y : Txn} (h : y = { x with raced := y.raced }) : x.SameCommand y := by
  rw [h]
  exact ⟨rfl, rfl, rfl, .inl rfl, id⟩

theorem Txn.Continued.sameCommand {es : List Event} {x y : Txn} (h : x.Continued es y) : x.SameCommand y := by
  rw [h]
  exact ⟨rfl, rfl, rfl, .inr rfl, fun hf => by simp [hf]⟩

theorem Txn.Continued.thread {es : List Event} {x y : Txn} (h : x.Continued es y) : y.thread = x.thread := by rw [h]

theorem txnOf_dropTxn (s : State) (t u : Nat) : (s.dropTxn t).txnOf u = if u = t then none else s.txnOf u := by
  simp only [State.txnOf, dropTxn_txns, List.find?_filter]
  split
  · rw [List.find?_eq_none]
    simp_all
  · congr 1
    funext y
    by_cases hy : y.thread = u <;> simp_all

theorem txnOf_addTxn (s : State) (x : Txn) (u : Nat) :
    (s.addTxn x).txnOf u = if u = x.thread then some x else s.txnOf u := by
  have hdrop := txnOf_dropTxn s x.thread u
  rw [State.txnOf, dropTxn_txns] at hdrop
  rw [State.txnOf, addTxn_txns, List.find?_cons, hdrop]
  by_cases hu : u = x.thread
  · simp [hu]
  · have hne : (x.thread == u) = false := beq_false_of_ne (Ne.symm hu)
    simp [hu, hne]

/-- Every command in flight before and after is the same command. -/
def SameCommands (s s' : State) : Prop :=
  ∀ t x y, s.txnOf t = some x → s'.txnOf t = some y → x.SameCommand y

theorem sameCommands_of_txns {s s' : State} (h : s'.txns = s.txns) : SameCommands s s' := by
  intro t x y hx hy
  rw [State.txnOf, h] at hy
  obtain rfl := Option.some.inj (hx.symm.trans hy)
  exact .refl x

theorem Touched.sameCommands {t : Nat} {s s' : State} (h : Touched t s s') : SameCommands s s' := by
  obtain ⟨f, hf, -, -, htxnOf⟩ := h.txnOf
  intro u x y hx hy
  rw [htxnOf, hx] at hy
  obtain rfl := Option.some.inj hy
  exact sameCommand_of_raced (hf x)

theorem sameCommands_dropTxn (s : State) (t : Nat) : SameCommands s (s.dropTxn t) := by
  intro u x y hx hy
  rw [txnOf_dropTxn] at hy
  split at hy
  · cases hy
  · obtain rfl := Option.some.inj (hx.symm.trans hy)
    exact .refl x

/-- A command put in flight for a thread that has none. -/
theorem sameCommands_addTxn {s : State} {z : Txn} (h : s.txnOf z.thread = none) : SameCommands s (s.addTxn z) := by
  intro u x y hx hy
  rw [txnOf_addTxn] at hy
  split at hy
  · rename_i hu
    rw [hu, h] at hx
    cases hx
  · obtain rfl := Option.some.inj (hx.symm.trans hy)
    exact .refl x

/-- The commands after a micro-op completed. -/
theorem txnOf_afterMicroOp {T : State} {x x' : Txn} {b' : Bus} {es : List Event} (hx' : x.Continued es x')
    (hx : T.txnOf x.thread ≠ none) (u : Nat) :
    (T.afterMicroOp x b' x').txnOf u = if u = x.thread then some x' else T.txnOf u :=
  txnOf_put hx'.thread hx _ rfl

/-- The command of the accessing thread is found unchanged after its access was seen. -/
theorem Touched.txnOf_own {s s' : State} {x : Txn} (h : Touched x.thread s s') (hx : s.txnOf x.thread = some x) :
    s'.txnOf x.thread = some x := by
  obtain ⟨f, -, hown, -, htxnOf⟩ := h.txnOf
  rw [htxnOf, hx, Option.map_some, hown x rfl]

theorem ExecNext.sameCommands {i : Instr} {s s' : State} (h : ExecNext i s s')
    (hcmd : i.format = .cmd → s.txnOf s.cur = none) : SameCommands s s' := by
  cases h with
  | hold | refused | noInstance | nullBus | answered | raised => exact sameCommands_of_txns rfl
  | accepted hi => exact sameCommands_addTxn (hcmd hi)
  | @completed T x x' b b' es hi hx hT hb hr hx' hl =>
    have hown : s.txnOf x.thread = some x := hx.thread ▸ hx.1
    have hTx : T.txnOf x.thread = some x := by
      obtain rfl | ⟨-, hT⟩ := hT
      · exact hown
      · exact hT.txnOf_own hown
    have hsame : SameCommands s T := by
      obtain rfl | ⟨-, hT⟩ := hT
      · exact sameCommands_of_txns rfl
      · exact hT.sameCommands
    intro u y z hy hz
    rw [txnOf_afterMicroOp hx' (by simp [hTx])] at hz
    split at hz
    · subst u
      obtain rfl := Option.some.inj (hown.symm.trans hy)
      obtain rfl := Option.some.inj hz
      exact hx'.sameCommand
    · exact hsame u y z hy hz
  | raced _ _ _ hT => exact hT.sameCommands

theorem finish_sameCommands (s : State) (x : Txn) : SameCommands s (s.finish x) := by
  obtain h | ⟨l, h, -⟩ := finish_cases s x <;> rw [h]
  · exact sameCommands_of_txns rfl
  · exact sameCommands_dropTxn s x.thread

theorem construct_txns {s s' : State} {tHalf : Nat} {p : Pins} (h : s.construct tHalf p = .next s') :
    s'.txns = s.txns := by
  unfold State.construct at h
  split at h
  · cases h
  · cases h
    rfl

theorem MicroTurn.sameCommands {s s' : State} {x : Txn} (h : MicroTurn s s' x) : SameCommands s s' := by
  obtain ⟨-, rfl⟩ | ⟨w, -, ⟨i, hw, h⟩ | ⟨r, -, rfl⟩⟩ := h
  · exact finish_sameCommands s x
  · exact (exec_next h).sameCommands fun hi => by simp [decodeUop_format hw] at hi
  · exact sameCommands_of_txns rfl

theorem RequestTurn.sameCommands {s s' : State} {a : HostAction} (hcur : s.txnOf s.cur = none)
    (h : RequestTurn s s' a) : SameCommands s s' := by
  cases a with
  | issue d =>
    obtain ⟨-, ⟨i, -, h⟩ | ⟨r, -, rfl⟩⟩ := h
    · exact (exec_next h).sameCommands fun _ => hcur
    · exact sameCommands_of_txns rfl
  | construct tHalf p => exact sameCommands_of_txns (construct_txns h)
  | load a =>
    obtain ⟨T, v, hT, rfl⟩ := hostLoad_touched h
    exact hT.sameCommands
  | store a v =>
    obtain ⟨T, hT, rfl⟩ := hostStore_touched h
    exact hT.sameCommands
  | harness k c ws =>
    obtain rfl := openHarness_eq h
    exact sameCommands_addTxn hcur

/-- Settles O55: a step continues a command in flight, or does not touch it. -/
theorem commandInFlightIsFixed : Obligations.CommandInFlightIsFixed := by
  intro s s' t x y h hx hy
  have hsame : SameCommands s.turn s' := by
    obtain rfl | ⟨x, -, -, -, h⟩ | ⟨hcur, -, a, -, h⟩ := step_cases h
    · exact sameCommands_of_txns rfl
    · exact h.sameCommands
    · exact h.sameCommands hcur
  obtain ⟨hbus, hcmd, huprog, hupc, hfail⟩ := hsame t x y hx hy
  exact ⟨hbus, hcmd, huprog, hupc, hfail⟩

end Sys2Proof.Machine
end

section
/-!
SUPPORT. Micro-ops on the drive trace (R23): a micro-op that completed has the events of its rule. Then the statements
about single turns and commands, which follow from the meanings they name.
-/

namespace Sys2Proof.Machine

/-! ### The drive trace -/

/-- The command of the current thread has not advanced where it is found with the same UPC. -/
theorem not_completed {x z : Txn} {s s' : State} (hz : s'.txnOf s.cur = some z) (hupc : z.upc = x.upc) :
    ¬ Completed x s s' := by
  rintro ⟨y, hy, hyupc⟩
  obtain rfl := Option.some.inj (hz.symm.trans hy)
  omega

theorem InFlight.unique {s : State} {x y : Txn} {b c : Bus} (h : InFlight s x b) (h' : InFlight s y c) :
    x = y ∧ b = c := by
  obtain ⟨hx, hb, -⟩ := h
  obtain ⟨hy, hc, -⟩ := h'
  obtain rfl := Option.some.inj (hx.symm.trans hy)
  exact ⟨rfl, Option.some.inj (hb.symm.trans hc)⟩

/-- A micro-op that completed ran on its bus. -/
theorem ran_of_completed {i : Instr} {s s' : State} {x : Txn} {b b' : Bus} (hi : i.format = .uop) (hx : InFlight s x b)
    (h : exec i s = .next s') (hc : Completed x s s') (hb' : s'.buses[x.bus]? = some b') :
    ∃ es, b.Ran i x.thread es b' := by
  cases exec_next h with
  | hold | refused | noInstance | nullBus | answered | raised => exact absurd hc (not_completed hx.1 rfl)
  | accepted hcmd => simp [hi] at hcmd
  | completed _ hy _ hbus hr =>
    obtain ⟨rfl, rfl⟩ := hx.unique hy
    obtain rfl := Option.some.inj ((getElem?_set_self_of_some hbus _).symm.trans hb')
    exact ⟨_, hr⟩
  | raced _ hy _ hT =>
    obtain ⟨rfl, rfl⟩ := hx.unique hy
    have hown := hT.txnOf_own (hx.thread ▸ hx.1)
    exact absurd hc (not_completed (hx.thread ▸ hown) rfl)

/-- Settles O29: the events of a micro-op make its own conditions from its entry state. -/
theorem microOpsMakeOnlyTheirConditions : Obligations.MicroOpsMakeOnlyTheirConditions := by
  intro i s x b s' b' hi hx hentry hidle h hc hb'
  obtain ⟨es, hr⟩ := ran_of_completed hi hx h hc hb'
  rw [newEvents_of_hist hr.hist, hr.events.conditions hentry hidle]
  cases i <;> rfl

/-- Settles O30: TXI's events are those of its byte's bits, in wire order. -/
theorem txiTransmitsItsBits : Obligations.TxiTransmitsItsBits := by
  intro imm s x b s' b' hx hentry h hb'
  have hexec : exec (.txi imm) s = _ := busMicroOp_inFlight hx fun x b => b.txbyte x.thread imm
  obtain rfl := Host.Outcome.next.inj (hexec.symm.trans h)
  obtain rfl := Option.some.inj ((getElem?_set_self_of_some hx.2.1 _).symm.trans hb')
  rw [newEvents_of_hist (ran_txi imm x.thread b).hist, port_of_clockLow hentry]
  exact sentBits_sendBits b.tHalf (wireBits imm) b.port.sdaLat

/-! ### Micro-ops without a command in flight -/

theorem withCommand_of_none {s : State} (h : s.txnOf s.cur = none) (f : Txn → Bus → State) :
    s.withCommand f = .fault .noCommandInFlight := by
  rw [State.withCommand, h]

/-- Settles O27: every micro-op's meaning is run on the command in flight of the current thread. -/
theorem microOpNeedsCommandInFlight : Obligations.MicroOpNeedsCommandInFlight := by
  intro i s hi h
  cases i with
  | init | deinit | probe | read8 | read16 | readna | write8 | write16 => cases hi
  | idle | start | stop | txi | txm | ackchk | rxm | sendack | sendnack | lock | unlock => exact withCommand_of_none h _

/-! ### The acceptance of a command -/

/-- The six transaction commands are issued with the fields they latch. -/
theorem exec_of_txnFields {i : Instr} {op : TxnOp} {dev : BitVec 7} {reg : BitVec 16}
    (h : txnFields i = some (op, dev, reg)) (s : State) : exec i s = s.issueTxn op dev reg := by
  cases i with
  | probe | read8 | read16 | readna | write8 | write16 => cases h; rfl
  | _ => cases h

theorem hasBuffer_eq_true_iff {op : TxnOp} : op.hasBuffer = true ↔ op ≠ .probe := by
  cases op <;> decide

theorem issueTxn_of_no_bus {s : State} (h : s.desc.bus = none) (op : TxnOp) (dev : BitVec 7) (reg : BitVec 16) :
    s.issueTxn op dev reg = .next (s.ret none (.code .eNullBus)) := by
  rw [State.issueTxn, h]

/-- The checks of R87 on a bus that takes steps, in the order of R110. -/
theorem issueTxn_of_bus {s : State} {k : Nat} {b : Bus} (hk : s.desc.bus = some k) (hb : s.buses[k]? = some b)
    (hf : b.fault = none) (op : TxnOp) (dev : BitVec 7) (reg : BitVec 16) :
    s.issueTxn op dev reg = .next
      (if op ≠ .probe ∧ s.desc.count = 0 then s.failPrecondition k .eZeroCount
       else if op ≠ .probe ∧ s.desc.buf = 0 then s.failPrecondition k .eNullBuf
       else if b.initd = false then s.withFault k b s.cur .notInit
       else s.accept k op dev reg) := by
  simp [State.issueTxn, hk, hb, hf, hasBuffer_eq_true_iff, raise_unfaulted hb hf]

theorem failPrecondition_eq {s : State} {k : Nat} {b : Bus} (hb : s.buses[k]? = some b) (hf : b.fault = none)
    (c : Code) :
    s.failPrecondition k c = { s.withBusOnly k { b with result := some false } with
      returns := s.returns ++ [⟨s.cur, some k, .code c⟩] } := by
  rw [State.failPrecondition, onBus_unfaulted hb hf]
  rfl

/-- Settles O31: the checks of the issue, one after the other. -/
theorem issueChecksInOrder : Obligations.IssueChecksInOrder := by
  intro i op dev reg s hi
  rw [exec_of_txnFields hi]
  refine ⟨fun h => issueTxn_of_no_bus h .., fun k b hk hb hf => ?_⟩
  rw [issueTxn_of_bus hk hb hf]
  refine ⟨fun hop hcount => ?_, fun hop hcount hbuf => ?_, fun hok hinit => ?_⟩
  · rw [if_pos ⟨hop, hcount⟩, failPrecondition_eq hb hf]
  · rw [if_neg fun h => hcount h.2, if_pos ⟨hop, hbuf⟩, failPrecondition_eq hb hf]
  · rw [if_neg (by tauto), if_neg (by tauto), if_pos hinit]

/-- The thread has no other command in flight that the new one would replace. -/
theorem filter_thread_of_txnOf_none {s : State} {t : Nat} (h : s.txnOf t = none) :
    (s.txns.filter fun y => y.thread != t) = s.txns :=
  List.filter_eq_self.2 fun y hy => bne_iff_ne.2 (txnOf_none h y hy)

/-- Settles O32: a command that passes every check is accepted. -/
theorem acceptedCommandIsLatched : Obligations.AcceptedCommandIsLatched := by
  intro i op dev reg s k b hi hk hb hf hinit hok hcur
  rw [exec_of_txnFields hi, issueTxn_of_bus hk hb hf, if_neg (by tauto), if_neg (by tauto), if_neg (by simp [hinit]),
    State.accept, State.addTxn, filter_thread_of_txnOf_none hcur]

/-! ### Turns -/

theorem busFaulted_of_unfaulted {s : State} {k : Nat} {b : Bus} (hb : s.buses[k]? = some b) (hf : b.fault = none) :
    s.busFaulted k = false := by
  simp [State.busFaulted, hb, hf]

/-- A turn of a thread with a command in flight is a turn of that command. -/
theorem fetch_of_txn {s : State} {x : Txn} (hb : s.cur ∉ s.blocked) (hx : s.txnOf s.cur = some x) :
    s.fetch = s.fetchMicro x := by
  rw [State.fetch, if_neg hb, hx]

/-- Settles O36: the turn fetches the word at UPC, on a bus that takes steps. -/
theorem stepRunsMicroOpAtUpc : Obligations.StepRunsMicroOpAtUpc := by
  intro s x b w hblocked hx hb hf hw hharness
  have hfaulted : s.turn.busFaulted x.bus = false := busFaulted_of_unfaulted hb hf
  have hwaits : s.turn.harnessWaits x = false := by
    rw [Bool.eq_false_iff, ne_eq, harnessWaits_iff]
    rintro ⟨hh, y, hy, hbus, hny⟩
    simp [hharness hh y hy hbus] at hny
  have hfetch : s.turn.fetch = s.turn.fetchMicro x := fetch_of_txn hblocked hx
  unfold step
  rw [hfetch]
  refine ⟨fun i hd => ?_, fun r hd => ?_⟩
  · simp [State.fetchMicro, hfaulted, hw, hwaits, hd]
  · simp only [State.fetchMicro, hfaulted, hw, hwaits, hd]
    rfl

/-- Settles O38: past the end of its micro-program the command returns. -/
theorem completedCommandReturnsNotFail : Obligations.CompletedCommandReturnsNotFail := by
  intro s x b hblocked hx hb hf hend
  have hfaulted : s.turn.busFaulted x.bus = false := busFaulted_of_unfaulted hb hf
  have hfetch : s.turn.fetch = s.turn.fetchMicro x := fetch_of_txn hblocked hx
  have hnone : x.uprog[x.upc]? = none := List.getElem?_eq_none hend.ge
  have hbus : s.turn.onBus x.bus (fun b => { b with result := some x.result }) =
      s.turn.setBus x.bus { b with result := some x.result } := onBus_unfaulted (s := s.turn) hb hf _
  unfold step
  rw [hfetch]
  simp only [State.fetchMicro, hfaulted, hnone, State.finish, hbus]
  rfl

/-! ### Reset -/

/-- Settles O42: the one bus of reset is a constructed one. -/
theorem resetIsConstructedInstance : Obligations.ResetIsConstructedInstance := by
  refine ⟨rfl, List.cons_ne_nil _ _, fun b hb => ?_⟩
  rw [mem_reset_buses hb]
  exact ⟨rfl, rfl, rfl, rfl, rfl, Nat.succ_pos _⟩

end Sys2Proof.Machine
end

section
/-!
SUPPORT. Expansions (R88): which micro-ops stand in one and which can follow which, and that their words decode to them.
-/

namespace Sys2Proof.Machine

/-! ### The micro-ops of an expansion -/

/-- The micro-ops between a START and the next IDLE or STOP: each starts and ends with SCL low (R74). -/
def transfers : Instr → Bool
  | .txi _ | .txm _ | .ackchk | .rxm _ | .sendack | .sendnack => true
  | _ => false

/-- What micro-ops stand in the expansion of c: TXM only in a write and RXM only in a read, with an index below COUNT. -/
def mayStandIn (c : Cmd) : Instr → Prop
  | .txm j => j.toNat < c.count ∧ c.op.hasBuffer = true ∧ c.op.isRead = false
  | .rxm j => j.toNat < c.count ∧ c.op.isRead = true
  | i => i.format = .uop

theorem mem_send {n : Nat} {i : Instr} (h : i ∈ send n) : (∃ k < n, i = .txm (BitVec.ofNat 24 k)) ∨ i = .ackchk := by
  obtain ⟨k, hk, hi⟩ := List.mem_flatMap.1 h
  obtain rfl | rfl : i = .txm (BitVec.ofNat 24 k) ∨ i = .ackchk := by simpa using hi
  · exact .inl ⟨k, List.mem_range.1 hk, rfl⟩
  · exact .inr rfl

theorem mem_recv {n : Nat} {i : Instr} (h : i ∈ recv n) :
    (∃ k < n, i = .rxm (BitVec.ofNat 24 k)) ∨ i = .sendack ∨ i = .sendnack := by
  cases n with
  | zero => simp [recv] at h
  | succ n =>
    rcases List.mem_append.1 h with h | h
    · obtain ⟨k, hk, hi⟩ := List.mem_flatMap.1 h
      obtain rfl | rfl : i = .rxm (BitVec.ofNat 24 k) ∨ i = .sendack := by simpa using hi
      · exact .inl ⟨k, (List.mem_range.1 hk).trans (Nat.lt_succ_self n), rfl⟩
      · exact .inr (.inl rfl)
    · obtain rfl | rfl : i = .rxm (BitVec.ofNat 24 n) ∨ i = .sendnack := by simpa using h
      · exact .inl ⟨n, Nat.lt_succ_self n, rfl⟩
      · exact .inr (.inr rfl)

theorem send_transfers (n : Nat) : ∀ i ∈ send n, transfers i = true := by
  intro i hi
  obtain ⟨k, -, rfl⟩ | rfl := mem_send hi <;> rfl

theorem recv_transfers (n : Nat) : ∀ i ∈ recv n, transfers i = true := by
  intro i hi
  obtain ⟨k, -, rfl⟩ | rfl | rfl := mem_recv hi <;> rfl

/-- One or two stretches of transfers, each behind a START (R88, R92). -/
theorem microOps_shape (c : Cmd) :
    ∃ d, (∀ i ∈ d, transfers i = true) ∧
      (microOps c = .lock :: .idle :: .start :: (d ++ [.stop, .unlock]) ∨
        ∃ d', (∀ i ∈ d', transfers i = true) ∧
          microOps c = .lock :: .idle :: .start :: (d ++ .idle :: .start :: (d' ++ [.stop, .unlock]))) := by
  obtain ⟨op, dev, reg, n, buf⟩ := c
  have hbyte (v : Byte) : ∀ i ∈ [Instr.txi v, .ackchk], transfers i = true := by
    intro i hi
    obtain rfl | rfl : i = .txi v ∨ i = .ackchk := by simpa using hi
    · rfl
    · rfl
  have happend {d d' : List Instr} (h : ∀ i ∈ d, transfers i = true) (h' : ∀ i ∈ d', transfers i = true) :
      ∀ i ∈ d ++ d', transfers i = true := List.forall_mem_append.2 ⟨h, h'⟩
  have haddr (rw : BitVec 1) : ∀ i ∈ sendAddr dev rw, transfers i = true := hbyte _
  have hreg8 : ∀ i ∈ sendReg8 reg, transfers i = true := hbyte _
  have hreg16 : ∀ i ∈ sendReg16 reg, transfers i = true := happend (hbyte _) (hbyte _)
  cases op with
  | probe => exact ⟨_, haddr dirWrite, .inl rfl⟩
  | readna => exact ⟨_, happend (haddr dirRead) (recv_transfers n), .inl rfl⟩
  | write8 => exact ⟨_, happend (happend (haddr dirWrite) hreg8) (send_transfers n), .inl rfl⟩
  | write16 => exact ⟨_, happend (happend (haddr dirWrite) hreg16) (send_transfers n), .inl rfl⟩
  | read8 =>
    refine ⟨_, happend (haddr dirWrite) hreg8, .inr ⟨_, happend (haddr dirRead) (recv_transfers n), ?_⟩⟩
    simp [microOps, headOps, body, repeatedStart, tailOps]
  | read16 =>
    refine ⟨_, happend (haddr dirWrite) hreg16, .inr ⟨_, happend (haddr dirRead) (recv_transfers n), ?_⟩⟩
    simp [microOps, headOps, body, repeatedStart, tailOps]

theorem mayStandIn_microOps {c : Cmd} (hc : c.count < 2 ^ 24) : ∀ i ∈ microOps c, mayStandIn c i := by
  obtain ⟨op, dev, reg, n, buf⟩ := c
  have index {k : Nat} (hk : k < n) : (BitVec.ofNat 24 k).toNat < n := by
    rw [BitVec.toNat_ofNat, Nat.mod_eq_of_lt (hk.trans hc)]
    exact hk
  have hsend (hop : op.hasBuffer = true ∧ op.isRead = false) : ∀ i ∈ send n, mayStandIn ⟨op, dev, reg, n, buf⟩ i := by
    intro i hi
    obtain ⟨k, hk, rfl⟩ | rfl := mem_send hi
    · exact ⟨index hk, hop⟩
    · rfl
  have hrecv (hop : op.isRead = true) : ∀ i ∈ recv n, mayStandIn ⟨op, dev, reg, n, buf⟩ i := by
    intro i hi
    obtain ⟨k, hk, rfl⟩ | rfl | rfl := mem_recv hi
    · exact ⟨index hk, hop⟩
    · rfl
    · rfl
  have hpair {i j : Instr} (hi : mayStandIn ⟨op, dev, reg, n, buf⟩ i) (hj : mayStandIn ⟨op, dev, reg, n, buf⟩ j) :
      ∀ k ∈ [i, j], mayStandIn ⟨op, dev, reg, n, buf⟩ k :=
    List.forall_mem_cons.2 ⟨hi, List.forall_mem_singleton.2 hj⟩
  have happend {d d' : List Instr} (h : ∀ i ∈ d, mayStandIn ⟨op, dev, reg, n, buf⟩ i)
      (h' : ∀ i ∈ d', mayStandIn ⟨op, dev, reg, n, buf⟩ i) : ∀ i ∈ d ++ d', mayStandIn ⟨op, dev, reg, n, buf⟩ i :=
    List.forall_mem_append.2 ⟨h, h'⟩
  have hbyte (v : Byte) : ∀ i ∈ [Instr.txi v, .ackchk], mayStandIn ⟨op, dev, reg, n, buf⟩ i := hpair rfl rfl
  have hreg8 : ∀ i ∈ sendReg8 reg, mayStandIn ⟨op, dev, reg, n, buf⟩ i := hbyte _
  have hreg16 : ∀ i ∈ sendReg16 reg, mayStandIn ⟨op, dev, reg, n, buf⟩ i := happend (hbyte _) (hbyte _)
  have hhead : ∀ i ∈ headOps, mayStandIn ⟨op, dev, reg, n, buf⟩ i := List.forall_mem_cons.2 ⟨rfl, hpair rfl rfl⟩
  have htail : ∀ i ∈ tailOps, mayStandIn ⟨op, dev, reg, n, buf⟩ i := hpair rfl rfl
  have hrestart : ∀ i ∈ repeatedStart, mayStandIn ⟨op, dev, reg, n, buf⟩ i := hpair rfl rfl
  refine happend (happend hhead ?_) htail
  cases op with
  | probe => exact hbyte _
  | read8 => exact happend (happend (happend (happend (hbyte _) hreg8) hrestart) (hbyte _)) (hrecv rfl)
  | read16 => exact happend (happend (happend (happend (hbyte _) hreg16) hrestart) (hbyte _)) (hrecv rfl)
  | readna => exact happend (hbyte _) (hrecv rfl)
  | write8 => exact happend (happend (hbyte _) hreg8) (hsend ⟨rfl, rfl⟩)
  | write16 => exact happend (happend (hbyte _) hreg16) (hsend ⟨rfl, rfl⟩)

/-! ### Their words -/

theorem mayStandIn_format {c : Cmd} {i : Instr} (h : mayStandIn c i) : i.format = .uop := by
  cases i with
  | txm | rxm => rfl
  | _ => exact h

theorem mayStandIn_wellFormed {c : Cmd} {i : Instr} (hc : c.count < 2 ^ 24) (h : mayStandIn c i) :
    i.wellFormed = true := by
  cases i with
  | txm j | rxm j =>
    obtain ⟨hj, -⟩ := h
    simp only [Instr.wellFormed, indexOk, decide_eq_true_eq]
    omega
  | _ => rfl

/-- Each micro-op of an expansion is what its word decodes to. -/
theorem decodeUop_microOps {c : Cmd} (hc : c.count < 2 ^ 24) {k : Nat} {i : Instr} (h : (microOps c)[k]? = some i) :
    (expand c)[k]? = some (encode i) ∧ decodeUop (encode i) = .ok i := by
  have hi := mayStandIn_microOps hc i (List.mem_of_getElem? h)
  exact ⟨by simp [expand, h], decodeUop_encode (mayStandIn_format hi) (mayStandIn_wellFormed hc hi)⟩

/-- What a word of an expansion decodes to is its micro-op. -/
theorem microOps_of_decodeUop {c : Cmd} (hc : c.count < 2 ^ 24) {k : Nat} {w : Word} {i : Instr}
    (hw : (expand c)[k]? = some w) (hd : decodeUop w = .ok i) : (microOps c)[k]? = some i := by
  rw [expand, List.getElem?_map, Option.map_eq_some_iff] at hw
  obtain ⟨j, hj, rfl⟩ := hw
  obtain rfl := Except.ok.inj ((decodeUop_microOps hc hj).2.symm.trans hd)
  exact hj

@[simp] theorem expand_length (c : Cmd) : (expand c).length = (microOps c).length := by simp [expand]

/-! ### Their order -/

/-- Micro-op b may follow a: no UNLOCK before, no LOCK behind, and a leaves the port as b needs it (R74, R86). -/
def MayFollow (a b : Instr) : Prop := a ≠ .unlock ∧ b ≠ .lock ∧ ∀ p, (phaseAfter a).holds p → opensOn b p

theorem mayFollow_idle {a : Instr} (h : a ≠ .unlock) : MayFollow a .idle := by
  refine ⟨h, by simp, fun p hp => ?_⟩
  cases hph : phaseAfter a with
  | released =>
    rw [hph] at hp
    obtain rfl : p = idlePort := hp
    exact ⟨⟨rfl, rfl⟩, .inl rfl⟩
  | clockLow =>
    rw [hph] at hp
    obtain ⟨hsda, hscl, hlow⟩ := hp
    exact ⟨⟨hsda, hscl⟩, .inr hlow⟩

/-- START and the transfers leave SCL low. -/
theorem phaseAfter_clockLow {a : Instr} (h : a = .start ∨ transfers a = true) :
    phaseAfter a = .clockLow ∧ a ≠ .unlock := by
  rcases h with rfl | h
  · simp [phaseAfter]
  · cases a with
    | txi | txm | ackchk | rxm | sendack | sendnack => exact ⟨rfl, by simp⟩
    | _ => cases h

theorem mayFollow_transfers {a b : Instr} (ha : a = .start ∨ transfers a = true)
    (hb : b = .stop ∨ transfers b = true) : MayFollow a b := by
  obtain ⟨hph, hne⟩ := phaseAfter_clockLow ha
  refine ⟨hne, ?_, fun p hp => ?_⟩
  · rintro rfl
    rcases hb with hb | hb <;> cases hb
  · rw [hph] at hp
    cases b with
    | stop | txi | txm | ackchk | rxm | sendack | sendnack => exact hp
    | _ => rcases hb with hb | hb <;> cases hb

/-- A stretch of transfers behind a START or a transfer, up to an IDLE or a STOP. -/
theorem isChain_transfers {d l : List Instr} (hd : ∀ i ∈ d, transfers i = true) (hl : l.IsChain MayFollow)
    (hhead : ∀ y ∈ l.head?, y = .idle ∨ y = .stop) {a : Instr} (ha : a = .start ∨ transfers a = true) :
    (a :: (d ++ l)).IsChain MayFollow := by
  induction d generalizing a with
  | nil =>
    refine List.isChain_cons.2 ⟨fun y hy => ?_, hl⟩
    obtain rfl | rfl := hhead y hy
    · exact mayFollow_idle (phaseAfter_clockLow ha).2
    · exact mayFollow_transfers ha (.inl rfl)
  | cons b d ih =>
    obtain ⟨hb, hd⟩ := List.forall_mem_cons.1 hd
    exact List.isChain_cons_cons.2 ⟨mayFollow_transfers ha (.inr hb), ih hd (.inr hb)⟩

/-- Each micro-op of an expansion may follow the one before it. -/
theorem microOps_isChain (c : Cmd) : (microOps c).IsChain MayFollow := by
  have hstop : [Instr.stop, .unlock].IsChain MayFollow :=
    List.isChain_pair.2 ⟨by simp, by simp, fun p hp => hp⟩
  have hstart {l : List Instr} (hl : (Instr.start :: l).IsChain MayFollow) :
      (Instr.idle :: .start :: l).IsChain MayFollow := by
    refine List.isChain_cons_cons.2 ⟨⟨by simp, by simp, fun p hp => ?_⟩, hl⟩
    obtain rfl : p = idlePort := hp
    exact ⟨rfl, rfl, rfl, rfl⟩
  have hlock {l : List Instr} (hl : (Instr.idle :: l).IsChain MayFollow) :
      (Instr.lock :: .idle :: l).IsChain MayFollow :=
    List.isChain_cons_cons.2 ⟨mayFollow_idle (by simp), hl⟩
  obtain ⟨d, hd, h | ⟨d', hd', h⟩⟩ := microOps_shape c
  · rw [h]
    exact hlock (hstart (isChain_transfers hd hstop (by simp) (.inl rfl)))
  · rw [h]
    exact hlock (hstart (isChain_transfers hd (hstart (isChain_transfers hd' hstop (by simp) (.inl rfl)))
      (by simp) (.inl rfl)))

theorem microOps_head (c : Cmd) : (microOps c)[0]? = some .lock := rfl

theorem microOps_last (c : Cmd) : (microOps c).getLast? = some .unlock := by
  simp [microOps, tailOps]

/-- LOCK stands only first (D39). -/
theorem microOps_lock_iff {c : Cmd} {k : Nat} {i : Instr} (h : (microOps c)[k]? = some i) : i = .lock ↔ k = 0 := by
  cases k with
  | zero =>
    rw [microOps_head] at h
    simp [← Option.some.inj h]
  | succ k =>
    obtain ⟨hk, rfl⟩ := List.getElem?_eq_some_iff.1 h
    simpa using ((microOps_isChain c).getElem k hk).2.1

/-- UNLOCK stands only last (D39). -/
theorem microOps_unlock_iff {c : Cmd} {k : Nat} {i : Instr} (h : (microOps c)[k]? = some i) :
    i = .unlock ↔ k + 1 = (microOps c).length := by
  obtain ⟨hk, rfl⟩ := List.getElem?_eq_some_iff.1 h
  constructor
  · intro hi
    by_contra hne
    exact ((microOps_isChain c).getElem k (by omega)).1 hi
  · intro hlen
    have hlast := microOps_last c
    rw [List.getLast?_eq_getElem?, ← hlen, Nat.add_sub_cancel, h] at hlast
    exact Option.some.inj hlast

/-- A micro-op finds the port as it needs it where the micro-op before it left it in its phase (R74). -/
theorem microOps_opensOn {c : Cmd} {k : Nat} {i j : Instr} {p : Port} (hj : (microOps c)[k]? = some j)
    (hi : (microOps c)[k + 1]? = some i) (hp : (phaseAfter j).holds p) : opensOn i p := by
  obtain ⟨hk, rfl⟩ := List.getElem?_eq_some_iff.1 hi
  obtain ⟨_, rfl⟩ := List.getElem?_eq_some_iff.1 hj
  exact ((microOps_isChain c).getElem k hk).2.2 p hp

end Sys2Proof.Machine
end

section
/-!
SUPPORT. The invariant of the engine (R35, R73, R74): what leaves it alone, each change a step can make to commands, locks
and ports, and then that every step keeps it.
-/

namespace Sys2Proof.Machine

/-! ### Changes the invariant does not see -/

/-- Port, lock and INITD are the same. -/
def Bus.SameLines (b b' : Bus) : Prop := b'.port = b.port ∧ b'.lock = b.lock ∧ b'.initd = b.initd

/-- From s to s' nothing changes that the invariant speaks of: no request is new, commands keep all but their log of
touched addresses, and an unfaulted bus was unfaulted with the same lines, or is new and not initialised. -/
structure EngineFrame (s s' : State) : Prop where
  params : s'.params = s.params
  requests : ∀ r ∈ s'.requests, r ∈ s.requests
  txns : ∃ f : Txn → Txn, (∀ y, f y = { y with raced := (f y).raced }) ∧ s'.txns = s.txns.map f
  length : s.buses.length ≤ s'.buses.length
  buses : ∀ (k : Nat) (b' : Bus), s'.buses[k]? = some b' → b'.fault = none →
    (∃ b, s.buses[k]? = some b ∧ b.fault = none ∧ b.SameLines b') ∨
      s.buses[k]? = none ∧ b'.lock = .absent ∧ b'.initd = false

/-- A bus stays in order where its lines are the same and the command that holds its lock is at the same place. -/
theorem busInOrder_of_sameLines {s s' : State} {k : Nat} {b b' : Bus} (h : s.busInOrder k b) (hb : b.SameLines b')
    (hholder : ∀ t x, b.lock = .held t → s.txnOf t = some x → x.bus = k → 0 < x.upc → x.upc < x.uprog.length →
      ∃ y, s'.txnOf t = some y ∧ y.bus = x.bus ∧ y.upc = x.upc ∧ y.uprog = x.uprog) : s'.busInOrder k b' := by
  obtain ⟨hport, hlock, hinitd⟩ := hb
  unfold State.busInOrder at h ⊢
  rw [hlock, hport, hinitd]
  split at h
  · exact h
  · exact h
  · rename_i t ht
    obtain ⟨hi, x, w, j, hx, hxk, h0, hlt, hw, hd, hph⟩ := h
    obtain ⟨y, hy, hyk, hyupc, hyuprog⟩ := hholder t x ht hx hxk h0 hlt
    refine ⟨hi, y, w, j, hy, hyk.trans hxk, ?_, ?_, ?_, hd, hph⟩ <;> rw [hyupc]
    · exact h0
    · rwa [hyuprog]
    · rwa [hyuprog]

theorem EngineFrame.keeps {s s' : State} (h : EngineFrame s s') (hs : EngineInv s) : EngineInv s' := by
  obtain ⟨hparams, hreq, hnodup, hgen, hheld, horder⟩ := hs
  obtain ⟨f, hf, htxns⟩ := h.txns
  have hmem {y' : Txn} (hy' : y' ∈ s'.txns) : ∃ y ∈ s.txns, y' = { y with raced := y'.raced } := by
    rw [htxns, List.mem_map] at hy'
    obtain ⟨y, hy, rfl⟩ := hy'
    exact ⟨y, hy, hf y⟩
  have htxnOf (t : Nat) : s'.txnOf t = (s.txnOf t).map f := by
    rw [State.txnOf, htxns]
    exact find_thread_map fun y _ => by rw [hf y]
  refine ⟨by rw [h.params, hparams], fun r hr => hreq r (h.requests r hr), ?_, fun y' hy' => ?_,
    fun y' hy' b' hb' hfault hpos hlt => ?_, fun k b' hb' hfault => ?_⟩
  · have hthread : Txn.thread ∘ f = Txn.thread := by
      funext y
      rw [Function.comp_apply, hf y]
    rwa [htxns, List.map_map, hthread]
  · obtain ⟨y, hy, heq⟩ := hmem hy'
    obtain ⟨hg, hk⟩ := hgen y hy
    rw [heq]
    exact ⟨hg, lt_of_lt_of_le hk h.length⟩
  · obtain ⟨y, hy, heq⟩ := hmem hy'
    rw [heq] at hb' hpos hlt ⊢
    obtain ⟨b, hb, hbf, -, hlock, -⟩ | ⟨hnone, -⟩ := h.buses _ b' hb' hfault
    · exact hlock.trans (hheld y hy b hb hbf hpos hlt)
    · exact absurd (hgen y hy).2 (Nat.not_lt.2 (List.getElem?_eq_none_iff.1 hnone))
  · obtain ⟨b, hb, hbf, hlines⟩ | ⟨-, hlock, hinitd⟩ := h.buses k b' hb' hfault
    · refine busInOrder_of_sameLines (horder k b hb hbf) hlines fun t x _ hx _ _ _ => ⟨f x, ?_, ?_⟩
      · rw [htxnOf, hx, Option.map_some]
      · rw [hf x]
        exact ⟨rfl, rfl, rfl⟩
    · rw [State.busInOrder, hlock]
      exact hinitd

theorem Bus.SameLines.refl (b : Bus) : b.SameLines b := ⟨rfl, rfl, rfl⟩

theorem engineFrame_of_eq {s s' : State} (hp : s'.params = s.params) (hr : ∀ r ∈ s'.requests, r ∈ s.requests)
    (ht : s'.txns = s.txns) (hb : s'.buses = s.buses) : EngineFrame s s' where
  params := hp
  requests := hr
  txns := ⟨id, fun _ => rfl, by rw [ht, List.map_id]⟩
  length := by rw [hb]
  buses k b' hb' hf := .inl ⟨b', hb ▸ hb', hf, .refl b'⟩

/-- One bus is replaced, by a faulted one or one with the same lines. -/
theorem engineFrame_of_set {s s' : State} {k : Nat} {b b' : Bus} (hb : s.buses[k]? = some b)
    (hlines : b'.fault = none → b.fault = none ∧ b.SameLines b') (hp : s'.params = s.params)
    (hr : s'.requests = s.requests) (ht : s'.txns = s.txns) (hbuses : s'.buses = s.buses.set k b') :
    EngineFrame s s' where
  params := hp
  requests r h := hr ▸ h
  txns := ⟨id, fun _ => rfl, by rw [ht, List.map_id]⟩
  length := by simp [hbuses]
  buses j c hc hf := by
    rw [hbuses] at hc
    by_cases hj : k = j
    · subst hj
      obtain rfl := Option.some.inj ((getElem?_set_self_of_some hb b').symm.trans hc)
      exact .inl ⟨b, hb, hlines hf⟩
    · exact .inl ⟨c, (List.getElem?_set_ne hj).symm.trans hc, hf, .refl c⟩

theorem faulted_engineFrame {s : State} {k : Nat} {b : Bus} (hb : s.buses[k]? = some b) (c : Bus) (t : Nat)
    (r : FaultReason) : EngineFrame s (s.withBusOnly k (c.faulted t r)) := by
  refine engineFrame_of_set (b' := c.faulted t r) hb (fun hf => ?_) rfl rfl rfl rfl
  cases hf

theorem Touched.engineFrame {t : Nat} {s s' : State} (h : Touched t s s') : EngineFrame s s' where
  params := h.params
  requests r hr := h.requests ▸ hr
  txns := by
    obtain ⟨f, hf, -, htxns⟩ := h.txns
    exact ⟨f, hf, htxns⟩
  length := by
    have hnone : s.buses[s'.buses.length]? = none := by
      obtain hk | ⟨b, u, -, -, hk⟩ := h.buses s'.buses.length
      · rw [← hk, List.getElem?_length]
      · simp at hk
    exact List.getElem?_eq_none_iff.1 hnone
  buses k b' hb' hf := by
    obtain hk | ⟨b, u, -, -, hk⟩ := h.buses k
    · exact .inl ⟨b', hk ▸ hb', hf, .refl b'⟩
    · obtain rfl := Option.some.inj (hk.symm.trans hb')
      cases hf

/-- A constructed bus is new and not initialised (R119). -/
theorem construct_engineFrame {s s' : State} {tHalf : Nat} {p : Pins} (h : s.construct tHalf p = .next s') :
    EngineFrame s.takeRequest s' := by
  unfold State.construct at h
  split at h
  · cases h
  · cases h
    refine ⟨rfl, fun _ h => h, ⟨id, fun _ => rfl, (List.map_id _).symm⟩, by simp, fun k b' hb' hf => ?_⟩
    rw [ret_buses, List.getElem?_append] at hb'
    split at hb'
    · exact .inl ⟨b', hb', hf, .refl b'⟩
    · rename_i hk
      rw [List.mem_singleton.1 (List.mem_of_getElem? hb')]
      exact .inr ⟨List.getElem?_eq_none_iff.2 (Nat.not_lt.1 hk), rfl, rfl⟩

theorem dropRequest_subset (t : Nat) (l : List Request) : dropRequest t l ⊆ l := by
  induction l with
  | nil => exact List.Subset.refl _
  | cons r l ih =>
    unfold dropRequest
    split
    · exact List.subset_cons_self r l
    · exact List.cons_subset_cons r ih

theorem takeRequest_engineFrame (s : State) : EngineFrame s s.takeRequest :=
  engineFrame_of_eq rfl (fun _ h => dropRequest_subset _ _ h) rfl rfl

/-! ### A micro-op that completes -/

/-- A genuine command's micro-op about to run: its place in the micro-program. -/
theorem microOp_of_genuine {x : Txn} (hg : x.genuine) {w : Word} {i : Instr} (hw : x.uprog[x.upc]? = some w)
    (hd : decodeUop w = .ok i) : (microOps x.cmd)[x.upc]? = some i := by
  obtain ⟨hacc, huprog, -⟩ := hg
  rw [huprog] at hw
  exact microOps_of_decodeUop hacc.1 hw hd

/-- What the invariant says where a micro-op is about to run: the port is as it needs it, the bus is initialised, and
except for LOCK the lock is held by its thread (R73, R74). -/
theorem EngineInv.ready {s : State} (hs : EngineInv s) {x : Txn} {b : Bus} {w : Word} {i : Instr}
    (hx : s.txnOf x.thread = some x) (hb : s.buses[x.bus]? = some b) (hf : b.fault = none)
    (hw : x.uprog[x.upc]? = some w) (hd : decodeUop w = .ok i) (hpos : 0 < x.upc) :
    b.lock = .held x.thread ∧ b.initd = true ∧ opensOn i b.port := by
  obtain ⟨-, -, -, hgen, hheld, horder⟩ := hs
  have hmem := (txnOf_some hx).2
  have hlt : x.upc < x.uprog.length := (List.getElem?_eq_some_iff.1 hw).1
  have hlock := hheld x hmem b hb hf hpos hlt
  have hord := horder x.bus b hb hf
  unfold State.busInOrder at hord
  rw [hlock] at hord
  obtain ⟨hinitd, y, w', j, hy, -, -, -, hw', hd', hph⟩ := hord
  obtain rfl := Option.some.inj (hx.symm.trans hy)
  obtain ⟨hg, -⟩ := hgen x hmem
  have hi := microOp_of_genuine hg hw hd
  obtain ⟨⟨hcount, -⟩, huprog, -⟩ := hg
  have hj : (microOps x.cmd)[x.upc - 1]? = some j := by
    rw [huprog] at hw'
    exact microOps_of_decodeUop hcount hw' hd'
  rw [← Nat.sub_add_cancel hpos] at hi
  exact ⟨hlock, hinitd, microOps_opensOn hj hi hph⟩

/-- So also where LOCK, first in its micro-program, is about to take a free lock. -/
theorem EngineInv.opens {s : State} (hs : EngineInv s) {x : Txn} {b : Bus} {w : Word} {i : Instr}
    (hx : s.txnOf x.thread = some x) (hb : s.buses[x.bus]? = some b) (hf : b.fault = none)
    (hw : x.uprog[x.upc]? = some w) (hd : decodeUop w = .ok i) (hl : i = .lock → b.initd = true ∧ b.lock = .free) :
    b.initd = true ∧ opensOn i b.port ∧ (b.lock = .free ∧ i = .lock ∨ b.lock = .held x.thread ∧ i ≠ .lock) := by
  have hready := hs.ready hx hb hf hw hd
  obtain ⟨-, -, -, hgen, -, horder⟩ := hs
  have hi := microOp_of_genuine (hgen x (txnOf_some hx).2).1 hw hd
  by_cases h0 : x.upc = 0
  · obtain rfl := (microOps_lock_iff hi).2 h0
    obtain ⟨hinitd, hfree⟩ := hl rfl
    have hord := horder x.bus b hb hf
    unfold State.busInOrder at hord
    rw [hfree] at hord
    exact ⟨hinitd, hord.2, .inl ⟨hfree, rfl⟩⟩
  · obtain ⟨hheld, hinitd, hopens⟩ := hready (Nat.pos_of_ne_zero h0)
    exact ⟨hinitd, hopens, .inr ⟨hheld, fun h => h0 ((microOps_lock_iff hi).1 h)⟩⟩

section
variable {s : State} {x x' : Txn} {b' : Bus} {es : List Event}

theorem mem_afterMicroOp {y : Txn} (h : y ∈ (s.afterMicroOp x b' x').txns) :
    y = x' ∨ y ∈ s.txns ∧ y.thread ≠ x.thread := by
  obtain ⟨z, hz, rfl⟩ := List.mem_map.1 h
  split
  · exact .inl rfl
  · exact .inr ⟨hz, ‹_›⟩

theorem afterMicroOp_threads (hx' : x.Continued es x') :
    (s.afterMicroOp x b' x').txns.map Txn.thread = s.txns.map Txn.thread := by
  rw [State.afterMicroOp, List.map_map]
  refine List.map_congr_left fun y _ => ?_
  rw [Function.comp_apply]
  split
  · rename_i hy
    rw [hx'.thread, hy]
  · rfl

theorem afterMicroOp_bus {b : Bus} (hb : s.buses[x.bus]? = some b) (k : Nat) :
    (s.afterMicroOp x b' x').buses[k]? = if x.bus = k then some b' else s.buses[k]? := by
  split
  · subst k
    exact getElem?_set_self_of_some hb b'
  · exact List.getElem?_set_ne ‹_›

end

/-- Behind every micro-op but UNLOCK the lock is held by its thread, where it was before or LOCK took it. -/
theorem Bus.Ran.held {i : Instr} {t : Nat} {es : List Event} {b b' : Bus} (hr : b.Ran i t es b')
    (hlock : b.lock = .free ∧ i = .lock ∨ b.lock = .held t ∧ i ≠ .lock) (hne : i ≠ .unlock) : b'.lock = .held t := by
  rw [hr.lock]
  obtain ⟨-, rfl⟩ | ⟨hheld, hnl⟩ := hlock
  · rfl
  · rw [lockAfter_of_ne hnl hne, hheld]

/-- The bus of a micro-op that completes stays in order: its command is one further, or has freed the lock. -/
theorem busInOrder_afterMicroOp {s' : State} {i : Instr} {x x' : Txn} {b' : Bus} {w : Word}
    (hx' : s'.txnOf x.thread = some x') (hbus : x'.bus = x.bus) (hupc : x'.upc = x.upc + 1)
    (huprog : x'.uprog = x.uprog) (hw : x.uprog[x.upc]? = some w) (hd : decodeUop w = .ok i)
    (hlast : i = .unlock ↔ x.upc + 1 = x.uprog.length) (hinitd : b'.initd = true) (hph : (phaseAfter i).holds b'.port)
    (hheld : i ≠ .unlock → b'.lock = .held x.thread) (hfree : i = .unlock → b'.lock = .free) :
    s'.busInOrder x.bus b' := by
  have hlt : x.upc < x.uprog.length := (List.getElem?_eq_some_iff.1 hw).1
  unfold State.busInOrder
  by_cases hu : i = .unlock
  · rw [hfree hu]
    subst hu
    exact ⟨hinitd, hph⟩
  · rw [hheld hu]
    have hne : x.upc + 1 ≠ x.uprog.length := fun h => hu (hlast.2 h)
    refine ⟨hinitd, x', w, i, hx', hbus, by omega, ?_, ?_, hd, hph⟩
    · rw [hupc, huprog]
      omega
    · rw [hupc, huprog, Nat.add_sub_cancel, hw]

/-- A micro-op that completes moves its command on and keeps the invariant. -/
theorem EngineInv.afterMicroOp {s : State} (hs : EngineInv s) {i : Instr} {x x' : Txn} {b b' : Bus} {es : List Event}
    {w : Word} (hx : s.txnOf x.thread = some x) (hb : s.buses[x.bus]? = some b) (hf : b.fault = none)
    (hw : x.uprog[x.upc]? = some w) (hd : decodeUop w = .ok i) (hr : b.Ran i x.thread es b') (hx' : x.Continued es x')
    (hl : i = .lock → b.initd = true ∧ b.lock = .free) : EngineInv (s.afterMicroOp x b' x') := by
  obtain ⟨hinitd, hopens, hlock⟩ := hs.opens hx hb hf hw hd hl
  obtain ⟨hparams, hreq, hnodup, hgen, hheld, horder⟩ := hs
  obtain ⟨hg, hbus⟩ := hgen x (txnOf_some hx).2
  have hi := microOp_of_genuine hg hw hd
  obtain ⟨hacc, huprog, -⟩ := hg
  have hlt : x.upc < x.uprog.length := (List.getElem?_eq_some_iff.1 hw).1
  have hlast : i = .unlock ↔ x.upc + 1 = x.uprog.length := by
    rw [microOps_unlock_iff hi, ← expand_length, ← huprog]
  have hph : (phaseAfter i).holds b'.port := by
    rw [hr.port]
    exact hr.events.phase hopens
  have hxupc : x'.upc = x.upc + 1 := by rw [hx']
  have hxbus : x'.bus = x.bus := by rw [hx']
  have hxuprog : x'.uprog = x.uprog := by rw [hx']
  have htxnOf := txnOf_afterMicroOp (T := s) (b' := b') hx' (by simp [hx])
  refine ⟨hparams, hreq, ?_, fun y hy => ?_, fun y hy c hc hcf hpos hlt' => ?_, fun k c hc hcf => ?_⟩
  · rwa [afterMicroOp_threads hx']
  · have hlen : (s.afterMicroOp x b' x').buses.length = s.buses.length := List.length_set
    rw [hlen]
    obtain rfl | ⟨hy, -⟩ := mem_afterMicroOp hy
    · refine ⟨?_, by rwa [hxbus]⟩
      rw [hx']
      exact ⟨hacc, huprog, hlt⟩
    · exact hgen y hy
  · rw [afterMicroOp_bus hb] at hc
    obtain rfl | ⟨hy, hne⟩ := mem_afterMicroOp hy
    · rw [hxbus, if_pos rfl] at hc
      obtain rfl := Option.some.inj hc
      rw [hxupc, hxuprog] at hlt'
      rw [hx'.thread]
      exact hr.held hlock fun hu => hlt'.ne (hlast.1 hu)
    · split at hc
      · rename_i hk
        have hyheld := hheld y hy b (hk ▸ hb) hf hpos hlt'
        obtain ⟨hfree, -⟩ | ⟨hxheld, -⟩ := hlock
        · simp [hfree] at hyheld
        · rw [hxheld] at hyheld
          exact absurd (LockState.held.inj hyheld).symm hne
      · exact hheld y hy c hc hcf hpos hlt'
  · rw [afterMicroOp_bus hb] at hc
    split at hc
    · subst k
      obtain rfl := Option.some.inj hc
      refine busInOrder_afterMicroOp (by simp [htxnOf]) hxbus hxupc hxuprog hw hd hlast (hr.initd.trans hinitd) hph
        (hr.held hlock) ?_
      rintro rfl
      exact hr.lock
    · rename_i hk
      refine busInOrder_of_sameLines (horder k c hc hcf) (.refl c) fun t y _ hy hyk _ _ => ⟨y, ?_, rfl, rfl, rfl⟩
      have hne : t ≠ x.thread := by
        rintro rfl
        obtain rfl := Option.some.inj (hx.symm.trans hy)
        exact hk hyk
      rw [htxnOf, if_neg hne, hy]

/-! ### Commands -/

/-- INIT, DEINIT and a failed precondition leave their bus in order: none of them can run between a LOCK and its
UNLOCK but to set RESULT. -/
theorem EngineInv.answered {s : State} (hs : EngineInv s) {k : Nat} {b b' : Bus} (hb : s.buses[k]? = some b)
    (hf : b.fault = none) (ha : b.Answered b') : EngineInv (s.setBus k b') := by
  obtain hlines | hlife := ha
  · exact (engineFrame_of_set (s' := s.setBus k b') hb (fun _ => ⟨hf, hlines⟩) rfl rfl rfl rfl).keeps hs
  obtain ⟨hparams, hreq, hnodup, hgen, hheld, horder⟩ := hs
  have hord := horder k b hb hf
  have hnotHeld (t : Nat) : b.lock ≠ .held t := by
    intro ht
    unfold State.busInOrder at hord
    rw [ht] at hord
    obtain ⟨hi, -⟩ | ⟨hl, -⟩ := hlife
    · simp [hi] at hord
    · simp [hl] at ht
  refine ⟨hparams, hreq, hnodup, by simpa using hgen, fun y hy c hc hcf hpos hlt => ?_, fun j c hc hcf => ?_⟩
  · by_cases hk : k = y.bus
    · exact absurd (hheld y hy b (hk ▸ hb) hf hpos hlt) (hnotHeld y.thread)
    · exact hheld y hy c ((List.getElem?_set_ne hk).symm.trans hc) hcf hpos hlt
  · by_cases hk : k = j
    · subst hk
      obtain rfl := Option.some.inj ((getElem?_set_self_of_some hb b').symm.trans hc)
      unfold State.busInOrder
      obtain ⟨-, hi, hl, hp⟩ | ⟨-, hi, hl⟩ := hlife
      · rw [hl]
        exact ⟨hi, hp⟩
      · rw [hl]
        exact hi
    · exact horder j c ((List.getElem?_set_ne hk).symm.trans hc) hcf

/-- A new command is in flight before its LOCK. -/
theorem EngineInv.addTxn {s : State} (hs : EngineInv s) {z : Txn} (hz : s.txnOf z.thread = none) (hg : z.genuine)
    (hbus : z.bus < s.buses.length) (hupc : z.upc = 0) : EngineInv (s.addTxn z) := by
  obtain ⟨hparams, hreq, hnodup, hgen, hheld, horder⟩ := hs
  have htxns : (s.addTxn z).txns = z :: s.txns := by rw [addTxn_txns, filter_thread_of_txnOf_none hz]
  refine ⟨hparams, hreq, ?_, ?_, ?_, fun k c hc hcf => ?_⟩
  · rw [htxns, List.map_cons, List.nodup_cons]
    refine ⟨fun h => ?_, hnodup⟩
    obtain ⟨y, hy, hthread⟩ := List.mem_map.1 h
    exact txnOf_none hz y hy hthread
  · rw [htxns, List.forall_mem_cons]
    exact ⟨⟨hg, hbus⟩, hgen⟩
  · rw [htxns, List.forall_mem_cons]
    exact ⟨fun c _ _ hpos => by omega, hheld⟩
  · refine busInOrder_of_sameLines (horder k c hc hcf) (.refl c) fun t y _ hy _ _ _ => ⟨y, ?_, rfl, rfl, rfl⟩
    have hne : t ≠ z.thread := by
      rintro rfl
      simp [hz] at hy
    rw [txnOf_addTxn, if_neg hne, hy]

/-- A command that returns is behind its UNLOCK. -/
theorem EngineInv.dropTxn {s : State} (hs : EngineInv s) {x : Txn} (hx : s.txnOf x.thread = some x)
    (hend : x.uprog.length ≤ x.upc) : EngineInv (s.dropTxn x.thread) := by
  obtain ⟨hparams, hreq, hnodup, hgen, hheld, horder⟩ := hs
  have hmem {y : Txn} (hy : y ∈ (s.dropTxn x.thread).txns) : y ∈ s.txns := (List.mem_filter.1 hy).1
  refine ⟨hparams, hreq, ?_, fun y hy => hgen y (hmem hy), fun y hy => hheld y (hmem hy), fun k c hc hcf => ?_⟩
  · exact hnodup.sublist (List.filter_sublist.map _)
  · refine busInOrder_of_sameLines (horder k c hc hcf) (.refl c) fun t y _ hy _ _ hlt => ⟨y, ?_, rfl, rfl, rfl⟩
    have hne : t ≠ x.thread := by
      rintro rfl
      obtain rfl := Option.some.inj (hx.symm.trans hy)
      omega
    rw [txnOf_dropTxn, if_neg hne, hy]

/-! ### An instruction -/

/-- An instruction keeps the invariant: a command of a thread that has none in flight, with a COUNT that fits, or the
micro-op at UPC. -/
theorem ExecNext.engineInv {i : Instr} {s s' : State} (h : ExecNext i s s') (hs : EngineInv s)
    (hcmd : i.format = .cmd → s.txnOf s.cur = none ∧ s.desc.count < 2 ^ 24)
    (huop : i.format = .uop → ∀ x, s.txnOf s.cur = some x → ∃ w, x.uprog[x.upc]? = some w ∧ decodeUop w = .ok i) :
    EngineInv s' := by
  cases h with
  | hold => exact hs
  | refused | noInstance | nullBus => exact (engineFrame_of_eq rfl (fun _ h => h) rfl rfl).keeps hs
  | answered _ hb hf _ ha => exact (engineFrame_of_eq rfl (fun _ h => h) rfl rfl).keeps (hs.answered hb hf ha)
  | accepted hi hb hop =>
    obtain ⟨hcur, hcount⟩ := hcmd hi
    exact hs.addTxn hcur ⟨⟨hcount, hop⟩, rfl, Nat.zero_le _⟩ (List.getElem?_eq_some_iff.1 hb).1 rfl
  | raised _ hb =>
    exact (engineFrame_of_eq rfl (fun _ h => h) rfl rfl).keeps ((faulted_engineFrame hb ..).keeps hs)
  | @completed T x x' b b' es hi hx hT hb hr hx' hl =>
    obtain ⟨w, hw, hd⟩ := huop hi x hx.1
    have hown : s.txnOf x.thread = some x := hx.thread ▸ hx.1
    obtain rfl | ⟨-, hT⟩ := hT
    · exact hs.afterMicroOp hown hb hx.2.2 hw hd hr hx' hl
    · exact (hT.engineFrame.keeps hs).afterMicroOp (hT.txnOf_own hown) hb hx.2.2 hw hd hr hx' hl
  | raced _ _ _ hT hb =>
    exact (faulted_engineFrame hb ..).keeps (hT.engineFrame.keeps hs)

/-! ### A step -/

theorem finish_engineInv {s : State} (hs : EngineInv s) {x : Txn} (hx : s.txnOf x.thread = some x)
    (hend : x.uprog.length ≤ x.upc) : EngineInv (s.finish x) := by
  obtain h | ⟨l, h, hl⟩ := finish_cases s x <;> rw [h]
  · exact hs
  · have hset : EngineInv { s with buses := l } := by
      obtain rfl | ⟨b, hb, hf, rfl⟩ := hl
      · exact hs
      · exact hs.answered hb hf (.inl ⟨rfl, rfl, rfl⟩)
    exact (engineFrame_of_eq rfl (fun _ h => h) rfl rfl).keeps (hset.dropTxn hx hend)

theorem MicroTurn.engineInv {s s' : State} {x : Txn} (hs : EngineInv s) (hx : s.txnOf s.cur = some x)
    (h : MicroTurn s s' x) : EngineInv s' := by
  obtain ⟨hend, rfl⟩ | ⟨w, hw, ⟨i, hd, h⟩ | ⟨r, -, rfl⟩⟩ := h
  · have hthread := (txnOf_some hx).1
    exact finish_engineInv hs (hthread ▸ hx) (List.getElem?_eq_none_iff.1 hend)
  · refine (exec_next h).engineInv hs (fun hi => by simp [decodeUop_format hd] at hi) fun _ y hy => ?_
    obtain rfl := Option.some.inj (hx.symm.trans hy)
    exact ⟨w, hw, hd⟩
  · exact (engineFrame_of_eq rfl (fun _ h => h) rfl rfl).keeps hs

/-- A well-formed descriptor has a COUNT of at most 24 bits, whatever the legal width (R6, R56). -/
theorem count_lt_of_wellFormed {p : Params} (hp : p.legal = true) {d : Descriptor} (hd : d.wellFormed p = true) :
    d.count < 2 ^ 24 := by
  simp only [Params.legal, Bool.and_eq_true, decide_eq_true_eq] at hp
  simp only [Descriptor.wellFormed, Bool.and_eq_true, decide_eq_true_eq] at hd
  obtain ⟨hcount, -⟩ := hd
  obtain ⟨-, hwidth⟩ := hp
  exact hcount.trans_le (Nat.pow_le_pow_right (by decide) hwidth)

theorem mem_of_requestOf {s : State} {t : Nat} {a : HostAction} (h : s.requestOf t = some a) :
    ∃ r ∈ s.requests, r.action = a := by
  obtain ⟨r, hr, ha⟩ := Option.map_eq_some_iff.1 h
  exact ⟨r, List.mem_of_find?_eq_some hr, ha⟩

theorem RequestTurn.engineInv {s s' : State} {a : HostAction} (hs : EngineInv s) (hcur : s.txnOf s.cur = none)
    (ha : s.requestOf s.cur = some a) (h : RequestTurn s s' a) : EngineInv s' := by
  have htake : EngineInv s.takeRequest := (takeRequest_engineFrame s).keeps hs
  cases a with
  | issue d =>
    have hdesc : EngineInv (s.takeDescriptor d) := (engineFrame_of_eq rfl (fun _ h => h) rfl rfl).keeps htake
    obtain ⟨hwf, ⟨i, hd, h⟩ | ⟨r, -, rfl⟩⟩ := h
    · refine (exec_next h).engineInv hdesc (fun _ => ⟨hcur, count_lt_of_wellFormed hs.1 hwf⟩) fun _ x hx => ?_
      exact absurd (hcur.symm.trans hx) (by simp)
    · exact (engineFrame_of_eq rfl (fun _ h => h) rfl rfl).keeps hdesc
  | construct tHalf p => exact (construct_engineFrame h).keeps htake
  | load a =>
    obtain ⟨T, v, hT, rfl⟩ := hostLoad_touched h
    exact (engineFrame_of_eq rfl (fun _ h => h) rfl rfl).keeps (hT.engineFrame.keeps htake)
  | store a v =>
    obtain ⟨T, hT, rfl⟩ := hostStore_touched h
    have hwrite : EngineInv (s.takeRequest.writeByte a v) :=
      (engineFrame_of_eq rfl (fun _ h => h) rfl rfl).keeps htake
    exact (engineFrame_of_eq rfl (fun _ h => h) rfl rfl).keeps (hT.engineFrame.keeps hwrite)
  | harness k c ws =>
    obtain ⟨r, hr, hra⟩ := mem_of_requestOf ha
    exact absurd hra (hs.2.1 r hr k c ws)

/-- Settles O46: every way a step can go keeps the invariant. -/
theorem stepKeepsEngineInvariant : Obligations.StepKeepsEngineInvariant := by
  intro s s' hs h
  have hturn : EngineInv s.turn := (engineFrame_of_eq rfl (fun _ h => h) rfl rfl).keeps hs
  obtain rfl | ⟨x, hx, -, -, h⟩ | ⟨hcur, -, a, ha, h⟩ := step_cases h
  · exact hturn
  · exact h.engineInv hturn hx
  · exact h.engineInv hturn hcur ha

/-- Settles O47: the lock exists, and no command is at a place where it could hold it. -/
theorem idleInstanceHasLinesReleased : Obligations.IdleInstanceHasLinesReleased := by
  intro s k b hs hb hf hinitd hidle
  obtain ⟨-, -, -, -, -, horder⟩ := hs
  have hord := horder k b hb hf
  unfold State.busInOrder at hord
  split at hord
  · simp [hinitd] at hord
  · exact ⟨‹_›, hord.2⟩
  · obtain ⟨-, x, w, j, hx, hk, hpos, hlt, -⟩ := hord
    have := hidle x (txnOf_some hx).2 hk
    omega

end Sys2Proof.Machine
end

section
/-!
SUPPORT. A whole command alone (R89 to R91): each micro-op runs where it stands, and the command returns at its end.
-/

namespace Sys2Proof.Machine

/-! ### A micro-op that can run -/

/-- Nothing keeps micro-op i of the command x from completing on its bus b: the lock is as LOCK and UNLOCK need it, and
a byte that TXM or RXM accesses is in range and in no race (R79, R81, R85, R86). -/
def CanRun (i : Instr) (s : State) (x : Txn) (b : Bus) : Prop :=
  match i with
  | .lock => b.initd = true ∧ b.lock = .free
  | .unlock => b.lock = .held x.thread
  | .txm j => j.toNat < x.cmd.count ∧ s.readable (x.cmd.bufAddr j.toNat) = true ∧ x.cmd.bufAddr j.toNat ∉ x.raced ∧
      s.quiet x.thread false (x.cmd.bufAddr j.toNat)
  | .rxm j => j.toNat < x.cmd.count ∧ s.writable (x.cmd.bufAddr j.toNat) = true ∧ x.cmd.bufAddr j.toNat ∉ x.raced ∧
      s.quiet x.thread true (x.cmd.bufAddr j.toNat)
  | i => i.format = .uop

/-- From s to s' micro-op i of the command x completed on b with the events es; memory may have changed. -/
structure CompletedTo (i : Instr) (s : State) (x : Txn) (b : Bus) (s' : State) (x' : Txn) (b' : Bus)
    (es : List Event) : Prop where
  params : s'.params = s.params
  layout : s'.layout = s.layout
  sched : s'.sched = s.sched
  blocked : s'.blocked = s.blocked
  returns : s'.returns = s.returns
  txns : s'.txns = s.txns.map fun y => if y.thread = x.thread then x' else y
  buses : s'.buses = s.buses.set x.bus b'
  ran : b.Ran i x.thread es b'
  continued : x.Continued es x'

theorem completedTo_afterMicroOp {i : Instr} {s : State} {x x' : Txn} {b b' : Bus} {es : List Event}
    (hr : b.Ran i x.thread es b') (hx' : x.Continued es x') :
    CompletedTo i s x b (s.afterMicroOp x b' x') x' b' es :=
  ⟨rfl, rfl, rfl, rfl, rfl, rfl, rfl, hr, hx'⟩

theorem busMicroOp_completedTo {i : Instr} {s : State} {x : Txn} {b : Bus} (hx : InFlight s x b) (hi : i ≠ .ackchk)
    {f : Txn → Bus → Bus} {es : List Event} (hr : b.Ran i x.thread es (f x b)) :
    ∃ s' x' b' es, s.busMicroOp f = .next s' ∧ CompletedTo i s x b s' x' b' es :=
  ⟨_, _, _, es, busMicroOp_inFlight hx f, completedTo_afterMicroOp hr (continued_of_ran hr hi x)⟩

/-- The end of TXM and RXM where no other command sees the access. -/
theorem access_completedTo {i : Instr} {s T : State} {x : Txn} {b c : Bus} {w : Bool} {a : Nat} {f : Bus → Bus}
    {es : List Event} (hx : InFlight s x b) (hi : i ≠ .ackchk) (hT : ∃ mem, T = { s.setBus x.bus c with mem := mem })
    (hquiet : s.quiet x.thread w a) (hw : b.Went i c) (hr : b.Ran i x.thread es (f c)) :
    ∃ x' b' es, CompletedTo i s x b ((T.touch x.thread w a).carryOn x f) x' b' es := by
  obtain ⟨mem, hT⟩ := hT
  have htouch : T.touch x.thread w a = T := touch_of_quiet (hT ▸ hquiet)
  rw [htouch, hT]
  have hc : (s.buses.set x.bus c)[x.bus]? = some c := getElem?_set_self_of_some hx.2.1 c
  have hcf : c.fault = none := hw.fault.trans hx.2.2
  refine ⟨{ x with upc := x.upc + 1 }, f c, es, ?_⟩
  unfold State.carryOn
  simp only [setBus_buses, hc, hcf, Option.isSome_none, Bool.false_eq_true, if_false]
  exact ⟨rfl, rfl, rfl, rfl, rfl, rfl, List.set_set .., hr, continued_of_ran hr hi x⟩

theorem execTxm_completedTo {j : BitVec 24} {s : State} {x : Txn} {b : Bus} (hx : InFlight s x b)
    (h : CanRun (.txm j) s x b) :
    ∃ s' x' b' es, execTxm j s = .next s' ∧ CompletedTo (.txm j) s x b s' x' b' es := by
  obtain ⟨hcount, hread, hraced, hquiet⟩ := h
  have hr := ran_txm j x.thread (x.cmd.bufAddr j.toNat) (s.readByte (x.cmd.bufAddr j.toNat)) b
  obtain ⟨x', b', es, hdone⟩ := access_completedTo hx (by simp) ⟨s.mem, rfl⟩ hquiet (went_mrd ..) hr
  refine ⟨_, x', b', es, (withCommand_inFlight hx _).trans ?_, hdone⟩
  dsimp only
  rw [if_neg (Nat.not_le.2 hcount), if_neg (by simp [hread]), if_neg hraced]
  rfl

theorem execRxm_completedTo {j : BitVec 24} {s : State} {x : Txn} {b : Bus} (hx : InFlight s x b)
    (h : CanRun (.rxm j) s x b) :
    ∃ s' x' b' es, execRxm j s = .next s' ∧ CompletedTo (.rxm j) s x b s' x' b' es := by
  obtain ⟨hcount, hwrite, hraced, hquiet⟩ := h
  obtain ⟨es, hr, hw⟩ := ran_rxm j x.thread (x.cmd.bufAddr j.toNat) b
  obtain ⟨x', b', es, hdone⟩ := access_completedTo hx (by simp) ⟨_, rfl⟩ hquiet hw hr
  refine ⟨_, x', b', es, (withCommand_inFlight hx _).trans ?_, hdone⟩
  dsimp only
  rw [if_neg (Nat.not_le.2 hcount), if_neg (by simp [hwrite]), if_neg hraced]
  rfl

theorem execAckchk_completedTo {s : State} {x : Txn} {b : Bus} (hx : InFlight s x b) :
    ∃ s' x' b' es, execAckchk s = .next s' ∧ CompletedTo .ackchk s x b s' x' b' es := by
  obtain ⟨es, hr, hx'⟩ := ackchk_continued x b
  exact ⟨_, _, _, es, withCommand_inFlight hx _, completedTo_afterMicroOp hr hx'⟩

theorem execLock_completedTo {s : State} {x : Txn} {b : Bus} (hx : InFlight s x b) (h : CanRun .lock s x b) :
    ∃ s' x' b' es, execLock s = .next s' ∧ CompletedTo .lock s x b s' x' b' es := by
  have hr := ran_lock x.thread b
  refine ⟨_, _, _, _, (withCommand_inFlight hx _).trans ?_,
    completedTo_afterMicroOp hr (continued_of_ran hr (by simp) x)⟩
  rw [if_neg (by simp [h.1]), if_pos h.2]
  rfl

theorem execUnlock_completedTo {s : State} {x : Txn} {b : Bus} (hx : InFlight s x b) (h : CanRun .unlock s x b) :
    ∃ s' x' b' es, execUnlock s = .next s' ∧ CompletedTo .unlock s x b s' x' b' es := by
  have hr := ran_unlock x.thread b
  refine ⟨_, _, _, _, (withCommand_inFlight hx _).trans ?_,
    completedTo_afterMicroOp hr (continued_of_ran hr (by simp) x)⟩
  have hheld : b.lock = .held x.thread := h
  rw [if_pos hheld]
  rfl

/-- A micro-op that can run completes. -/
theorem exec_completedTo {i : Instr} {s : State} {x : Txn} {b : Bus} (hx : InFlight s x b) (h : CanRun i s x b) :
    ∃ s' x' b' es, exec i s = .next s' ∧ CompletedTo i s x b s' x' b' es := by
  cases i with
  | init | deinit | probe | read8 | read16 | readna | write8 | write16 => cases h
  | idle => exact busMicroOp_completedTo hx (by simp) (ran_emits .idle rfl (by simp) (by simp) x.thread)
  | start => exact busMicroOp_completedTo hx (by simp) (ran_emits .start rfl (by simp) (by simp) x.thread)
  | stop => exact busMicroOp_completedTo hx (by simp) (ran_emits .stop rfl (by simp) (by simp) x.thread)
  | sendack => exact busMicroOp_completedTo hx (by simp) (ran_emits .sendack rfl (by simp) (by simp) x.thread)
  | sendnack => exact busMicroOp_completedTo hx (by simp) (ran_emits .sendnack rfl (by simp) (by simp) x.thread)
  | txi imm => exact busMicroOp_completedTo hx (by simp) (ran_txi imm x.thread b)
  | txm => exact execTxm_completedTo hx h
  | rxm => exact execRxm_completedTo hx h
  | ackchk => exact execAckchk_completedTo hx
  | lock => exact execLock_completedTo hx h
  | unlock => exact execUnlock_completedTo hx h

/-! ### A command alone -/

/-- The events of micro-ops one after the other from port p, each of which finds the port as it does in an expansion. -/
inductive Traced (T : Nat) : Port → List Instr → List Event → Prop
  | nil (p : Port) : Traced T p [] []
  | cons {p : Port} {i : Instr} {is : List Instr} {es fs : List Event} (hi : opensOn i p) (he : OpEvents T i es)
    (hrest : Traced T (portAfter p es) is fs) : Traced T p (i :: is) (es ++ fs)

/-- The bytes of the command's buffer may be accessed as the command does (R40). -/
def BufferUsable (s : State) (c : Cmd) : Prop :=
  ∀ i, i < c.count → (c.op.isRead = true → s.writable (c.buf + i) = true) ∧
    (c.op.hasBuffer = true → c.op.isRead = false → s.readable (c.buf + i) = true)

/-- The command x of thread t is the only one in flight, on the bus b; the next turns are t's, one for each of the m
micro-ops that x has still to run and one for its return. -/
structure Alone (s : State) (t : Nat) (x : Txn) (b : Bus) (m : Nat) : Prop where
  sched : ∃ rest, s.sched = List.replicate (m + 1) t ++ rest
  blocked : t ∉ s.blocked
  txns : s.txns = [x]
  thread : x.thread = t
  bus : s.buses[x.bus]? = some b
  fault : b.fault = none
  acceptable : x.cmd.acceptable
  uprog : x.uprog = expand x.cmd
  upc : x.upc + m = x.uprog.length
  raced : x.raced = []
  buffer : BufferUsable s x.cmd
  initd : b.initd = true
  opens : ∀ i, (microOps x.cmd)[x.upc]? = some i →
    opensOn i b.port ∧ (b.lock = .free ∧ i = .lock ∨ b.lock = .held t ∧ i ≠ .lock)
  released : m = 0 → b.lock = .free ∧ b.port = idlePort

section
variable {s : State} {t m : Nat} {x : Txn} {b : Bus} (h : Alone s t x b m)
include h

theorem Alone.nextThread : s.nextThread = t := by
  obtain ⟨rest, hs⟩ := h.sched
  rw [State.nextThread, hs]
  rfl

theorem Alone.txnOf : s.txnOf t = some x := by
  simp [State.txnOf, h.txns, h.thread]

theorem Alone.inFlight : InFlight s.turn x b := by
  refine ⟨?_, h.bus, h.fault⟩
  have hcur : s.turn.cur = t := h.nextThread
  rw [hcur]
  exact h.txnOf

theorem Alone.quiet (w : Bool) (a : Nat) : s.turn.quiet x.thread w a := by
  intro y hy hne
  rw [turn_txns, h.txns, List.mem_singleton] at hy
  rw [hy] at hne
  exact absurd rfl hne

/-- The micro-op at UPC of a command alone can run. -/
theorem Alone.canRun {i : Instr} (hi : (microOps x.cmd)[x.upc]? = some i) : CanRun i s.turn x b := by
  have hstand := mayStandIn_microOps h.acceptable.1 i (List.mem_of_getElem? hi)
  obtain ⟨-, hlock⟩ := h.opens i hi
  cases i with
  | lock =>
    obtain ⟨hfree, -⟩ | ⟨-, hne⟩ := hlock
    · exact ⟨h.initd, hfree⟩
    · exact absurd rfl hne
  | unlock =>
    obtain ⟨-, hl⟩ | ⟨hheld, -⟩ := hlock
    · cases hl
    · rw [← h.thread] at hheld
      exact hheld
  | txm j =>
    obtain ⟨hj, hop, hread⟩ := hstand
    exact ⟨hj, (h.buffer _ hj).2 hop hread, by simp [h.raced], h.quiet _ _⟩
  | rxm j =>
    obtain ⟨hj, hread⟩ := hstand
    exact ⟨hj, (h.buffer _ hj).1 hread, by simp [h.raced], h.quiet _ _⟩
  | _ => exact hstand

end

/-- A completed micro-op leaves a command alone that was. -/
theorem Alone.completed {s s' : State} {t m : Nat} {x x' : Txn} {b b' : Bus} {i : Instr} {es : List Event}
    (h : Alone s t x b (m + 1)) (hi : (microOps x.cmd)[x.upc]? = some i)
    (hdone : CompletedTo i s.turn x b s' x' b' es) : Alone s' t x' b' m := by
  obtain ⟨hparams, hlayout, hsched, hblocked, -, htxns, hbuses, hr, hx'⟩ := hdone
  obtain ⟨hopens, hlock⟩ := h.opens i hi
  have hupc := h.upc
  have hlast : i = .unlock ↔ m = 0 := by
    rw [microOps_unlock_iff hi, ← expand_length, ← h.uprog]
    omega
  have hph : (phaseAfter i).holds b'.port := by
    rw [hr.port]
    exact hr.events.phase hopens
  have hxcmd : x'.cmd = x.cmd := by rw [hx']
  have hxbus : x'.bus = x.bus := by rw [hx']
  have hxupc : x'.upc = x.upc + 1 := by rw [hx']
  have hxuprog : x'.uprog = x.uprog := by rw [hx']
  constructor
  case sched =>
    obtain ⟨rest, hs⟩ := h.sched
    exact ⟨rest, by rw [hsched, turn_sched, hs]; rfl⟩
  case blocked => rw [hblocked]; exact h.blocked
  case txns => simp [htxns, h.txns]
  case thread => rw [hx'.thread]; exact h.thread
  case bus =>
    rw [hbuses, hxbus]
    exact getElem?_set_self_of_some h.bus b'
  case fault => exact hr.fault.trans h.fault
  case acceptable => rw [hxcmd]; exact h.acceptable
  case uprog => rw [hxuprog, hxcmd]; exact h.uprog
  case upc =>
    rw [hxupc, hxuprog]
    omega
  case raced => rw [hx']; exact h.raced
  case buffer =>
    rw [hxcmd]
    simpa only [BufferUsable, State.readable, State.writable, hparams, hlayout, turn_params, turn_layout] using h.buffer
  case initd => exact hr.initd.trans h.initd
  case opens =>
    intro j hj
    rw [hxcmd, hxupc] at hj
    refine ⟨microOps_opensOn hi hj hph, .inr ⟨?_, fun hl => ?_⟩⟩
    · rw [← h.thread] at hlock ⊢
      refine hr.held hlock fun hu => ?_
      have hlt := (List.getElem?_eq_some_iff.1 hj).1
      have hend := (microOps_unlock_iff hi).1 hu
      omega
    · have := (microOps_lock_iff hj).1 hl
      omega
  case released =>
    intro hm
    obtain rfl := hlast.2 hm
    exact ⟨hr.lock, hph⟩

/-- One micro-op of a command alone. -/
theorem Alone.step {s : State} {t m : Nat} {x : Txn} {b : Bus} (h : Alone s t x b (m + 1)) :
    ∃ s' x' b' i es, step s = .next s' ∧ (microOps x.cmd)[x.upc]? = some i ∧ opensOn i b.port ∧
      CompletedTo i s.turn x b s' x' b' es := by
  have hlen : x.upc < (microOps x.cmd).length := by
    have hupc := h.upc
    rw [h.uprog, expand_length] at hupc
    omega
  have hi : (microOps x.cmd)[x.upc]? = some ((microOps x.cmd)[x.upc]) := List.getElem?_eq_getElem hlen
  generalize (microOps x.cmd)[x.upc] = i at hi
  obtain ⟨hw, hd⟩ := decodeUop_microOps h.acceptable.1 hi
  obtain ⟨s', x', b', es, hexec, hdone⟩ := exec_completedTo h.inFlight (h.canRun hi)
  refine ⟨s', x', b', i, es, ?_, hi, (h.opens i hi).1, hdone⟩
  rw [← hexec]
  refine (stepRunsMicroOpAtUpc s x b _ ?_ ?_ h.bus h.fault (h.uprog ▸ hw) ?_).1 i hd
  · rw [h.nextThread]
    exact h.blocked
  · rw [h.nextThread]
    exact h.txnOf
  · intro hx y hy _
    rw [h.txns, List.mem_singleton] at hy
    rwa [hy]

/-- From s to s' the command x of thread t, alone on b, ran to its end and returned, with the events es on the bus,
which is b' then. -/
structure RanToReturn (s : State) (t : Nat) (x : Txn) (b : Bus) (s' : State) (b' : Bus) (es : List Event) : Prop where
  txns : s'.txns = []
  buses : s'.buses = s.buses.set x.bus b'
  lock : b'.lock = .free
  port : b'.port = idlePort
  fault : b'.fault = none
  traced : Traced b.tHalf b.port ((microOps x.cmd).drop x.upc) es
  hist : b'.hist = b.hist ++ tagged t es
  result : b'.result = some (!(x.fail || decide (0 < missedAcks es)))
  returns : s'.returns = s.returns ++
    [⟨t, some x.bus, .code (if x.fail || decide (0 < missedAcks es) then .eNack else .ok)⟩]

/-- The return of a command alone. -/
theorem Alone.ran_return {s : State} {t : Nat} {x : Txn} {b : Bus} (h : Alone s t x b 0) :
    ∃ s' b', Machine.step s = .next s' ∧ RanToReturn s t x b s' b' [] := by
  have hend : x.upc = x.uprog.length := h.upc
  obtain ⟨hlock, hport⟩ := h.released rfl
  have hstep := completedCommandReturnsNotFail s x b (by rw [h.nextThread]; exact h.blocked)
    (by rw [h.nextThread]; exact h.txnOf) h.bus h.fault hend
  refine ⟨_, { b with result := some (!x.fail) }, hstep, ?_, rfl, hlock, hport, h.fault, ?_, ?_, ?_, ?_⟩
  · simp [h.txns]
  · rw [hend, h.uprog, expand_length, List.drop_length]
    exact .nil _
  · simp
  · simp [missedAcks]
  · simp [missedAcks, h.nextThread]

/-- A micro-op, and then the rest of the command. -/
theorem RanToReturn.of_completed {s s1 s' : State} {t : Nat} {x x1 : Txn} {b b1 b' : Bus} {i : Instr}
    {es fs : List Event} (hthread : x.thread = t) (hi : (microOps x.cmd)[x.upc]? = some i) (hopens : opensOn i b.port)
    (hdone : CompletedTo i s.turn x b s1 x1 b1 es) (h : RanToReturn s1 t x1 b1 s' b' fs) :
    RanToReturn s t x b s' b' (es ++ fs) := by
  obtain ⟨-, -, -, -, hreturns, -, hbuses, hr, hx1⟩ := hdone
  have hxcmd : x1.cmd = x.cmd := by rw [hx1]
  have hxbus : x1.bus = x.bus := by rw [hx1]
  have hxupc : x1.upc = x.upc + 1 := by rw [hx1]
  have hxfail : x1.fail = (x.fail || decide (0 < missedAcks es)) := by rw [hx1]
  have hfail : (x1.fail || decide (0 < missedAcks fs)) = (x.fail || decide (0 < missedAcks (es ++ fs))) := by
    rw [hxfail, missedAcks_append hr.events.getLast?_ne, Bool.or_assoc]
    simp
  constructor
  case txns => exact h.txns
  case buses => rw [h.buses, hbuses, hxbus, turn_buses, List.set_set]
  case lock => exact h.lock
  case port => exact h.port
  case fault => exact h.fault
  case traced =>
    obtain ⟨hk, rfl⟩ := List.getElem?_eq_some_iff.1 hi
    have htraced := h.traced
    rw [hr.tHalf, hr.port, hxcmd, hxupc] at htraced
    rw [List.drop_eq_getElem_cons hk]
    exact .cons hopens hr.events htraced
  case hist => rw [h.hist, hr.hist, hthread, tagged_append, List.append_assoc]
  case result => rw [h.result, hfail]
  case returns => rw [h.returns, hreturns, turn_returns, hfail, hxbus]

/-- A command alone runs to its end and returns (R89). -/
theorem Alone.run {s : State} {t m : Nat} {x : Txn} {b : Bus} (h : Alone s t x b m) :
    ∃ s' b' es, core.run (m + 1) s = .next s' ∧ RanToReturn s t x b s' b' es := by
  induction m generalizing s x b with
  | zero =>
    obtain ⟨s', b', hstep, hret⟩ := h.ran_return
    exact ⟨s', b', [], run_next hstep, hret⟩
  | succ m ih =>
    obtain ⟨s1, x1, b1, i, es, hstep, hi, hopens, hdone⟩ := h.step
    obtain ⟨s', b', fs, hrun, hret⟩ := ih (h.completed hi hdone)
    exact ⟨s', b', es ++ fs, (run_next hstep).trans hrun, hret.of_completed h.thread hi hopens hdone⟩

/-- A command just accepted on an idle bus is alone before its first micro-op. -/
theorem alone_of_accepted {s : State} {t k : Nat} {b : Bus} {x : Txn} {rest : List Nat} (hacc : x.cmd.acceptable)
    (hsched : s.sched = List.replicate ((expand x.cmd).length + 1) t ++ rest) (hblocked : t ∉ s.blocked)
    (htxns : s.txns = [x]) (hthread : x.thread = t) (hbus : x.bus = k) (huprog : x.uprog = expand x.cmd)
    (hupc : x.upc = 0) (hraced : x.raced = []) (hb : s.buses[k]? = some b) (hf : b.fault = none)
    (hinitd : b.initd = true) (hlock : b.lock = .free) (hport : b.port = idlePort) (hbuf : BufferUsable s x.cmd) :
    Alone s t x b (expand x.cmd).length where
  sched := ⟨rest, hsched⟩
  blocked := hblocked
  txns := htxns
  thread := hthread
  bus := hbus ▸ hb
  fault := hf
  acceptable := hacc
  uprog := huprog
  upc := by rw [hupc, huprog, Nat.zero_add]
  raced := hraced
  buffer := hbuf
  initd := hinitd
  opens i hi := by
    rw [hupc, microOps_head] at hi
    obtain rfl := Option.some.inj hi
    exact ⟨hport, .inl ⟨hlock, rfl⟩⟩
  released _ := ⟨hlock, hport⟩

/-- Settles O58, by induction on the micro-ops still to run: each can run where it stands in the expansion. -/
theorem everyCommandRunsToItsResult : Obligations.EveryCommandRunsToItsResult := by
  intro s t k b x rest hacc hsched hblocked htxns hthread hbus huprog hupc hraced hb hf hinitd hlock hport hbuf
  have halone := alone_of_accepted hacc hsched hblocked htxns hthread hbus huprog hupc hraced hb hf hinitd hlock hport
    hbuf
  obtain ⟨s', b', es, hrun, hret⟩ := halone.run
  subst hbus
  refine ⟨s', b', !(x.fail || decide (0 < missedAcks es)), hrun, hret.txns, hret.buses, hret.lock, hret.port,
    hret.fault, hret.result, ?_, ?_⟩
  · rw [newEvents_of_hist hret.hist]
    simp
  · rw [hret.returns]
    cases x.fail || decide (0 < missedAcks es) <;> rfl

end Sys2Proof.Machine
end

section
/-!
SUPPORT. The access of TXM and RXM to a buffer byte, said once for both: the checks of R40, R49 and R64 and the faults
they raise (R109), then the access as other commands see it. With it what an instruction and a step do to host memory
(R38, R41).
-/

namespace Sys2Proof.Machine

/-! ### The access of TXM and RXM -/

/-- The bus of RXM after its eight bits, before the byte is stored (R81). -/
def Bus.received (j : BitVec 24) (t : Nat) (b : Bus) : Bus :=
  ({ ({ b with idx := j.toNat } : Bus).emit t .sdaIn with shift := 0, bitcnt := 0 } : Bus).rxbits t 8

/-- The micro-op of the command x from its access to buffer byte j on (R79, R81): ok says that the byte is readable or
writable, c is the bus before the access, e the memory event and mem the memory after it, and f the rest. -/
def State.accessByte (s : State) (x : Txn) (j : BitVec 24) (w ok : Bool) (c : Bus) (e : Event) (mem : List Host.Cell)
    (f : Bus → Bus) : State :=
  if x.cmd.count ≤ j.toNat then s.refuse .indexRange
  else if ok = false then (s.setBus x.bus c).raise x.bus x.thread .bufRange
  else if x.cmd.bufAddr j.toNat ∈ x.raced then (s.setBus x.bus c).raise x.bus x.thread .bufRace
  else
    (({ s.setBus x.bus (c.emit x.thread e) with mem := mem } : State).touch x.thread w
      (x.cmd.bufAddr j.toNat)).carryOn x f

/-- What TXM j of the command x on the bus b comes to (R79). -/
def State.txmByte (s : State) (j : BitVec 24) (x : Txn) (b : Bus) : State :=
  let a := x.cmd.bufAddr j.toNat
  s.accessByte x j false (s.readable a) { b with idx := j.toNat } (.mrd a (s.readByte a)) s.mem
    (Bus.txbyte x.thread (s.readByte a))

/-- What RXM j of the command x on the bus b comes to (R81). -/
def State.rxmByte (s : State) (j : BitVec 24) (x : Txn) (b : Bus) : State :=
  let a := x.cmd.bufAddr j.toNat
  let c := b.received j x.thread
  s.accessByte x j true (s.writable a) c (.mwr a c.shift) (Memory.write s.mem a c.shift) (Bus.emits x.thread [.sdaOut])

theorem exec_txm_eq (j : BitVec 24) (s : State) : exec (.txm j) s = s.withCommand (s.txmByte j) := rfl

theorem exec_rxm_eq (j : BitVec 24) (s : State) : exec (.rxm j) s = s.withCommand (s.rxmByte j) := rfl

section
variable {s : State} {x : Txn} {b c : Bus} {j : BitVec 24} {w ok : Bool} {e : Event} {mem : List Host.Cell}
  {f : Bus → Bus}

theorem setBus_raise_of_inFlight (hx : InFlight s x b) (hc : c.fault = none) (r : FaultReason) :
    (s.setBus x.bus c).raise x.bus x.thread r = s.withFault x.bus c x.thread r :=
  raise_setBus (List.getElem?_eq_some_iff.1 hx.2.1).1 hc x.thread r

theorem accessByte_of_out_of_range (hx : InFlight s x b) (hc : c.fault = none) (hcount : j.toNat < x.cmd.count) :
    s.accessByte x j w false c e mem f = s.withFault x.bus c x.thread .bufRange := by
  rw [State.accessByte, if_neg (Nat.not_le.2 hcount), if_pos rfl, setBus_raise_of_inFlight hx hc]

theorem accessByte_of_raced (hx : InFlight s x b) (hc : c.fault = none) (hcount : j.toNat < x.cmd.count)
    (hraced : x.cmd.bufAddr j.toNat ∈ x.raced) :
    s.accessByte x j w true c e mem f = s.withFault x.bus c x.thread .bufRace := by
  rw [State.accessByte, if_neg (Nat.not_le.2 hcount), if_neg nofun, if_pos hraced,
    setBus_raise_of_inFlight hx hc]

theorem accessByte_of_untouched (hcount : j.toNat < x.cmd.count) (hraced : x.cmd.bufAddr j.toNat ∉ x.raced) :
    s.accessByte x j w true c e mem f =
      (({ s.setBus x.bus (c.emit x.thread e) with mem := mem } : State).touch x.thread w
        (x.cmd.bufAddr j.toNat)).carryOn x f := by
  rw [State.accessByte, if_neg (Nat.not_le.2 hcount), if_neg nofun, if_neg hraced]

/-- Everything an access can come to: a refusal, a fault, or the access and the rest of the micro-op. -/
theorem accessByte_cases (s : State) (x : Txn) (j : BitVec 24) (w ok : Bool) (c : Bus) (e : Event)
    (mem : List Host.Cell) (f : Bus → Bus) :
    s.accessByte x j w ok c e mem f = s.refuse .indexRange ∨
    (∃ r, s.accessByte x j w ok c e mem f = (s.setBus x.bus c).raise x.bus x.thread r) ∨
    s.accessByte x j w ok c e mem f =
      (({ s.setBus x.bus (c.emit x.thread e) with mem := mem } : State).touch x.thread w
        (x.cmd.bufAddr j.toNat)).carryOn x f := by
  unfold State.accessByte
  split_ifs
  · exact .inl rfl
  · exact .inr (.inl ⟨_, rfl⟩)
  · exact .inr (.inl ⟨_, rfl⟩)
  · exact .inr (.inr rfl)

end

/-! ### Memory -/

@[simp] theorem raise_mem (s : State) (k t : Nat) (r : FaultReason) : (s.raise k t r).mem = s.mem := by
  rw [raise_frame]

@[simp] theorem touch_mem (s : State) (t : Nat) (w : Bool) (a : Nat) : (s.touch t w a).mem = s.mem := by
  rw [(touch_spec s t w a).1]

@[simp] theorem carryOn_mem (s : State) (x : Txn) (f : Bus → Bus) : (s.carryOn x f).mem = s.mem := by
  obtain h | ⟨b, -, -, h⟩ := carryOn_cases s x f <;> rw [h]
  rfl

/-- An access leaves memory as it was, or as the access makes it. -/
theorem accessByte_mem (s : State) (x : Txn) (j : BitVec 24) (w ok : Bool) (c : Bus) (e : Event)
    (mem : List Host.Cell) (f : Bus → Bus) :
    (s.accessByte x j w ok c e mem f).mem = s.mem ∨ (s.accessByte x j w ok c e mem f).mem = mem := by
  obtain h | ⟨r, h⟩ | h := accessByte_cases s x j w ok c e mem f <;> rw [h]
  · exact .inl rfl
  · exact .inl (raise_mem ..)
  · exact .inr (by rw [carryOn_mem, touch_mem])

/-- Only TXM and RXM access memory. -/
theorem ExecNext.mem {i : Instr} {s s' : State} (h : ExecNext i s s') (ha : ¬ Accesses i) : s'.mem = s.mem := by
  cases h with
  | hold | refused | noInstance | nullBus | answered | accepted | raised => rfl
  | completed _ _ hT =>
    obtain rfl | ⟨ha', -⟩ := hT
    · rfl
    · exact absurd ha' ha
  | raced _ _ ha' => exact absurd ha' ha

/-- TXM reads memory and leaves it as it was. -/
theorem exec_txm_mem {j : BitVec 24} {s s' : State} (h : exec (.txm j) s = .next s') : s'.mem = s.mem := by
  obtain ⟨x, b, -, -, ⟨-, rfl⟩ | ⟨-, rfl⟩⟩ := withCommand_cases h
  · rfl
  · exact or_self_iff.1 (accessByte_mem ..)

/-- RXM leaves memory as it was, or writes one byte at its own address. -/
theorem exec_rxm_mem {j : BitVec 24} {s s' : State} (h : exec (.rxm j) s = .next s') :
    ∃ x, s.txnOf s.cur = some x ∧
      (s'.mem = s.mem ∨ ∃ v, s'.mem = Memory.write s.mem (x.cmd.bufAddr j.toNat) v) := by
  obtain ⟨x, b, hx, -, ⟨-, rfl⟩ | ⟨-, rfl⟩⟩ := withCommand_cases h
  · exact ⟨x, hx, .inl rfl⟩
  · exact ⟨x, hx, (accessByte_mem ..).imp_right fun h => ⟨_, h⟩⟩

/-- Every instruction but RXM leaves memory as it was. -/
theorem exec_mem {i : Instr} {s s' : State} (h : exec i s = .next s') (hi : ∀ j, i ≠ .rxm j) : s'.mem = s.mem := by
  by_cases ha : Accesses i
  · obtain ⟨j, rfl⟩ | ⟨j, rfl⟩ := ha
    · exact exec_txm_mem h
    · exact absurd rfl (hi j)
  · exact (exec_next h).mem ha

/-- From s to s' memory is the same, or one byte of it was written. -/
def OneWrite (s s' : State) : Prop := s'.mem = s.mem ∨ ∃ a v, s'.mem = Memory.write s.mem a v

theorem OneWrite.wf {s s' : State} (h : OneWrite s s') (hs : Memory.wf s.mem) : Memory.wf s'.mem := by
  obtain h | ⟨a, v, h⟩ := h <;> rw [h]
  · exact hs
  · exact Memory.write_wf hs

theorem exec_oneWrite {i : Instr} {s s' : State} (h : exec i s = .next s') : OneWrite s s' := by
  by_cases hi : ∃ j, i = .rxm j
  · obtain ⟨j, rfl⟩ := hi
    obtain ⟨x, -, hmem⟩ := exec_rxm_mem h
    exact hmem.imp_right fun ⟨v, hv⟩ => ⟨_, v, hv⟩
  · exact .inl (exec_mem h (not_exists.1 hi))

theorem finish_mem (s : State) (x : Txn) : (s.finish x).mem = s.mem := by
  obtain h | ⟨l, h, -⟩ := finish_cases s x <;> rw [h]
  rfl

theorem MicroTurn.oneWrite {s s' : State} {x : Txn} (h : MicroTurn s s' x) : OneWrite s s' := by
  obtain ⟨-, rfl⟩ | ⟨w, -, ⟨i, -, h⟩ | ⟨r, -, rfl⟩⟩ := h
  · exact .inl (finish_mem s x)
  · exact exec_oneWrite h
  · exact .inl rfl

theorem construct_mem {s s' : State} {tHalf : Nat} {p : Pins} (h : s.construct tHalf p = .next s') :
    s'.mem = s.mem := by
  unfold State.construct at h
  split at h
  · cases h
  · cases h
    rfl

theorem hostLoad_eq {s : State} {a : Nat} (h : s.readable a = true) :
    s.hostLoad a = .next ((s.takeRequest.touch s.cur false a).ret none (.loaded (s.readByte a))) := if_pos h

theorem hostLoad_mem {s s' : State} {a : Nat} (h : s.hostLoad a = .next s') : s'.mem = s.mem := by
  unfold State.hostLoad at h
  split at h
  · cases h
    exact touch_mem ..
  · cases h

theorem hostStore_eq {s : State} {a : Nat} (h : s.writable a = true) (v : Byte) :
    s.hostStore a v = .next (((s.takeRequest.writeByte a v).touch s.cur true a).ret none .stored) := if_pos h

theorem hostStore_mem {s s' : State} {a : Nat} {v : Byte} (h : s.hostStore a v = .next s') :
    s'.mem = Memory.write s.mem a v := by
  unfold State.hostStore at h
  split at h
  · cases h
    exact touch_mem ..
  · cases h

theorem RequestTurn.oneWrite {s s' : State} {a : HostAction} (h : RequestTurn s s' a) : OneWrite s s' := by
  cases a with
  | issue d =>
    obtain ⟨-, ⟨i, -, h⟩ | ⟨r, -, rfl⟩⟩ := h
    · exact (exec_oneWrite h :)
    · exact .inl rfl
  | construct tHalf p => exact .inl (construct_mem h)
  | load a => exact .inl (hostLoad_mem h)
  | store a v => exact .inr ⟨a, v, hostStore_mem h⟩
  | harness k c ws =>
    obtain rfl := openHarness_eq h
    exact .inl rfl

/-- Settles O44: a step writes at most one byte, and a write keeps the canonical form. -/
theorem stepKeepsMemoryCanonical : Obligations.StepKeepsMemoryCanonical := by
  intro s s' hs h
  have hwrite : OneWrite s.turn s' := by
    obtain rfl | ⟨x, -, -, -, h⟩ | ⟨-, -, a, -, h⟩ := step_cases h
    · exact .inl rfl
    · exact h.oneWrite
    · exact h.oneWrite
  exact hwrite.wf hs

/-- Settles O57: RXM's write is read back at its own address only. -/
theorem onlyRxmWritesMemory : Obligations.OnlyRxmWritesMemory := by
  refine ⟨fun i s s' h hi => exec_mem h hi, fun j s s' x hx h hs a ha => ?_⟩
  obtain ⟨y, hy, hmem⟩ := exec_rxm_mem h
  obtain rfl := Option.some.inj (hx.symm.trans hy)
  unfold State.readByte
  obtain hmem | ⟨v, hmem⟩ := hmem <;> rw [hmem]
  rw [Memory.read_write hs]
  exact if_neg ha

/-! ### Bytes out of range or in a race -/

/-- Settles O22: the checks of TXM come before its access. -/
theorem txmBadByteFaultsBeforeSending : Obligations.TxmBadByteFaultsBeforeSending := by
  intro j s x b hx hcount
  rw [exec_txm_eq, withCommand_inFlight hx]
  refine ⟨fun hread => ?_, fun hread hraced => ?_⟩ <;> rw [State.txmByte, Cmd.bufAddr, hread]
  · exact congrArg Host.Outcome.next (accessByte_of_out_of_range hx hx.2.2 hcount)
  · exact congrArg Host.Outcome.next (accessByte_of_raced hx hx.2.2 hcount hraced)

/-- Settles O23: the checks of RXM come after its eight bits and before its access. -/
theorem rxmBadByteFaultsAfterReceiving : Obligations.RxmBadByteFaultsAfterReceiving := by
  intro j s x b r hx hcount a hbad
  obtain ⟨v, env, draws, hrecv, -⟩ := receive_spec j x.thread b
  rw [receiveEvents, List.flatMap_map] at hrecv
  refine ⟨v, env, draws, ?_⟩
  rw [exec_rxm_eq, withCommand_inFlight hx, State.rxmByte, Bus.received, hrecv]
  obtain ⟨hwrite, rfl⟩ | ⟨hwrite, hraced, rfl⟩ := hbad <;> rw [Cmd.bufAddr, hwrite]
  · exact congrArg Host.Outcome.next (accessByte_of_out_of_range hx hx.2.2 hcount)
  · exact congrArg Host.Outcome.next (accessByte_of_raced hx hx.2.2 hcount hraced)

end Sys2Proof.Machine
end

section
/-!
SUPPORT. Accesses of other agents to the buffers of commands in flight (R49): the host's own loads and stores and the
TXM and RXM of another thread's command.
-/

namespace Sys2Proof.Machine

section
variable {s s' : State} {t a : Nat} {w : Bool}

theorem races_of_covers {y : Txn} (hcov : y.covers a = true)
    (h : y.cmd.op.isRead = true ∨ (w = true ∧ y.awaits a = true)) : y.races w a = true := by
  simpa [Txn.races, hcov] using h

/-- A command that has still to access the byte gets its address logged. -/
theorem noteTouch_of_awaits {y : Txn} (ht : y.thread ≠ t) (hr : y.races w a = true) (haw : y.awaits a = true) :
    y.noteTouch t w a = { y with raced := a :: y.raced } := if_pos ⟨ht, hr, haw⟩

/-- A read command that has no access of the byte left has already written it. -/
theorem racesNow_of_not_awaits {y : Txn} (ht : y.thread ≠ t) (hr : y.races w a = true) (haw : y.awaits a = false) :
    y.racesNow t a = true := by
  have hread : y.races false a = true := by simpa [Txn.races, haw] using hr
  simp [Txn.racesNow, ht, hread, haw]

theorem touch_txnOf (s : State) (t : Nat) (w : Bool) (a u : Nat) :
    (s.touch t w a).txnOf u = (s.txnOf u).map (Txn.noteTouch t w a) := by
  rw [State.txnOf, (touch_spec s t w a).1]
  exact find_thread_map fun y _ => by rw [noteTouch_raced]

/-- An access is seen by every command that it breaks R49 for. -/
theorem touch_raceSeen (s : State) (hn : (s.txns.map Txn.thread).Nodup) (t : Nat) (w : Bool) (a : Nat) :
    RaceSeen s (s.touch t w a) t w a := by
  intro y hy ht hcov hbreaks
  have hr := races_of_covers hcov hbreaks
  obtain ⟨-, -, hfaulted, -⟩ := touch_spec s t w a
  refine ⟨fun haw => ⟨y.noteTouch t w a, ?_, ?_⟩, fun haw => hfaulted y hy (racesNow_of_not_awaits ht hr haw)⟩
  · rw [touch_txnOf, txnOf_of_mem hn hy, Option.map_some]
  · rw [noteTouch_of_awaits ht hr haw]
    exact List.mem_cons_self

/-- A race that was seen stays so where the accessing thread carries on and the faulted buses stay faulted. -/
theorem RaceSeen.mono {r r' : State} (h : RaceSeen s r t w a) (htxns : ∀ u, u ≠ t → r'.txnOf u = r.txnOf u)
    (hbuses : ∀ (k : Nat) (b : Bus), r.buses[k]? = some b → b.fault ≠ none → r'.buses[k]? = some b) :
    RaceSeen s r' t w a := by
  intro y hy ht hcov hbreaks
  obtain ⟨hlogged, hfaulted⟩ := h y hy ht hcov hbreaks
  refine ⟨fun haw => by rw [htxns _ ht]; exact hlogged haw, fun haw b hb hf => ?_⟩
  obtain ⟨b', hb', hf'⟩ := hfaulted haw b hb hf
  exact ⟨b', hbuses _ b' hb' (by simp [hf']), hf'⟩

/-- A race seen from a state with one unfaulted bus replaced by another is seen from the state before. -/
theorem RaceSeen.of_set {T : State} {k : Nat} {c : Bus} (h : RaceSeen T s' t w a) (htxns : T.txns = s.txns)
    (hbuses : T.buses = s.buses.set k c) (hc : c.fault = none) : RaceSeen s s' t w a := by
  intro y hy ht hcov hbreaks
  obtain ⟨hlogged, hfaulted⟩ := h y (htxns ▸ hy) ht hcov hbreaks
  refine ⟨hlogged, fun haw b hb hf => ?_⟩
  rw [hbuses] at hfaulted
  by_cases hk : k = y.bus
  · subst hk
    exact hfaulted haw c (getElem?_set_self_of_some hb c) hc
  · exact hfaulted haw b ((List.getElem?_set_ne hk).trans hb) hf

end

/-- The rest of a micro-op leaves the other threads' commands and the faulted buses alone. -/
theorem RaceSeen.carryOn {s r : State} {x : Txn} {w : Bool} {a : Nat} (h : RaceSeen s r x.thread w a)
    (hx : r.txnOf x.thread ≠ none) (f : Bus → Bus) : RaceSeen s (r.carryOn x f) x.thread w a := by
  obtain hr | ⟨c, hc, hcf, hr⟩ := carryOn_cases r x f <;> rw [hr]
  · exact h
  · refine h.mono (fun u hu => ?_) fun k b hb hf => ?_
    · exact (txnOf_put (x' := { x with upc := x.upc + 1 }) rfl hx _ rfl).trans (if_neg hu)
    · have hk : x.bus ≠ k := by
        rintro rfl
        obtain rfl := Option.some.inj (hc.symm.trans hb)
        exact hf hcf
      exact (List.getElem?_set_ne hk).trans hb

theorem emit_fault {e : Event} (he : actsOnPortOnly e = true) (t : Nat) (b : Bus) : (b.emit t e).fault = b.fault := by
  rw [emit_eq, effect_of_actsOnPortOnly he]

/-- The access of a TXM or RXM is seen. -/
theorem accessByte_raceSeen {s : State} {x : Txn} {b c : Bus} {j : BitVec 24} {w : Bool} {e : Event}
    {mem : List Host.Cell} {f : Bus → Bus} (hx : InFlight s x b) (hn : (s.txns.map Txn.thread).Nodup)
    (hcount : j.toNat < x.cmd.count) (hraced : x.cmd.bufAddr j.toNat ∉ x.raced) (hc : c.fault = none)
    (he : actsOnPortOnly e = true) :
    RaceSeen s (s.accessByte x j w true c e mem f) x.thread w (x.cmd.bufAddr j.toNat) := by
  rw [accessByte_of_untouched hcount hraced]
  generalize hT : ({ s.setBus x.bus (c.emit x.thread e) with mem := mem } : State) = T
  have htxns : T.txns = s.txns := hT ▸ rfl
  have hbuses : T.buses = s.buses.set x.bus (c.emit x.thread e) := hT ▸ rfl
  have hown : T.txnOf x.thread = some x := by
    rw [State.txnOf, htxns, hx.thread]
    exact hx.1
  have hseen := touch_raceSeen T (htxns ▸ hn) x.thread w (x.cmd.bufAddr j.toNat)
  refine (hseen.of_set htxns hbuses ((emit_fault he ..).trans hc)).carryOn ?_ f
  simp [touch_txnOf, hown]

theorem received_fault (j : BitVec 24) (t : Nat) (b : Bus) : (b.received j t).fault = b.fault :=
  (went_receive j t b).fault

/-- An access from a state with the commands and buses of s is seen, or changes none of them. -/
theorem touch_seen_or_quiet {s T : State} (htxns : T.txns = s.txns) (hbuses : T.buses = s.buses) (t : Nat) (w : Bool)
    (a : Nat) :
    ((s.txns.map Txn.thread).Nodup → RaceSeen s (T.touch t w a) t w a) ∧
      (s.quiet t w a → (T.touch t w a).txns = s.txns ∧ (T.touch t w a).buses = s.buses) := by
  refine ⟨fun hn => ?_, fun hq => ?_⟩
  · have hseen := touch_raceSeen T (htxns ▸ hn) t w a
    unfold RaceSeen at hseen ⊢
    rwa [htxns, hbuses] at hseen
  · have hquiet : T.quiet t w a := by rwa [State.quiet, htxns]
    rw [touch_of_quiet hquiet]
    exact ⟨htxns, hbuses⟩

/-! ### The host's own accesses -/

theorem step_of_fetch_done {s : State} {o : Host.Outcome State Fault Refusal} (h : s.turn.fetch = .done o) :
    step s = o := by
  rw [step, h]

theorem nextThread_of_sched {s : State} {t : Nat} {rest : List Nat} (h : s.sched = t :: rest) : s.nextThread = t := by
  rw [State.nextThread, h]

theorem fetch_of_load {s : State} {a : Nat} (hb : s.cur ∉ s.blocked) (hx : s.txnOf s.cur = none)
    (hr : s.requestOf s.cur = some (.load a)) : s.fetch = .done (s.hostLoad a) := by
  rw [State.fetch, if_neg hb, hx, hr]

theorem fetch_of_store {s : State} {a : Nat} {v : Byte} (hb : s.cur ∉ s.blocked) (hx : s.txnOf s.cur = none)
    (hr : s.requestOf s.cur = some (.store a v)) : s.fetch = .done (s.hostStore a v) := by
  rw [State.fetch, if_neg hb, hx, hr]

/-- The turn of a thread that loads a readable byte (R118). -/
theorem step_of_load {s : State} {a : Nat} (hb : s.nextThread ∉ s.blocked) (hx : s.txnOf s.nextThread = none)
    (hr : s.requestOf s.nextThread = some (.load a)) (hread : s.readable a = true) :
    step s = .next ((s.turn.takeRequest.touch s.nextThread false a).ret none (.loaded (s.readByte a))) :=
  (step_of_fetch_done (fetch_of_load hb hx hr)).trans (hostLoad_eq (s := s.turn) hread)

/-- The turn of a thread that stores to a writable byte (R118). -/
theorem step_of_store {s : State} {a : Nat} {v : Byte} (hb : s.nextThread ∉ s.blocked)
    (hx : s.txnOf s.nextThread = none) (hr : s.requestOf s.nextThread = some (.store a v))
    (hwrite : s.writable a = true) :
    step s = .next (((s.turn.takeRequest.writeByte a v).touch s.nextThread true a).ret none .stored) :=
  (step_of_fetch_done (fetch_of_store hb hx hr)).trans (hostStore_eq (s := s.turn) hwrite v)

/-- Settles O24: every access is followed by State.touch, which every raced command sees. -/
theorem hostStoreIntoBufferIsRace : Obligations.HostStoreIntoBufferIsRace := by
  refine ⟨fun s t a v rest hsched hb hx hr hwrite => ?_, fun s t a rest hsched hb hx hr hread => ?_, ?_⟩
  · obtain rfl := nextThread_of_sched hsched
    obtain ⟨hseen, hquiet⟩ :=
      touch_seen_or_quiet (s := s) (T := s.turn.takeRequest.writeByte a v) rfl rfl s.nextThread true a
    refine ⟨_, step_of_store hb hx hr hwrite, fun hs a' => ?_, hseen, hquiet⟩
    rw [State.readByte, ret_mem, touch_mem]
    exact Memory.read_write hs
  · obtain rfl := nextThread_of_sched hsched
    obtain ⟨hseen, hquiet⟩ := touch_seen_or_quiet (s := s) (T := s.turn.takeRequest) rfl rfl s.nextThread false a
    have htouched := touch_touched s.turn.takeRequest s.nextThread false a
    refine ⟨_, step_of_load hb hx hr hread, touch_mem .., ?_, hseen, hquiet⟩
    rw [ret_returns]
    exact congrArg₂ (fun l u => l ++ [⟨u, none, .loaded (s.readByte a)⟩]) htouched.returns htouched.cur
  · intro j s x b hx hcount hn a hraced
    refine ⟨fun hread => ⟨s.txmByte j x b, withCommand_inFlight hx _, ?_⟩,
      fun hwrite => ⟨s.rxmByte j x b, withCommand_inFlight hx _, ?_⟩⟩
    · rw [State.txmByte, Cmd.bufAddr, hread]
      exact accessByte_raceSeen hx hn hcount hraced hx.2.2 rfl
    · rw [State.rxmByte, Cmd.bufAddr, hwrite]
      exact accessByte_raceSeen hx hn hcount hraced ((received_fault j x.thread b).trans hx.2.2) rfl

end Sys2Proof.Machine
end

section
/-!
SUPPORT. What a step adds to the history of a bus whose lock a thread holds (R50, R85).
-/

namespace Sys2Proof.Machine

/-- From b to b' the history gained only events of thread t, or the one FAULT event that faults b'. -/
def Bus.Served (t : Nat) (b b' : Bus) : Prop :=
  ∃ es, b'.hist = b.hist ++ es ∧ ∀ e ∈ es, e.thread = t ∨ ∃ r, e.event = .fault r ∧ b'.fault = some r

theorem served_of_tagged {t : Nat} {es : List Event} {b b' : Bus} (h : b'.hist = b.hist ++ tagged t es) :
    b.Served t b' := by
  refine ⟨_, h, fun e he => .inl ?_⟩
  obtain ⟨_, -, rfl⟩ := List.mem_map.1 he
  rfl

theorem served_of_hist {t : Nat} {b b' : Bus} (h : b'.hist = b.hist) : b.Served t b' :=
  ⟨[], by simp [h], by simp⟩

/-- A fault, for whatever thread, after events of thread t. -/
theorem Bus.Served.faulted {t : Nat} {b c : Bus} (h : b.Served t c) (hc : c.fault = none) (u : Nat) (r : FaultReason) :
    b.Served t (c.faulted u r) := by
  obtain ⟨es, hes, hown⟩ := h
  refine ⟨es ++ tagged u [.fault r], by simp [Bus.faulted, hes], fun e he => ?_⟩
  obtain he | he := List.mem_append.1 he
  · exact (hown e he).imp_right fun ⟨q, _, hq⟩ => by simp [hc] at hq
  · exact .inr ⟨r, by simp [List.mem_singleton.1 he], rfl⟩

theorem served_faulted {b : Bus} (hf : b.fault = none) (t u : Nat) (r : FaultReason) : b.Served t (b.faulted u r) :=
  (served_of_hist rfl).faulted hf u r

/-- In s' bus k, which was b, has served thread t only, and may have been faulted. -/
def BusServed (k t : Nat) (b : Bus) (s' : State) : Prop := ∃ b', s'.buses[k]? = some b' ∧ b.Served t b'

theorem busServed_of_same {s' : State} {k : Nat} {b : Bus} (h : s'.buses[k]? = some b) (t : Nat) :
    BusServed k t b s' :=
  ⟨b, h, served_of_hist rfl⟩

theorem Touched.busServed {u : Nat} {s s' : State} (h : Touched u s s') {k : Nat} {b : Bus}
    (hb : s.buses[k]? = some b) (hf : b.fault = none) (t : Nat) : BusServed k t b s' := by
  obtain h | ⟨d, v, hd, -, h⟩ := h.buses k
  · exact busServed_of_same (h.trans hb) t
  · obtain rfl := Option.some.inj (hb.symm.trans hd)
    exact ⟨_, h, served_faulted hf ..⟩

theorem raise_busServed {s : State} {k : Nat} {b : Bus} (hb : s.buses[k]? = some b) (hf : b.fault = none) (t u : Nat)
    (r : FaultReason) : BusServed k t b (s.raise k u r) := by
  rw [raise_unfaulted hb hf]
  exact ⟨_, getElem?_set_self_of_some hb _, served_faulted hf ..⟩

/-! ### A micro-op on its own bus -/

section
variable {s : State} {x : Txn} {b : Bus}

theorem withFault_busServed {c : Bus} (hb : s.buses[x.bus]? = some b) (h : b.Served x.thread c) (hc : c.fault = none)
    (u : Nat) (r : FaultReason) : BusServed x.bus x.thread b (s.withFault x.bus c u r) :=
  ⟨_, getElem?_set_self_of_some hb _, h.faulted hc u r⟩

theorem afterMicroOp_busServed {i : Instr} {es : List Event} {b' : Bus} {x' : Txn} (hb : s.buses[x.bus]? = some b)
    (h : b.Ran i x.thread es b') : BusServed x.bus x.thread b (s.afterMicroOp x b' x') :=
  ⟨b', getElem?_set_self_of_some hb b', served_of_tagged h.hist⟩

/-- The access of TXM or RXM, after the events es: it is one more event, and it may fault the bus. -/
theorem accessByte_busServed {i : Instr} {j : BitVec 24} {w ok : Bool} {c : Bus} {e : Event} {mem : List Host.Cell}
    {f : Bus → Bus} {es es' : List Event} (hx : InFlight s x b) (hc : c.fault = none) (he : actsOnPortOnly e = true)
    (hbefore : c.hist = b.hist ++ tagged x.thread es) (hr : b.Ran i x.thread es' (f (c.emit x.thread e))) :
    BusServed x.bus x.thread b (s.accessByte x j w ok c e mem f) := by
  obtain h | ⟨r, h⟩ | h := accessByte_cases s x j w ok c e mem f <;> rw [h]
  · exact busServed_of_same hx.2.1 x.thread
  · rw [setBus_raise_of_inFlight hx hc]
    exact withFault_busServed hx.2.1 (served_of_tagged hbefore) hc ..
  · have hd : (c.emit x.thread e).fault = none := (emit_fault he ..).trans hc
    have hevent : b.Served x.thread (c.emit x.thread e) :=
      served_of_tagged (es := es ++ [e]) (by simp [emit_eq, hbefore])
    obtain ⟨T, -, hT, d, hdc, htouch⟩ :=
      touch_setBus (t := x.thread) hx.2.1 (c.emit x.thread e) mem w (x.cmd.bufAddr j.toNat)
    have hbus : (T.withBusOnly x.bus d).buses[x.bus]? = some d := getElem?_set_self_of_some hT d
    rw [htouch]
    obtain hcarry | ⟨d', hd', hdf, hcarry⟩ := carryOn_cases (T.withBusOnly x.bus d) x f <;> rw [hcarry]
    · refine ⟨d, hbus, ?_⟩
      obtain rfl | ⟨u, rfl⟩ := hdc
      · exact hevent
      · exact hevent.faulted hd ..
    · obtain rfl := Option.some.inj (hbus.symm.trans hd')
      refine ⟨f d, getElem?_set_self_of_some hbus _, ?_⟩
      obtain rfl | ⟨u, rfl⟩ := hdc
      · exact served_of_tagged hr.hist
      · cases hdf

theorem busMicroOp_busServed {i : Instr} {s' : State} {f : Txn → Bus → Bus} {es : List Event} (hx : InFlight s x b)
    (hr : b.Ran i x.thread es (f x b)) (h : s.busMicroOp f = .next s') : BusServed x.bus x.thread b s' := by
  obtain rfl := Host.Outcome.next.inj ((busMicroOp_inFlight hx f).symm.trans h)
  exact afterMicroOp_busServed hx.2.1 hr

theorem withCommand_busServed {s' : State} {f : Txn → Bus → State} (hx : InFlight s x b)
    (hf : BusServed x.bus x.thread b (f x b)) (h : s.withCommand f = .next s') : BusServed x.bus x.thread b s' := by
  obtain rfl := Host.Outcome.next.inj ((withCommand_inFlight hx f).symm.trans h)
  exact hf

theorem txmByte_busServed (j : BitVec 24) (hx : InFlight s x b) : BusServed x.bus x.thread b (s.txmByte j x b) :=
  accessByte_busServed (es := []) hx hx.2.2 rfl (List.append_nil _).symm (ran_txm j x.thread _ _ b)

theorem rxmByte_busServed (j : BitVec 24) (hx : InFlight s x b) : BusServed x.bus x.thread b (s.rxmByte j x b) := by
  obtain ⟨v, env, draws, hrecv, -⟩ := receive_spec j x.thread b
  obtain ⟨es, hr, -⟩ := ran_rxm j x.thread (x.cmd.bufAddr j.toNat) b
  exact accessByte_busServed hx ((received_fault j x.thread b).trans hx.2.2) rfl (congrArg Bus.hist hrecv) hr

/-- A micro-op adds to its own bus only events of its thread, or a fault. -/
theorem exec_busServed {i : Instr} {s' : State} (hi : i.format = .uop) (hx : InFlight s x b)
    (h : exec i s = .next s') : BusServed x.bus x.thread b s' := by
  cases i with
  | init | deinit | probe | read8 | read16 | readna | write8 | write16 => cases hi
  | idle => exact busMicroOp_busServed hx (ran_emits .idle rfl (by simp) (by simp) x.thread) h
  | start => exact busMicroOp_busServed hx (ran_emits .start rfl (by simp) (by simp) x.thread) h
  | stop => exact busMicroOp_busServed hx (ran_emits .stop rfl (by simp) (by simp) x.thread) h
  | sendack => exact busMicroOp_busServed hx (ran_emits .sendack rfl (by simp) (by simp) x.thread) h
  | sendnack => exact busMicroOp_busServed hx (ran_emits .sendnack rfl (by simp) (by simp) x.thread) h
  | txi imm => exact busMicroOp_busServed hx (ran_txi imm x.thread b) h
  | txm j => exact withCommand_busServed hx (txmByte_busServed j hx) h
  | rxm j => exact withCommand_busServed hx (rxmByte_busServed j hx) h
  | ackchk =>
    obtain ⟨bits, last, -, hr⟩ := ran_ackchk x.thread b
    exact withCommand_busServed hx (afterMicroOp_busServed hx.2.1 hr) h
  | lock =>
    refine withCommand_busServed hx ?_ h
    split_ifs
    · exact raise_busServed hx.2.1 hx.2.2 ..
    · exact afterMicroOp_busServed hx.2.1 (ran_lock x.thread b)
    · exact busServed_of_same hx.2.1 x.thread
  | unlock =>
    refine withCommand_busServed hx ?_ h
    split_ifs
    · exact afterMicroOp_busServed hx.2.1 (ran_unlock x.thread b)
    · exact busServed_of_same hx.2.1 x.thread

end

/-! ### A command on a held bus -/

section
variable {s s' : State} {k : Nat} {b : Bus} (hk : s.desc.bus = some k) (hb : s.buses[k]? = some b) (hf : b.fault = none)
include hk hb hf

/-- A transaction command emits nothing when it is issued, but for a fault (R87). -/
theorem issueTxn_busServed {op : TxnOp} {dev : BitVec 7} {reg : BitVec 16} (t : Nat)
    (h : s.issueTxn op dev reg = .next s') : BusServed k t b s' := by
  rw [issueTxn_of_bus hk hb hf] at h
  obtain rfl := Host.Outcome.next.inj h
  have hfail (c : Code) : BusServed k t b (s.failPrecondition k c) := by
    rw [failPrecondition_eq hb hf]
    exact ⟨_, getElem?_set_self_of_some hb _, served_of_hist rfl⟩
  split_ifs
  · exact hfail .eZeroCount
  · exact hfail .eNullBuf
  · exact ⟨_, getElem?_set_self_of_some hb _, served_faulted hf ..⟩
  · exact busServed_of_same hb t

/-- A command on an initialised bus whose lock is held adds no event but a FAULT event that faults it: INIT faults
REINIT, DEINIT faults DEINIT_BUSY, and a transaction command is accepted or fails a precondition (R110). -/
theorem exec_cmd_busServed {i : Instr} {t : Nat} (hi : i.format = .cmd) (hinitd : b.initd = true)
    (hlock : b.lock = .held t) (h : exec i s = .next s') : BusServed k t b s' := by
  cases i with
  | idle | start | stop | txi | txm | ackchk | rxm | sendack | sendnack | lock | unlock => cases hi
  | probe | read8 | read16 | readna | write8 | write16 => exact issueTxn_busServed hk hb hf t h
  | init =>
    have hexec : exec .init s = .next (s.raise k s.cur .reInit) := by simp [exec, execInit, hk, hb, hf, hinitd]
    obtain rfl := Host.Outcome.next.inj (hexec.symm.trans h)
    exact raise_busServed hb hf ..
  | deinit =>
    have hexec : exec .deinit s = .next (s.raise k s.cur .deinitBusy) := by
      simp [exec, execDeinit, hk, hb, hf, hinitd, hlock]
    obtain rfl := Host.Outcome.next.inj (hexec.symm.trans h)
    exact raise_busServed hb hf ..

end

/-! ### A step -/

/-- An instruction that does not act on the bus leaves it alone or faults it (R36). -/
theorem exec_busServed_of_other {i : Instr} {s s' : State} {k t : Nat} {b : Bus} (h : exec i s = .next s')
    (hb : s.buses[k]? = some b) (hf : b.fault = none) (hk : ¬ ActsOn i s k) : BusServed k t b s' := by
  obtain ⟨b', hb', hnext⟩ := (exec_next h).bus k b hb
  refine ⟨b', hb', ?_⟩
  cases hnext with
  | same => exact served_of_hist rfl
  | raced => exact served_faulted hf ..
  | went hk' => exact absurd hk' hk
  | faulted hk' => exact absurd hk' hk

theorem finish_busServed (s : State) (x : Txn) {k t : Nat} {b : Bus} (hb : s.buses[k]? = some b) :
    BusServed k t b (s.finish x) := by
  obtain h | ⟨l, h, rfl | ⟨c, hc, hcf, rfl⟩⟩ := finish_cases s x <;> rw [h]
  · exact busServed_of_same hb t
  · exact busServed_of_same hb t
  · refine forall_getElem?_set (P := fun _ => Bus.Served t) (fun d hd => ?_) (fun _ _ _ => served_of_hist rfl) k b hb
    obtain rfl := Option.some.inj (hc.symm.trans hd)
    exact served_of_hist rfl

theorem construct_bus {s s' : State} {tHalf : Nat} {p : Pins} (h : s.construct tHalf p = .next s') {k : Nat} {b : Bus}
    (hb : s.buses[k]? = some b) : s'.buses[k]? = some b := by
  unfold State.construct at h
  split at h
  · cases h
  · cases h
    exact (List.getElem?_append_left (List.getElem?_eq_some_iff.1 hb).1).trans hb

/-- LOCK waits while the lock is held (R85). -/
theorem exec_lock_of_held {s s' : State} {x : Txn} {b : Bus} {t : Nat} (hx : InFlight s x b) (hinitd : b.initd = true)
    (hlock : b.lock = .held t) (h : exec .lock s = .next s') : s' = s := by
  have hexec : exec .lock s = .next s := by
    refine (withCommand_inFlight hx _).trans ?_
    simp [hinitd, hlock]
  exact Host.Outcome.next.inj (h.symm.trans hexec)

/-- The word at UPC of a command in flight is the micro-op of its expansion. -/
theorem EngineInv.microOp {s : State} (hs : EngineInv s) {x : Txn} (hx : x ∈ s.txns) {w : Word} {i : Instr}
    (hw : x.uprog[x.upc]? = some w) (hd : decodeUop w = .ok i) : (microOps x.cmd)[x.upc]? = some i := by
  obtain ⟨-, -, -, hgen, -, -⟩ := hs
  exact microOp_of_genuine (hgen x hx).1 hw hd

section
variable {s s' : State} {k t : Nat} {b : Bus} (hs : EngineInv s) (hb : s.buses[k]? = some b) (hf : b.fault = none)
  (hlock : b.lock = .held t)
include hs hb hf hlock

/-- A held bus is initialised. -/
theorem EngineInv.initd_of_held : b.initd = true := by
  obtain ⟨-, -, -, -, -, horder⟩ := hs
  have hord := horder k b hb hf
  rw [State.busInOrder, hlock] at hord
  exact hord.1

/-- A turn of a command in flight: on the held bus it is the holder's, or it is LOCK, which waits. -/
theorem MicroTurn.busServed {x : Txn} (hx : s.txnOf s.cur = some x) (h : MicroTurn s s' x) : BusServed k t b s' := by
  obtain ⟨-, rfl⟩ | ⟨w, hw, ⟨i, hd, h⟩ | ⟨r, -, rfl⟩⟩ := h
  · exact finish_busServed s x hb
  · have hi := decodeUop_format hd
    by_cases hk : x.bus = k
    · subst hk
      have hin : InFlight s x b := ⟨hx, hb, hf⟩
      have hready := hs.ready (hin.thread ▸ hx) hb hf hw hd
      by_cases h0 : x.upc = 0
      · obtain rfl := (microOps_lock_iff (hs.microOp (txnOf_some hx).2 hw hd)).2 h0
        rw [exec_lock_of_held hin (hs.initd_of_held hb hf hlock) hlock h]
        exact busServed_of_same hb t
      · obtain ⟨hheld, -⟩ := hready (Nat.pos_of_ne_zero h0)
        obtain rfl := LockState.held.inj (hheld.symm.trans hlock)
        exact exec_busServed hi hin h
    · refine exec_busServed_of_other h hb hf ?_
      rw [ActsOn, hi]
      rintro ⟨y, hy, hyk⟩
      obtain rfl := Option.some.inj (hx.symm.trans hy)
      exact hk hyk
  · exact busServed_of_same hb t

/-- A request of a thread without a command in flight: a command on the held bus, or an access. -/
theorem RequestTurn.busServed {a : HostAction} (hcur : s.txnOf s.cur = none) (h : RequestTurn s s' a) :
    BusServed k t b s' := by
  cases a with
  | issue d =>
    obtain ⟨-, ⟨i, -, h⟩ | ⟨r, -, rfl⟩⟩ := h
    · cases hi : i.format with
      | uop =>
        have hfault := microOpNeedsCommandInFlight i (s.takeDescriptor d) hi hcur
        cases hfault.symm.trans h
      | cmd =>
        by_cases hk : d.bus = some k
        · exact exec_cmd_busServed (s := s.takeDescriptor d) hk hb hf hi (hs.initd_of_held hb hf hlock) hlock h
        · exact exec_busServed_of_other h hb hf (by rwa [ActsOn, hi])
    · exact busServed_of_same hb t
  | construct tHalf p => exact busServed_of_same (construct_bus h hb) t
  | load a =>
    obtain ⟨T, v, hT, rfl⟩ := hostLoad_touched h
    exact (hT.busServed hb hf t :)
  | store a v =>
    obtain ⟨T, hT, rfl⟩ := hostStore_touched h
    exact (hT.busServed hb hf t :)
  | harness i c ws =>
    obtain rfl := openHarness_eq h
    exact busServed_of_same hb t

end

/-- Settles O49: a step of another thread on a held bus waits, returns, or faults it. -/
theorem heldInstanceServesOnlyItsHolder : Obligations.HeldInstanceServesOnlyItsHolder := by
  intro s s' k b b' t hs h hb hb' hf hlock
  have hturn : EngineInv s.turn := (engineFrame_of_eq rfl (fun _ h => h) rfl rfl).keeps hs
  obtain ⟨c, hc, hserved⟩ : BusServed k t b s' := by
    obtain rfl | ⟨x, hx, -, -, h⟩ | ⟨hcur, -, a, -, h⟩ := step_cases h
    · exact busServed_of_same hb t
    · exact h.busServed hturn hb hf hlock hx
    · exact h.busServed hturn hb hf hlock hcur
  obtain rfl := Option.some.inj (hc.symm.trans hb')
  exact hserved

end Sys2Proof.Machine
end

section
/-!
SUPPORT. Words and instructions (R57 to R59, R62 to R64): the number of an encoded word, and that each decoder accepts
exactly the words of the well-formed instructions of its format.
-/

namespace Sys2Proof

/-- Bits 3:0 of a word as a number. -/
theorem codeField_toNat (w : Word) : (codeField w).toNat = w.toNat % 16 := by
  rw [codeField, field_toNat]
  omega

theorem codeField_eq_iff {w : Word} {c : BitVec 4} : codeField w = c ↔ w.toNat % 16 = c.toNat := by
  rw [← codeField_toNat, BitVec.toNat_inj]

/-- A field whose bits above its low byte are 0 is its low byte. -/
theorem setWidth_low_byte {m n : Nat} {v : BitVec m} (hm : m = 8 + n) (h : v.extractLsb' 8 n = 0) :
    (v.extractLsb' 0 8).setWidth m = v := by
  have hlt : v.toNat / 2 ^ 8 < 2 ^ n := Nat.div_lt_of_lt_mul (by rw [← pow_add, ← hm]; exact v.isLt)
  have hhigh : v.toNat / 2 ^ 8 = 0 := by
    have hzero := congrArg BitVec.toNat h
    rwa [BitVec.extractLsb'_toNat, Nat.shiftRight_eq_div_pow, Nat.mod_eq_of_lt hlt] at hzero
  have hbyte : v.toNat % 2 ^ 8 = v.toNat := Nat.mod_eq_of_lt (by omega)
  apply BitVec.eq_of_toNat_eq
  rw [BitVec.toNat_setWidth, BitVec.extractLsb'_toNat, Nat.shiftRight_zero, hbyte, Nat.mod_eq_of_lt v.isLt]

/-! ### The words of commands -/

/-- The number a word is made of as OP, DEV, RSV and REG, with RSV = 0, is the command word of these fields (R57). -/
theorem cmdWord_eq {w : Word} {op : BitVec 4} {dev : BitVec 7} {reg : BitVec 16} (hop : w.toNat % 16 = op.toNat)
    (hdev : w.toNat / 2 ^ 4 % 2 ^ 7 = dev.toNat) (hrsv : w.toNat / 2 ^ 11 % 2 ^ 5 = 0)
    (hreg : w.toNat / 2 ^ 16 = reg.toNat) : cmdWord op dev reg = w := by
  apply BitVec.eq_of_toNat_eq
  rw [cmdWord_toNat]
  omega

/-- In a command's word RSV and the fields the command does not use are 0 (R59). -/
theorem encode_cmd_fields {i : Instr} (hf : i.format = .cmd) {n : Nat} (hn : (encode i).toNat = n) :
    n / 2 ^ 11 % 2 ^ 5 = 0 ∧ (n % 16 = 1 ∨ n % 16 = 2 → n / 2 ^ 4 % 2 ^ 7 = 0 ∧ n / 2 ^ 16 = 0) ∧
      (n % 16 = 3 ∨ n % 16 = 6 → n / 2 ^ 16 = 0) ∧ (n % 16 = 4 ∨ n % 16 = 7 → n / 2 ^ 16 / 2 ^ 8 = 0) := by
  subst hn
  cases i with
  | init | deinit => decide
  | probe dev | readna dev | read16 dev reg | write16 dev reg =>
    have hdev := dev.isLt
    simp only [encode, Instr.code, cmdWord_toNat, BitVec.reduceToNat]
    omega
  | read8 dev reg | write8 dev reg =>
    have hdev := dev.isLt
    have hreg := reg.isLt
    simp only [encode, Instr.code, cmdWord_toNat, BitVec.reduceToNat, BitVec.toNat_setWidth]
    omega
  | _ => cases hf

/-- Decoding the word of a command gives the command. -/
theorem decodeCmd_encode {i : Instr} (hf : i.format = .cmd) : decodeCmd (encode i) = .ok i := by
  cases i with
  | init | deinit => decide
  | probe dev | readna dev | read16 dev reg | write16 dev reg =>
    simp [decodeCmd, encode, Instr.code, codeField_cmdWord, rsvField_cmdWord, devField_cmdWord, regField_cmdWord,
      whenZero]
  | read8 dev reg | write8 dev reg =>
    have hhigh : (reg.setWidth 16).extractLsb' 8 8 = 0 := by ext k hk; simp
    have hlow : reg8Of (reg.setWidth 16) = reg := by ext k hk; simp [reg8Of, hk]; omega
    simp [decodeCmd, encode, Instr.code, codeField_cmdWord, rsvField_cmdWord, devField_cmdWord, regField_cmdWord,
      whenZero, hhigh, hlow]
  | _ => cases hf

theorem whenZero_word {b : Bool} {i : Instr} {w : Word} (hf : i.format = .cmd) (h : b = true → encode i = w) :
    whenZero b i = .error .reservedBits ∨ ∃ j, whenZero b i = .ok j ∧ j.format = .cmd ∧ encode j = w := by
  cases b with
  | false => exact .inl rfl
  | true => exact .inr ⟨i, rfl, hf, h rfl⟩

/-- What the decoder of command words can answer (R59): RESERVED_OP exactly where OP is no command's, else
RESERVED_BITS or the command whose word this is. -/
theorem decodeCmd_cases (w : Word) :
    ((w.toNat % 16 = 0 ∨ 9 ≤ w.toNat % 16) ∧ decodeCmd w = .error .reservedOp) ∨
      ((1 ≤ w.toNat % 16 ∧ w.toNat % 16 ≤ 8) ∧
        (decodeCmd w = .error .reservedBits ∨ ∃ i, decodeCmd w = .ok i ∧ i.format = .cmd ∧ encode i = w)) := by
  unfold decodeCmd
  simp only [codeField_eq_iff, codeField_toNat, BitVec.reduceToNat]
  split_ifs with hres hrsv
  · exact .inl ⟨hres, rfl⟩
  · exact .inr ⟨by omega, .inl rfl⟩
  · refine .inr ⟨by omega, ?_⟩
    have hw {c : BitVec 4} {dev : BitVec 7} {reg : BitVec 16} (hc : w.toNat % 16 = c.toNat)
        (hdev : devField w = dev) (hreg : regField w = reg) : cmdWord c dev reg = w := by
      rw [← codeField_eq_iff.2 hc, ← hdev, ← hreg, cmdWord_fields (not_not.1 hrsv)]
    split
    case h_1 hc | h_2 hc =>
      refine whenZero_word rfl fun hz => ?_
      obtain ⟨hdev, hreg⟩ : devField w = 0 ∧ regField w = 0 := by simpa using hz
      exact hw hc hdev hreg
    case h_3 hc | h_6 hc => exact whenZero_word rfl fun hz => hw hc rfl (of_decide_eq_true hz)
    case h_4 hc | h_7 hc =>
      exact whenZero_word rfl fun hz => hw hc rfl (setWidth_low_byte rfl (of_decide_eq_true hz)).symm
    case h_5 hc => exact .inr ⟨_, rfl, rfl, hw hc rfl rfl⟩
    case h_8 h1 h2 h3 h4 h5 h6 h7 =>
      have hc : w.toNat % 16 = 8 := by grind
      exact .inr ⟨_, rfl, rfl, hw hc rfl rfl⟩

/-! ### The words of micro-ops -/

/-- The number a word is made of as UOP, Z and OPD, with Z = 0, is the micro-op word of these fields (R62). -/
theorem uopWord_eq {w : Word} {op : BitVec 4} {opd : BitVec 24} (hop : w.toNat % 16 = op.toNat)
    (hz : w.toNat / 2 ^ 4 % 2 ^ 4 = 0) (hopd : w.toNat / 2 ^ 8 = opd.toNat) : uopWord op opd = w := by
  apply BitVec.eq_of_toNat_eq
  rw [uopWord_toNat]
  omega

/-- In the word of a well-formed micro-op UOP is a micro-op's, Z is 0 and OPD obeys R62 and R64. -/
theorem encode_uop_fields {i : Instr} (hf : i.format = .uop) (hwf : i.wellFormed = true) {n : Nat}
    (hn : (encode i).toNat = n) :
    1 ≤ n % 16 ∧ n % 16 ≤ 11 ∧ n / 2 ^ 4 % 2 ^ 4 = 0 ∧ (n % 16 = 4 → n / 2 ^ 8 < 2 ^ 8) ∧
      (n % 16 = 5 ∨ n % 16 = 7 → n / 2 ^ 8 + 1 < 2 ^ 24) ∧
      (n % 16 ≠ 4 → n % 16 ≠ 5 → n % 16 ≠ 7 → n / 2 ^ 8 = 0) := by
  subst hn
  cases i with
  | idle | start | stop | ackchk | sendack | sendnack | lock | unlock => decide
  | txi imm =>
    have himm := imm.isLt
    simp only [encode, Instr.code, uopWord_toNat, BitVec.reduceToNat, BitVec.toNat_setWidth]
    omega
  | txm j | rxm j =>
    have hj : j.toNat + 1 < 2 ^ 24 := of_decide_eq_true hwf
    simp only [encode, Instr.code, uopWord_toNat, BitVec.reduceToNat]
    omega
  | _ => cases hf

theorem whenOpd_eq_ok_iff {b : Bool} {i j : Instr} : whenOpd b i = .ok j ↔ b = true ∧ i = j := by
  cases b <;> simp [whenOpd]

theorem whenIndex_eq_ok_iff {k : BitVec 24} {i j : Instr} : whenIndex k i = .ok j ↔ indexOk k = true ∧ i = j := by
  cases h : indexOk k <;> simp [whenIndex, h]

/-- A micro-op word that is accepted is the word of a well-formed micro-op. -/
theorem encode_of_decodeUop {w : Word} {i : Instr} (h : decodeUop w = .ok i) :
    i.wellFormed = true ∧ encode i = w := by
  unfold decodeUop at h
  simp only [codeField_eq_iff, codeField_toNat, BitVec.reduceToNat] at h
  split_ifs at h with hres hz
  have hw {c : BitVec 4} {opd : BitVec 24} (hc : w.toNat % 16 = c.toNat) (hopd : opdField w = opd) :
      uopWord c opd = w := by
    rw [← codeField_eq_iff.2 hc, ← hopd, uopWord_fields (not_not.1 hz)]
  split at h
  case h_4 hc =>
    obtain ⟨hhigh, rfl⟩ := whenOpd_eq_ok_iff.1 h
    exact ⟨rfl, hw hc (setWidth_low_byte rfl (of_decide_eq_true hhigh)).symm⟩
  case h_5 hc | h_7 hc =>
    obtain ⟨hindex, rfl⟩ := whenIndex_eq_ok_iff.1 h
    exact ⟨hindex, hw hc rfl⟩
  case h_1 hc | h_2 hc | h_3 hc | h_6 hc | h_8 hc | h_9 hc | h_10 hc =>
    obtain ⟨hopd, rfl⟩ := whenOpd_eq_ok_iff.1 h
    exact ⟨rfl, hw hc (of_decide_eq_true hopd)⟩
  case h_11 h1 h2 h3 h4 h5 h6 h7 h8 h9 h10 =>
    have hc : w.toNat % 16 = 11 := by grind
    obtain ⟨hopd, rfl⟩ := whenOpd_eq_ok_iff.1 h
    exact ⟨rfl, hw hc (of_decide_eq_true hopd)⟩

/-! ### The statements about both decoders -/

/-- Settles O1, format by format. -/
theorem decodeInvertsEncode : Obligations.DecodeInvertsEncode := by
  intro i hwf
  cases hf : i.format with
  | cmd => exact decodeCmd_encode hf
  | uop => exact decodeUop_encode hf hwf

theorem wellFormed_of_cmd {i : Instr} (hf : i.format = .cmd) : i.wellFormed = true := by
  cases i with
  | init | deinit | probe | read8 | read16 | readna | write8 | write16 => rfl
  | _ => cases hf

/-- Settles O2, format by format: both decoders accept a word as the instruction it encodes only. -/
theorem acceptedWordIsItsEncoding : Obligations.AcceptedWordIsItsEncoding := by
  intro f w i h
  cases f with
  | cmd =>
    obtain ⟨-, herr⟩ | ⟨-, herr | ⟨j, hj, hf, hw⟩⟩ := decodeCmd_cases w
    · cases herr.symm.trans h
    · cases herr.symm.trans h
    · obtain rfl := Except.ok.inj (hj.symm.trans h)
      exact ⟨hf, wellFormed_of_cmd hf, hw⟩
  | uop => exact ⟨decodeUop_format h, encode_of_decodeUop h⟩

theorem decodeCmd_of_encode {w : Word} {i : Instr} (hf : i.format = .cmd) (h : encode i = w) :
    decodeCmd w = .ok i := h ▸ decodeCmd_encode hf

theorem decodeUop_of_encode {w : Word} {i : Instr} (hf : i.format = .uop) (hwf : i.wellFormed = true)
    (h : encode i = w) : decodeUop w = .ok i := h ▸ decodeUop_encode hf hwf

theorem decodeCmd_reservedOp {w : Word} (h : w.toNat % 16 = 0 ∨ 9 ≤ w.toNat % 16) :
    decodeCmd w = .error .reservedOp := by
  obtain ⟨-, herr⟩ | ⟨hop, -⟩ := decodeCmd_cases w
  · exact herr
  · omega

/-- A word with a command's OP that is no command's word is refused with RESERVED_BITS. -/
theorem decodeCmd_reservedBits {w : Word} (h1 : 1 ≤ w.toNat % 16) (h8 : w.toNat % 16 ≤ 8)
    (h : ∀ i : Instr, i.format = .cmd → encode i ≠ w) : decodeCmd w = .error .reservedBits := by
  obtain ⟨hop, -⟩ | ⟨-, herr | ⟨i, -, hf, hw⟩⟩ := decodeCmd_cases w
  · omega
  · exact herr
  · exact absurd hw (h i hf)

/-- Settles O3: the words of the commands are accepted, and a word that breaks R59 is no command's word. -/
theorem commandDecoderFollowsRule : Obligations.CommandDecoderFollowsRule := by
  intro w op dev rsv reg
  have hlt := w.isLt
  refine ⟨decodeCmd_reservedOp, fun h1 h8 => ?_⟩
  have refused (h : ¬ (rsv = 0 ∧ (op = 1 ∨ op = 2 → dev = 0 ∧ reg = 0) ∧ (op = 3 ∨ op = 6 → reg = 0) ∧
      (op = 4 ∨ op = 7 → reg / 2 ^ 8 = 0))) : decodeCmd w = .error .reservedBits :=
    decodeCmd_reservedBits h1 h8 fun i hf hw => h (encode_cmd_fields hf (congrArg BitVec.toNat hw))
  refine ⟨fun hrsv => refused (by omega), fun hrsv => ?_⟩
  have accepted {i : Instr} {c : BitVec 4} {d : BitVec 7} {r : BitVec 16} (hf : i.format = .cmd)
      (hi : encode i = cmdWord c d r) (hop : op = c.toNat) (hdev : dev = d.toNat) (hreg : reg = r.toNat) :
      decodeCmd w = .ok i :=
    decodeCmd_of_encode hf (hi.trans (cmdWord_eq hop hdev hrsv hreg))
  have hdev : dev = (BitVec.ofNat 7 dev).toNat := by rw [BitVec.toNat_ofNat]; omega
  have hreg : reg = (BitVec.ofNat 16 reg).toNat := by rw [BitVec.toNat_ofNat]; omega
  have hreg8 (h : reg / 2 ^ 8 = 0) : reg = ((BitVec.ofNat 8 reg).setWidth 16).toNat := by
    rw [BitVec.toNat_setWidth, BitVec.toNat_ofNat]
    omega
  refine ⟨fun h => refused (by omega), fun h => refused (by omega), fun h => refused (by omega), ?_⟩
  exact ⟨fun ⟨hop, hd, hr⟩ => accepted rfl rfl hop hd hr, fun ⟨hop, hd, hr⟩ => accepted rfl rfl hop hd hr,
    fun ⟨hop, hr⟩ => accepted rfl rfl hop hdev hr, fun ⟨hop, hr⟩ => accepted rfl rfl hop hdev (hreg8 hr),
    fun hop => accepted rfl rfl hop hdev hreg, fun ⟨hop, hr⟩ => accepted rfl rfl hop hdev hr,
    fun ⟨hop, hr⟩ => accepted rfl rfl hop hdev (hreg8 hr), fun hop => accepted rfl rfl hop hdev hreg⟩

/-- A word that is no well-formed micro-op's word is refused. -/
theorem decodeUop_refused {w : Word} (h : ∀ i : Instr, i.format = .uop → i.wellFormed = true → encode i ≠ w) :
    ∃ r, decodeUop w = .error r := by
  cases hd : decodeUop w with
  | error r => exact ⟨r, rfl⟩
  | ok i =>
    obtain ⟨hwf, hw⟩ := encode_of_decodeUop hd
    exact absurd hw (h i (decodeUop_format hd) hwf)

/-- Settles O4: the words of the micro-ops are accepted, and a word that breaks R62 or R64 is no micro-op's word. -/
theorem microOpDecoderFollowsRule : Obligations.MicroOpDecoderFollowsRule := by
  intro w uop z opd
  have hlt := w.isLt
  have refused (h : ¬ (1 ≤ uop ∧ uop ≤ 11 ∧ z = 0 ∧ (uop = 4 → opd < 2 ^ 8) ∧
      (uop = 5 ∨ uop = 7 → opd + 1 < 2 ^ 24) ∧ (uop ≠ 4 → uop ≠ 5 → uop ≠ 7 → opd = 0))) :
      ∃ r, decodeUop w = .error r :=
    decodeUop_refused fun i hf hwf hw => h (encode_uop_fields hf hwf (congrArg BitVec.toNat hw))
  refine ⟨fun h => refused (by omega), fun h => refused (by omega), fun h => refused (by omega),
    fun h => refused (by omega), fun hz => ?_⟩
  have accepted {i : Instr} {c : BitVec 4} {v : BitVec 24} (hf : i.format = .uop) (hwf : i.wellFormed = true)
      (hi : encode i = uopWord c v) (huop : uop = c.toNat) (hopd : opd = v.toNat) : decodeUop w = .ok i :=
    decodeUop_of_encode hf hwf (hi.trans (uopWord_eq huop hz hopd))
  have bare (i : Instr) (hf : i.format = .uop) (hwf : i.wellFormed = true) (hi : encode i = uopWord i.code 0)
      (h : uop = i.code.toNat ∧ opd = 0) : decodeUop w = .ok i := accepted hf hwf hi h.1 h.2
  have hbyte (h : opd < 2 ^ 8) : opd = ((BitVec.ofNat 8 opd).setWidth 24).toNat := by
    rw [BitVec.toNat_setWidth, BitVec.toNat_ofNat]
    omega
  have hindex : opd = (BitVec.ofNat 24 opd).toNat := by rw [BitVec.toNat_ofNat]; omega
  have hwf (h : opd + 1 < 2 ^ 24) : indexOk (BitVec.ofNat 24 opd) = true := decide_eq_true (hindex ▸ h)
  exact ⟨bare .idle rfl rfl rfl, bare .start rfl rfl rfl, bare .stop rfl rfl rfl,
    fun ⟨hu, ho⟩ => accepted rfl rfl rfl hu (hbyte ho), fun ⟨hu, ho⟩ => accepted rfl (hwf ho) rfl hu hindex,
    bare .ackchk rfl rfl rfl, fun ⟨hu, ho⟩ => accepted rfl (hwf ho) rfl hu hindex, bare .sendack rfl rfl rfl,
    bare .sendnack rfl rfl rfl, bare .lock rfl rfl rfl, bare .unlock rfl rfl rfl⟩

/-- Settles O5: the words are those of their instructions. -/
theorem writtenOutWordsDecode : Obligations.WrittenOutWordsDecode :=
  ⟨decodeCmd_of_encode rfl (by decide), decodeCmd_of_encode rfl (by decide), decodeCmd_of_encode rfl (by decide),
    decodeCmd_of_encode rfl (by decide), decodeUop_of_encode rfl rfl (by decide),
    decodeUop_of_encode rfl (by decide) (by decide), decodeUop_of_encode rfl rfl (by decide)⟩

end Sys2Proof
end

section
/-!
SUPPORT. The words an expansion is made of (R65, R88) and the turns and micro-ops that refuse a word (R60, R64).
-/

namespace Sys2Proof.Machine

/-! ### The address byte and the expansion -/

theorem addrByte_toNat (dev : BitVec 7) (dir : BitVec 1) :
    (addrByte dev dir).toNat = 2 * dev.toNat + dir.toNat := by
  have hdev := dev.isLt
  have hdir := dir.isLt
  have hor := Nat.two_pow_add_eq_or_of_lt (i := 1) (b := dir.toNat) hdir dev.toNat
  have hdev8 : (dev.toNat % 2 ^ 8) <<< 1 % 2 ^ 8 = 2 ^ 1 * dev.toNat := by
    rw [Nat.shiftLeft_eq]
    omega
  have hdir8 : dir.toNat % 2 ^ 8 = dir.toNat := Nat.mod_eq_of_lt (by omega)
  rw [addrByte, BitVec.toNat_or, BitVec.toNat_shiftLeft, BitVec.toNat_setWidth, BitVec.toNat_setWidth, hdev8, hdir8,
    ← hor]

/-- Settles O6: the fields are those of the number. -/
theorem addressByteShiftsDeviceAddress : Obligations.AddressByteShiftsDeviceAddress := by
  intro dev dir
  have hdev := dev.isLt
  have hdir := dir.isLt
  have hbyte := addrByte_toNat dev dir
  refine ⟨BitVec.eq_of_toNat_eq ?_, BitVec.eq_of_toNat_eq ?_, hbyte⟩
  · rw [BitVec.extractLsb'_toNat, hbyte, Nat.shiftRight_eq_div_pow]
    omega
  · rw [BitVec.extractLsb'_toNat, hbyte, Nat.shiftRight_eq_div_pow]
    omega

theorem mayStandIn_wellFormedFor {c : Cmd} {i : Instr} (h : mayStandIn c i) : i.wellFormedFor c.count = true := by
  cases i with
  | txm j | rxm j =>
    obtain ⟨hj, -⟩ := h
    exact decide_eq_true hj
  | _ => rfl

/-- Settles O8: the words are those of micro-ops that may stand in an expansion. -/
theorem expansionNeverRefused : Obligations.ExpansionNeverRefused := by
  rintro c ⟨hcount, -⟩ w hw
  obtain ⟨i, hi, rfl⟩ := List.mem_map.1 hw
  have hmay := mayStandIn_microOps hcount i hi
  exact ⟨i, decodeUop_encode (mayStandIn_format hmay) (mayStandIn_wellFormed hcount hmay),
    mayStandIn_wellFormedFor hmay⟩

/-! ### Refusals -/

/-- The refusal of a word stops the thread whose turn it is (R60). -/
theorem refuse_eq_withRefusal (s : State) (r : RefuseReason) : s.refuse r = s.withRefusal s.cur r := rfl

theorem accessByte_of_bad_index {s : State} {x : Txn} {j : BitVec 24} (h : x.cmd.count ≤ j.toNat) (w ok : Bool)
    (c : Bus) (e : Event) (mem : List Host.Cell) (f : Bus → Bus) :
    s.accessByte x j w ok c e mem f = s.withRefusal s.cur .indexRange := if_pos h

/-- Settles O21: the index is the first check of an access. -/
theorem txmRxmIndexIsChecked : Obligations.TxmRxmIndexIsChecked := by
  intro j s x b hx hcount
  rw [exec_txm_eq, exec_rxm_eq, withCommand_inFlight hx, withCommand_inFlight hx, State.txmByte, State.rxmByte,
    accessByte_of_bad_index hcount, accessByte_of_bad_index hcount]
  exact ⟨rfl, rfl⟩

theorem fetch_of_issue {s : State} {d : Descriptor} (hb : s.cur ∉ s.blocked) (hx : s.txnOf s.cur = none)
    (hr : s.requestOf s.cur = some (.issue d)) : s.fetch = s.fetchCommand d := by
  rw [State.fetch, if_neg hb, hx, hr]

theorem fetchCommand_of_ok {s : State} {d : Descriptor} {i : Instr} (hwf : d.wellFormed s.params = true)
    (hd : decodeCmd d.word = .ok i) (hbus : ∀ k, d.bus = some k → s.busFaulted k = false) :
    s.fetchCommand d = .run i (s.takeDescriptor d) := by
  cases hk : d.bus with
  | none => simp [State.fetchCommand, hwf, hd, hk]
  | some k => simp [State.fetchCommand, hwf, hd, hk, hbus k hk]

theorem fetchCommand_of_error {s : State} {d : Descriptor} {r : RefuseReason} (hwf : d.wellFormed s.params = true)
    (hd : decodeCmd d.word = .error r) :
    s.fetchCommand d = .done (.next ((s.takeDescriptor d).withRefusal s.cur r)) := by
  simp [State.fetchCommand, hwf, hd, refuse_eq_withRefusal]

/-- Settles O37: the turn fetches the descriptor, whose word decodes or is refused. -/
theorem stepRunsOrRefusesIssuedWord : Obligations.StepRunsOrRefusesIssuedWord := by
  intro s d hb hx hr hwf s1
  have hfetch : s.turn.fetch = s.turn.fetchCommand d := fetch_of_issue hb hx hr
  refine ⟨fun i hd hbus => ?_, fun r hd => step_of_fetch_done (hfetch.trans (fetchCommand_of_error hwf hd))⟩
  rw [step, hfetch, fetchCommand_of_ok (s := s.turn) hwf hd hbus]
  rfl

end Sys2Proof.Machine
end

section
/-!
SUPPORT. The micro-ops where they stand in an expansion: sent bytes and their acknowledge checks (R78, R88), LOCK and
UNLOCK (R86), and the entry states (R74).
-/

namespace Sys2Proof.Machine

/-- A word of an expansion decodes to the micro-op at its place. -/
theorem microOps_of_expand {c : Cmd} (hc : c.count < 2 ^ 24) {k : Nat} {w : Word} (hw : (expand c)[k]? = some w) :
    ∃ i, (microOps c)[k]? = some i ∧ decodeUop w = .ok i := by
  rw [expand, List.getElem?_map, Option.map_eq_some_iff] at hw
  obtain ⟨i, hi, rfl⟩ := hw
  exact ⟨i, hi, (decodeUop_microOps hc hi).2⟩

/-! ### Sent bytes -/

/-- The micro-ops that send a byte (R78, R79). -/
def sendsByte : Instr → Bool
  | .txi _ | .txm _ => true
  | _ => false

/-- Micro-ops in which ACKCHK is right behind every one that sends a byte. -/
inductive BytesChecked : List Instr → Prop
  | nil : BytesChecked []
  | other {i : Instr} {l : List Instr} (hi : sendsByte i = false) (hl : BytesChecked l) : BytesChecked (i :: l)
  | sent {i : Instr} {l : List Instr} (hl : BytesChecked l) : BytesChecked (i :: .ackchk :: l)

theorem BytesChecked.append {l m : List Instr} (hl : BytesChecked l) (hm : BytesChecked m) : BytesChecked (l ++ m) := by
  induction hl with
  | nil => exact hm
  | other hi _ ih => exact .other hi ih
  | sent _ ih => exact .sent ih

theorem bytesChecked_of_none {l : List Instr} (h : ∀ i ∈ l, sendsByte i = false) : BytesChecked l := by
  induction l with
  | nil => exact .nil
  | cons i l ih =>
    obtain ⟨hi, hl⟩ := List.forall_mem_cons.1 h
    exact .other hi (ih hl)

theorem bytesChecked_flatMap {α : Type} {f : α → List Instr} (h : ∀ k, BytesChecked (f k)) (l : List α) :
    BytesChecked (l.flatMap f) := by
  induction l with
  | nil => exact .nil
  | cons k l ih => exact (h k).append ih

theorem BytesChecked.next {l : List Instr} (hl : BytesChecked l) {k : Nat} {i : Instr} (hk : l[k]? = some i)
    (hi : sendsByte i = true) : l[k + 1]? = some .ackchk := by
  induction hl generalizing k with
  | nil => cases hk
  | other hj _ ih =>
    cases k with
    | zero =>
      obtain rfl := Option.some.inj hk
      cases hj.symm.trans hi
    | succ k => exact ih hk
  | sent _ ih =>
    match k with
    | 0 => rfl
    | 1 =>
      obtain rfl := Option.some.inj hk
      cases hi
    | k + 2 => exact ih hk

theorem send_bytesChecked (n : Nat) : BytesChecked (send n) :=
  bytesChecked_flatMap (fun _ => .sent .nil) (List.range n)

theorem recv_bytesChecked (n : Nat) : BytesChecked (recv n) := by
  refine bytesChecked_of_none fun i hi => ?_
  obtain ⟨k, -, rfl⟩ | rfl | rfl := mem_recv hi <;> rfl

theorem microOps_bytesChecked (c : Cmd) : BytesChecked (microOps c) := by
  obtain ⟨op, dev, reg, n, buf⟩ := c
  have hhead : BytesChecked headOps := bytesChecked_of_none (by simp [headOps, sendsByte])
  have htail : BytesChecked tailOps := bytesChecked_of_none (by simp [tailOps, sendsByte])
  have hrestart : BytesChecked repeatedStart := bytesChecked_of_none (by simp [repeatedStart, sendsByte])
  have haddr (dir : BitVec 1) : BytesChecked (sendAddr dev dir) := .sent .nil
  have hreg8 : BytesChecked (sendReg8 reg) := .sent .nil
  have hreg16 : BytesChecked (sendReg16 reg) := .sent (.sent .nil)
  refine (hhead.append ?_).append htail
  cases op with
  | probe => exact haddr dirWrite
  | read8 =>
    exact ((((haddr dirWrite).append hreg8).append hrestart).append (haddr dirRead)).append (recv_bytesChecked n)
  | read16 =>
    exact ((((haddr dirWrite).append hreg16).append hrestart).append (haddr dirRead)).append (recv_bytesChecked n)
  | readna => exact (haddr dirRead).append (recv_bytesChecked n)
  | write8 => exact ((haddr dirWrite).append hreg8).append (send_bytesChecked n)
  | write16 => exact ((haddr dirWrite).append hreg16).append (send_bytesChecked n)

/-- Settles O9: an expansion is put together from pieces in which every sent byte is checked. -/
theorem everySentByteIsChecked : Obligations.EverySentByteIsChecked := by
  rintro c k w ⟨hcount, -⟩ hw hsend
  obtain ⟨i, hi, hd⟩ := microOps_of_expand hcount hw
  have hbyte : sendsByte i = true := by
    obtain ⟨v, hv⟩ | ⟨j, hj⟩ := hsend
    · obtain rfl := Except.ok.inj (hd.symm.trans hv)
      rfl
    · obtain rfl := Except.ok.inj (hd.symm.trans hj)
      rfl
  exact ⟨_, decodeUop_microOps hcount ((microOps_bytesChecked c).next hi hbyte)⟩

/-! ### LOCK and UNLOCK -/

/-- Settles O10: the micro-ops that the words decode to are in that order. -/
theorem lockIsFirstAndUnlockIsLast : Obligations.LockIsFirstAndUnlockIsLast := by
  rintro c k w ⟨hcount, -⟩ hw
  obtain ⟨i, hi, hd⟩ := microOps_of_expand hcount hw
  rw [hd, Except.ok.injEq, Except.ok.injEq, expand_length]
  exact ⟨microOps_lock_iff hi, microOps_unlock_iff hi⟩

/-! ### Entry states -/

/-- What a micro-op finds in an expansion is its entry state (R74). -/
theorem entryState_of_opensOn {i : Instr} {p : Port} (h : opensOn i p) :
    entryState i p ∧ (i = .idle → p.sdaLat = true ∨ p.sclLat = false) := by
  cases i with
  | idle => exact ⟨h.1, fun _ => h.2⟩
  | lock | unlock => exact ⟨trivial, nofun⟩
  | _ => exact ⟨h, nofun⟩

/-- Settles O48: behind LOCK the invariant gives the port and the lock; and at UPC 0 only LOCK stands. -/
theorem microOpsFindTheirEntryState : Obligations.MicroOpsFindTheirEntryState := by
  intro s x b w j hs hx hb hf hw hd
  have hfind : s.txnOf x.thread = some x := by
    obtain ⟨-, -, hnodup, -⟩ := hs
    exact txnOf_of_mem hnodup hx
  have hready := hs.ready hfind hb hf hw hd
  refine ⟨fun hpos => ?_, fun hne => ?_⟩
  · obtain ⟨-, -, hopens⟩ := hready hpos
    exact entryState_of_opensOn hopens
  · have hupc : x.upc ≠ 0 := fun h0 => hne ((microOps_lock_iff (hs.microOp hx hw hd)).2 h0)
    exact (hready (Nat.pos_of_ne_zero hupc)).1

end Sys2Proof.Machine
end

section
/-!
SUPPORT. The next state of each micro-op, whole (R75 to R86).
-/

namespace Sys2Proof.Machine

/-! ### IDLE, START, STOP, SENDACK and SENDNACK -/

/-- A micro-op that emits events that act on the port. -/
theorem busMicroOp_emits {s : State} {x : Txn} {b : Bus} (h : InFlight s x b) (f : Bus → List Event)
    (hf : (f b).all actsOnPortOnly = true) :
    s.busMicroOp (fun x b => b.emits x.thread (f b)) = .next (s.afterMicroOp x
      { b with port := portAfter b.port (f b), hist := b.hist ++ tagged x.thread (f b) }
      { x with upc := x.upc + 1 }) := by
  rw [busMicroOp_inFlight h, emits_eq, applyEffects_of_actsOnPortOnly hf]

/-- Settles O11: IDLE's events raise both latches. -/
theorem idleReleasesSdaThenScl : Obligations.IdleReleasesSdaThenScl :=
  ⟨decodeUop_of_encode rfl rfl (by decide), fun _ _ _ h => busMicroOp_emits h _ rfl⟩

/-- Settles O12: START's events lower both latches. -/
theorem startDropsSdaThenScl : Obligations.StartDropsSdaThenScl :=
  ⟨decodeUop_of_encode rfl rfl (by decide), fun _ _ _ h => busMicroOp_emits h _ rfl⟩

/-- Settles O13: STOP's events leave both latches raised. -/
theorem stopRaisesSclThenSda : Obligations.StopRaisesSclThenSda :=
  ⟨decodeUop_of_encode rfl rfl (by decide), fun _ _ _ h => busMicroOp_emits h _ rfl⟩

/-- Settles O14: SENDACK's events leave SDA a low output and SCL low. -/
theorem sendackPulsesWithSdaLow : Obligations.SendackPulsesWithSdaLow :=
  ⟨decodeUop_of_encode rfl rfl (by decide), fun _ _ _ h => busMicroOp_emits h _ rfl⟩

/-- Settles O15: SENDNACK's events leave SDA an output and SCL low. -/
theorem sendnackPulsesWithSdaFloating : Obligations.SendnackPulsesWithSdaFloating :=
  ⟨decodeUop_of_encode rfl rfl (by decide), fun _ _ _ h => busMicroOp_emits h _ rfl⟩

/-! ### TXI and TXM -/

/-- The events of a sent byte, by the number of the bit on the wire (R42, R77). -/
theorem sendByteEvents_eq_range (T : Nat) (v : Byte) :
    sendByteEvents T v = (List.range 8).flatMap fun k =>
      [if v.getLsbD (7 - k) then .sdaH else .sdaL, .dly T, .sclH, .dly T, .sclL, .dly T] := rfl

theorem encode_txi (imm : BitVec 8) : encode (.txi imm) = 0x00000004 ||| (imm.setWidth 32 <<< 8) := by
  rw [encode, uopWord, BitVec.setWidth_setWidth (by decide)]
  rfl

/-- Settles O16: TXI's bus is that of a sent byte. -/
theorem txiSendsByteFromBitSeven : Obligations.TxiSendsByteFromBitSeven := by
  refine fun imm => ⟨decodeUop_of_encode rfl rfl (encode_txi imm), fun s x b h => ?_⟩
  have hexec : exec (.txi imm) s = .next (s.afterMicroOp x (b.txbyte x.thread imm) { x with upc := x.upc + 1 }) :=
    busMicroOp_inFlight h _
  rw [hexec, txbyte_eq, sendByteEvents_eq_range]

theorem carryOn_of_unfaulted {s : State} {x : Txn} {b : Bus} (hb : s.buses[x.bus]? = some b) (hf : b.fault = none)
    (f : Bus → Bus) : s.carryOn x f = s.afterMicroOp x (f b) { x with upc := x.upc + 1 } := by
  simp [State.carryOn, hb, hf, setBus_advance]

/-- An access that passes its checks and breaks R49 for no other command: the micro-op completes, and memory is as the
access makes it. -/
theorem accessByte_of_quiet {s : State} {x : Txn} {b c : Bus} {j : BitVec 24} {w : Bool} {e : Event}
    (hx : InFlight s x b) (hc : c.fault = none) (he : actsOnPortOnly e = true) (hcount : j.toNat < x.cmd.count)
    (hraced : x.cmd.bufAddr j.toNat ∉ x.raced) (hquiet : s.quiet x.thread w (x.cmd.bufAddr j.toNat))
    (mem : List Host.Cell) (f : Bus → Bus) :
    s.accessByte x j w true c e mem f =
      { s.afterMicroOp x (f (c.emit x.thread e)) { x with upc := x.upc + 1 } with mem := mem } := by
  have hf : (c.emit x.thread e).fault = none := (emit_fault he x.thread c).trans hc
  rw [accessByte_of_untouched hcount hraced,
    touch_of_quiet (s := { s.setBus x.bus (c.emit x.thread e) with mem := mem }) hquiet,
    carryOn_of_unfaulted (getElem?_set_self_of_some hx.2.1 (c.emit x.thread e)) hf]
  simp [State.afterMicroOp]

/-- TXM where no other command sees the read: the bus after the read sends the byte (R79). -/
theorem exec_txm_of_quiet {s : State} {x : Txn} {b : Bus} {j : BitVec 24} (hx : InFlight s x b)
    (hcount : j.toNat < x.cmd.count) (hread : s.readable (x.cmd.bufAddr j.toNat) = true)
    (hraced : x.cmd.bufAddr j.toNat ∉ x.raced) (hquiet : s.quiet x.thread false (x.cmd.bufAddr j.toNat)) :
    let a := x.cmd.bufAddr j.toNat
    let c : Bus := { b with idx := j.toNat }
    exec (.txm j) s = .next (s.afterMicroOp x
      ((c.emit x.thread (.mrd a (s.readByte a))).txbyte x.thread (s.readByte a)) { x with upc := x.upc + 1 }) := by
  rw [exec_txm_eq, withCommand_inFlight hx, State.txmByte, hread,
    accessByte_of_quiet hx (c := { b with idx := j.toNat }) hx.2.2 rfl hcount hraced hquiet]
  rfl

/-- Settles O17: TXM's bus is that of a read and a sent byte. -/
theorem txmSendsBufferByte : Obligations.TxmSendsBufferByte := by
  intro j s x b hx hcount a v hread hraced hquiet
  rw [exec_txm_of_quiet hx hcount hread hraced hquiet, txbyte_eq, emit_eq, sendByteEvents_eq_range]
  simp only [List.append_assoc]
  rfl

/-! ### RXM -/

/-- RXM where no other command sees the write: the bus that received the byte stores it and drives SDA again (R81). -/
theorem exec_rxm_of_quiet {s : State} {x : Txn} {b : Bus} {j : BitVec 24} (hx : InFlight s x b)
    (hcount : j.toNat < x.cmd.count) (hwrite : s.writable (x.cmd.bufAddr j.toNat) = true)
    (hraced : x.cmd.bufAddr j.toNat ∉ x.raced) (hquiet : s.quiet x.thread true (x.cmd.bufAddr j.toNat)) :
    let a := x.cmd.bufAddr j.toNat
    let c := b.received j x.thread
    exec (.rxm j) s = .next
      { s.afterMicroOp x ((c.emit x.thread (.mwr a c.shift)).emits x.thread [.sdaOut]) { x with upc := x.upc + 1 } with
        mem := Memory.write s.mem a c.shift } := by
  rw [exec_rxm_eq, withCommand_inFlight hx, State.rxmByte, hwrite,
    accessByte_of_quiet hx ((received_fault j x.thread b).trans hx.2.2) rfl hcount hraced hquiet]

/-- Settles O20: RXM's bus is that of eight samples, the write and SDA_OUT. -/
theorem rxmReceivesByteMostSignificantFirst : Obligations.RxmReceivesByteMostSignificantFirst := by
  intro j s x b hx hcount a hwrite hraced hquiet
  obtain ⟨v, env, draws, hrecv, hbits⟩ := receive_spec j x.thread b
  rw [receiveEvents, List.flatMap_map] at hrecv
  have hexec := exec_rxm_of_quiet hx hcount hwrite hraced hquiet
  rw [Bus.received, hrecv] at hexec
  refine ⟨v, env, draws, _, hexec, ?_, fun hwf _ => Memory.read_write hwf, hbits⟩
  simp [emits_eq, emit_eq, applyEffects, Event.effect, Cmd.bufAddr, a]

/-! ### ACKCHK -/

/-- ACKCHK's next state: the bus and ACK of its polls, and FAIL accumulates (R28, R80). -/
theorem exec_ackchk {s : State} {x : Txn} {b b' : Bus} {ack : Bool} (h : InFlight s x b)
    (hpoll : b.ackchk x.thread = (ack, b')) :
    exec .ackchk s = .next (s.afterMicroOp x b' { x with upc := x.upc + 1, ack := ack, fail := x.fail || !ack }) := by
  refine (withCommand_inFlight h _).trans ?_
  rw [hpoll, setBus_advance_withAck]

/-- Settles O18: the polls stop at the first 0 or after ten samples. -/
theorem ackchkPollsUpToTenSamples : Obligations.AckchkPollsUpToTenSamples := by
  refine ⟨decodeUop_of_encode rfl rfl (by decide), fun s x b h => ?_⟩
  obtain ⟨bits, last, env, draws, hlen, hones, hlast, hpoll, -⟩ := ackchk_spec x.thread b
  refine ⟨bits, last, env, draws, hlen, hones, hlast, ?_⟩
  rw [exec_ackchk h hpoll, Bool.not_not]

/-- Settles O19: the answers given are the samples. -/
theorem ackchkFirstLowWins : Obligations.AckchkFirstLowWins := by
  intro s x b rest h
  obtain ⟨bits, last, env, draws, -, -, -, hpoll, hgiven⟩ := ackchk_spec x.thread b
  refine ⟨fun k hk1 hk10 henv => ?_, fun henv => ?_⟩
  · obtain ⟨rfl, rfl, rfl, rfl⟩ := (hgiven (k - 1) rest).1 (by omega) henv
    rw [exec_ackchk h hpoll]
    simp [Nat.sub_add_cancel hk1]
  · obtain ⟨rfl, rfl, rfl, rfl⟩ := (hgiven 9 rest).2 rfl henv
    rw [exec_ackchk h hpoll]
    simp [List.replicate]

/-! ### LOCK and UNLOCK -/

/-- Settles O25: the two tests of LOCK. -/
theorem lockAcquiresFaultsOrHolds : Obligations.LockAcquiresFaultsOrHolds := by
  refine ⟨decodeUop_of_encode rfl rfl (by decide), fun s x b h => ?_⟩
  have hexec : exec .lock s = .next
      (if b.initd = false then s.raise x.bus x.thread .notInit
       else if b.lock = .free then (s.setBus x.bus (b.emit x.thread .lock)).advance x else s) :=
    withCommand_inFlight h _
  rw [hexec]
  refine ⟨fun hinitd => ?_, fun hinitd hfree => ?_, fun hinitd hlock => ?_⟩
  · rw [if_pos hinitd, raise_unfaulted h.2.1 h.2.2]
  · rw [if_neg (by simp [hinitd]), if_pos hfree]
    rfl
  · rw [if_neg (by simp [hinitd]), if_neg hlock]

/-- Settles O26: the test of UNLOCK. -/
theorem unlockFreesHeldLock : Obligations.UnlockFreesHeldLock := by
  intro s x b h
  have hexec : exec .unlock s = .next
      (if b.lock = .held x.thread then (s.setBus x.bus (b.emit x.thread .unlock)).advance x else s) :=
    withCommand_inFlight h _
  rw [hexec]
  refine ⟨fun hheld => ?_, fun hlock => ?_⟩
  · rw [if_pos hheld]
    rfl
  · rw [if_neg hlock]

end Sys2Proof.Machine
end

section
/-!
SUPPORT. The bus conditions (R94) and the delays (R132, R133) of a whole command: those of its micro-ops in order.
-/

namespace Sys2Proof.Machine

/-! ### The delays of one micro-op -/

/-- The delays of a micro-op that completes, in half periods (R132). -/
def halfPeriods : Instr → Nat
  | .start => 4
  | .txi _ | .txm _ => 24
  | .rxm _ => 16
  | .sendack => 5
  | .sendnack => 1
  | .stop => 3
  | .idle | .ackchk | .lock | .unlock | .init | .deinit | .probe _ | .read8 _ _ | .read16 _ _ | .readna _ | .write8 _ _
  | .write16 _ _ => 0

@[simp] theorem dlySum_nil : dlySum [] = 0 := rfl

@[simp] theorem dlySum_append (es fs : List Event) : dlySum (es ++ fs) = dlySum es + dlySum fs := by
  simp [dlySum]

@[simp] theorem delay_setSda (v : Bool) : (setSda v).delay = 0 := by
  cases v <;> rfl

theorem dlySum_rdSda (bits : List Bool) : dlySum (bits.map .rdSda) = 0 := by
  induction bits with
  | nil => rfl
  | cons v bits ih => exact (Nat.zero_add _).trans ih

theorem dlySum_sendBit (T : Nat) (v : Bool) : dlySum (sendBitEvents T v) = T * 3 := by
  rw [sendBitEvents, dlySum_cons, delay_setSda]
  simp only [dlySum_cons, Event.delay, dlySum_nil]
  omega

/-- Eight bits of three half periods each (R77). -/
theorem dlySum_sendByte (T : Nat) (v : Byte) : dlySum (sendByteEvents T v) = T * 24 := by
  simp only [sendByteEvents, wireBits, List.flatMap_cons, List.flatMap_nil, dlySum_append, dlySum_sendBit, dlySum_nil]
  omega

/-- Two half periods a bit (R81). -/
theorem dlySum_receive (T : Nat) (bits : List Bool) : dlySum (receiveEvents T bits) = T * (2 * bits.length) := by
  induction bits with
  | nil => rfl
  | cons v bits ih =>
    have hcons : receiveEvents T (v :: bits) =
        [.sclH, .rdSda v, .dly T, .sclL, .dly T] ++ receiveEvents T bits := rfl
    rw [hcons, dlySum_append, ih, List.length_cons, Nat.mul_succ, Nat.mul_add]
    simp only [dlySum_cons, Event.delay, dlySum_nil]
    omega

/-- The delays of a micro-op's events are its half periods (R132). -/
theorem OpEvents.dlySum {T : Nat} {i : Instr} {es : List Event} (h : OpEvents T i es) :
    dlySum es = T * halfPeriods i := by
  cases h with
  | txi imm => exact dlySum_sendByte T imm
  | txm i a v => exact (Nat.zero_add _).trans (dlySum_sendByte T v)
  | ackchk bits last =>
    rw [ackchkEvents, dlySum_append, dlySum_append, dlySum_rdSda]
    rfl
  | rxm i a v =>
    rw [rxmEvents, dlySum_cons, dlySum_append, dlySum_receive]
    simp [Event.delay, halfPeriods]
  | _ =>
    simp only [dlySum_cons, Event.delay, dlySum_nil, halfPeriods]
    omega

/-! ### Micro-ops in sequence -/

/-- Micro-ops in sequence make their own bus conditions, in order (R94). -/
theorem Traced.conditions {T : Nat} {p : Port} {is : List Instr} {es : List Event} (h : Traced T p is es) :
    conditions p es = is.flatMap ownConditions := by
  induction h with
  | nil p => rfl
  | cons hi he _ ih =>
    obtain ⟨hentry, hidle⟩ := entryState_of_opensOn hi
    rw [conditions_append, he.conditions hentry hidle, ih, List.flatMap_cons]

/-- The delays of micro-ops in sequence add up (R133). -/
theorem Traced.dlySum {T : Nat} {p : Port} {is : List Instr} {es : List Event} (h : Traced T p is es) :
    dlySum es = T * (is.map halfPeriods).sum := by
  induction h with
  | nil p => rfl
  | cons _ he _ ih => rw [dlySum_append, he.dlySum, ih, List.map_cons, List.sum_cons, Nat.mul_add]

/-! ### The micro-ops of a command -/

theorem ownConditions_of_transfers {is : List Instr} (h : ∀ i ∈ is, transfers i = true) :
    is.flatMap ownConditions = [] := by
  refine List.flatMap_eq_nil_iff.2 fun i hi => ?_
  have ht := h i hi
  cases i with
  | start | stop => cases ht
  | _ => rfl

theorem ownConditions_send (n : Nat) : (send n).flatMap ownConditions = [] :=
  ownConditions_of_transfers (send_transfers n)

theorem ownConditions_recv (n : Nat) : (recv n).flatMap ownConditions = [] :=
  ownConditions_of_transfers (recv_transfers n)

/-- The bus conditions of a command: a START for each address that is sent, and one STOP at the end (R94). -/
def commandConditions : TxnOp → List Condition
  | .read8 | .read16 => [.start, .start, .stop]
  | .probe | .readna | .write8 | .write16 => [.start, .stop]

theorem ownConditions_microOps (c : Cmd) : (microOps c).flatMap ownConditions = commandConditions c.op := by
  obtain ⟨op, dev, reg, n, buf⟩ := c
  cases op <;>
    simp [microOps, headOps, body, sendAddr, sendReg8, sendReg16, repeatedStart, tailOps, ownConditions,
      ownConditions_send, ownConditions_recv, commandConditions]

/-- Stretches that take k half periods each, whatever their index. -/
theorem halfPeriods_flatMap {f : Nat → List Instr} {k : Nat} (h : ∀ i, ((f i).map halfPeriods).sum = k) (l : List Nat) :
    ((l.flatMap f).map halfPeriods).sum = k * l.length := by
  induction l with
  | nil => rfl
  | cons i l ih =>
    rw [List.flatMap_cons, List.map_append, List.sum_append, h, ih, List.length_cons, Nat.mul_succ, Nat.add_comm]

theorem halfPeriods_send (n : Nat) : ((send n).map halfPeriods).sum = 24 * n := by
  rw [send, halfPeriods_flatMap (k := 24) (fun _ => rfl), List.length_range]

/-- The last byte's SENDNACK is four half periods shorter than a SENDACK. -/
theorem halfPeriods_recv {n : Nat} (h : 1 ≤ n) : ((recv n).map halfPeriods).sum + 4 = 21 * n := by
  obtain ⟨n, rfl⟩ := Nat.exists_eq_add_of_le' h
  rw [recv, List.map_append, List.sum_append, halfPeriods_flatMap (k := 21) (fun _ => rfl), List.length_range]
  simp [halfPeriods]
  omega

/-- The delays of a command of n bytes, in half periods (R133). -/
def commandHalfPeriods (n : Nat) : TxnOp → Nat
  | .probe => 31
  | .read8 => 79 + 21 * n
  | .read16 => 103 + 21 * n
  | .readna => 27 + 21 * n
  | .write8 => 55 + 24 * n
  | .write16 => 79 + 24 * n

theorem halfPeriods_microOps {c : Cmd} (hc : c.acceptable) :
    ((microOps c).map halfPeriods).sum = commandHalfPeriods c.count c.op := by
  obtain ⟨op, dev, reg, n, buf⟩ := c
  obtain ⟨-, hbuf⟩ := hc
  cases op with
  | probe => rfl
  | write8 | write16 =>
    simp [microOps, headOps, body, sendAddr, sendReg8, sendReg16, tailOps, halfPeriods,
      halfPeriods_send, commandHalfPeriods]
    omega
  | read8 | read16 | readna =>
    have hn : 1 ≤ n := (hbuf rfl).1
    have hrecv := halfPeriods_recv hn
    simp [microOps, headOps, body, sendAddr, sendReg8, sendReg16, repeatedStart, tailOps, halfPeriods,
      commandHalfPeriods]
    omega

/-- Settles O59: the events of the run are those of the micro-ops in sequence. -/
theorem commandConditionsAndDelays : Obligations.CommandConditionsAndDelays := by
  intro s t k b x rest hacc hsched hblocked htxns hthread hbus huprog hupc hraced hb hf hinitd hlock hport hbuf
  have halone := alone_of_accepted hacc hsched hblocked htxns hthread hbus huprog hupc hraced hb hf hinitd hlock hport
    hbuf
  obtain ⟨s', b', es, hrun, hret⟩ := halone.run
  have htraced : Traced b.tHalf b.port (microOps x.cmd) es := by
    have h := hret.traced
    rwa [hupc, List.drop_zero] at h
  subst hbus
  refine ⟨s', b', hrun, ?_, ?_, ?_⟩
  · rw [hret.buses]
    exact getElem?_set_self_of_some hb b'
  · rw [newEvents_of_hist hret.hist, htraced.conditions, ownConditions_microOps]
    cases x.cmd.op <;> rfl
  · rw [newEvents_of_hist hret.hist, htraced.dlySum, halfPeriods_microOps hacc]
    cases x.cmd.op <;> rfl

end Sys2Proof.Machine
end

section
/-!
SUPPORT. The micro-programs of the six commands from OP, DEV, REG and COUNT alone, and their lengths (R88).
-/

namespace Sys2Proof.Machine

/-! ### The pieces of an expansion -/

theorem sendAddr_eq (dev : BitVec 7) (dir : BitVec 1) :
    sendAddr dev dir = [.txi (BitVec.ofNat 8 (2 * dev.toNat + dir.toNat)), .ackchk] := by
  rw [sendAddr, ← addrByte_toNat, BitVec.ofNat_toNat, BitVec.setWidth_eq]

theorem regHigh_eq (reg : BitVec 16) : regHigh reg = BitVec.ofNat 8 (reg.toNat / 2 ^ 8) := by
  rw [regHigh, BitVec.extractLsb', Nat.shiftRight_eq_div_pow]

theorem regLow_eq (reg : BitVec 16) : regLow reg = BitVec.ofNat 8 reg.toNat := rfl

theorem recv_eq {n : Nat} (h : 1 ≤ n) :
    recv n = ((List.range (n - 1)).map fun i => [Instr.rxm (BitVec.ofNat 24 i), .sendack]).flatten ++
      [.rxm (BitVec.ofNat 24 (n - 1)), .sendnack] := by
  obtain ⟨n, rfl⟩ := Nat.exists_eq_add_of_le' h
  rfl

@[simp] theorem length_send (n : Nat) : (send n).length = 2 * n := by
  simp [send, Nat.mul_comm]

theorem length_recv {n : Nat} (h : 1 ≤ n) : (recv n).length = 2 * n := by
  obtain ⟨n, rfl⟩ := Nat.exists_eq_add_of_le' h
  simp [recv]
  omega

/-! ### The six commands -/

/-- The number of micro-ops of a command of n bytes (R88). -/
def commandLength (n : Nat) : TxnOp → Nat
  | .probe => 7
  | .read8 => 2 * n + 13
  | .read16 => 2 * n + 15
  | .readna => 2 * n + 7
  | .write8 => 2 * n + 9
  | .write16 => 2 * n + 11

theorem length_expand (op : TxnOp) (dev : BitVec 7) (reg : BitVec 16) {n : Nat} (hn : 1 ≤ n) (buf : Nat) :
    (expand ⟨op, dev, reg, n, buf⟩).length = commandLength n op := by
  have hrecv := length_recv hn
  rw [expand_length]
  cases op with
  | probe => rfl
  | write8 | write16 =>
    simp [microOps, headOps, body, sendAddr, sendReg8, sendReg16, tailOps, commandLength]
  | read8 | read16 | readna =>
    simp [microOps, headOps, body, sendAddr, sendReg8, sendReg16, repeatedStart, tailOps, commandLength]
    omega

/-- Settles O7: each command's micro-program is its pieces one after the other. -/
theorem expansionFollowsRule : Obligations.ExpansionFollowsRule := by
  intro dev reg n buf hi lo addr head tail rs recvOps sendOps
  have hwrite : sendAddr dev dirWrite = addr 0 := sendAddr_eq dev dirWrite
  have hread : sendAddr dev dirRead = addr 1 := sendAddr_eq dev dirRead
  have hreg8 : sendReg8 reg = [.txi lo, .ackchk] := rfl
  have hreg16 : sendReg16 reg = [.txi hi, .ackchk, .txi lo, .ackchk] := by rw [sendReg16, regHigh_eq, regLow_eq]
  have hrestart : repeatedStart = rs := rfl
  have hsend : send n = sendOps := rfl
  have hexpand (c : Cmd) : expand c = (head ++ body c ++ tail).map encode := rfl
  refine ⟨by rw [hexpand, body, hwrite], rfl, fun hn => ?_⟩
  have hrecv : recv n = recvOps := recv_eq hn
  have hlength (op : TxnOp) := length_expand op dev reg hn buf
  refine ⟨?_, ?_, ?_, ?_, ?_, hlength .read8, hlength .read16, hlength .readna, hlength .write8, hlength .write16⟩
  · simp only [hexpand, body, hwrite, hreg8, hrestart, hread, hrecv, List.append_assoc]
  · simp only [hexpand, body, hwrite, hreg16, hrestart, hread, hrecv, List.append_assoc]
  · simp only [hexpand, body, hread, hrecv, List.append_assoc]
  · simp only [hexpand, body, hwrite, hreg8, hsend, List.append_assoc]
  · simp only [hexpand, body, hwrite, hreg16, hsend, List.append_assoc]

end Sys2Proof.Machine
end

section
/-!
SUPPORT. The lifecycle commands INIT and DEINIT (R101, R102): their checks in order, and what they leave.
-/

namespace Sys2Proof.Machine

/-- Where the descriptor names no bus, a lifecycle command raises NULL_BUS (R87). -/
theorem exec_lifecycle_of_no_bus {i : Instr} (hi : i = .init ∨ i = .deinit) {s : State} (hk : s.desc.bus = none) :
    exec i s = .next (s.raiseNoBus s.cur .nullBus) := by
  obtain rfl | rfl := hi
  · simp [exec, execInit, hk]
  · simp [exec, execDeinit, hk]

section
variable {s : State} {k : Nat} {b : Bus} (hk : s.desc.bus = some k) (hb : s.buses[k]? = some b) (hf : b.fault = none)
include hk hb hf

/-- INIT on a bus that takes steps. -/
theorem exec_init_of_bus :
    exec .init s = .next
      (if b.initd = true then s.withFault k b s.cur .reInit
       else (s.setBus k (b.initialise s.cur)).ret (some k) (.code .initDone)) := by
  simp [exec, execInit, hk, hb, hf, raise_unfaulted hb hf]

/-- DEINIT on a bus that takes steps, its checks in the order of R110. -/
theorem exec_deinit_of_bus :
    exec .deinit s = .next
      (if b.initd = false then s.withFault k b s.cur .notInit
       else if b.lock ≠ .free then s.withFault k b s.cur .deinitBusy
       else (s.setBus k (b.deinitialise s.cur)).ret (some k) (.code .deinitDone)) := by
  simp [exec, execDeinit, hk, hb, hf, raise_unfaulted hb hf]

end

/-- Settles O33: the bus check of INIT uses one answer of the environment. -/
theorem initEstablishesIdleInstance : Obligations.InitEstablishesIdleInstance := by
  intro s k b hk hb hf hinitd
  obtain ⟨busy, env, draws, henv, hinit⟩ := initialise_spec s.cur b
  refine ⟨busy, env, draws, henv, ?_⟩
  rw [exec_init_of_bus hk hb hf, if_neg (by simp [hinitd]), hinit]
  rfl

/-- Settles O34: what PREL leaves in the port is a free value. -/
theorem deinitReleasesInstance : Obligations.DeinitReleasesInstance := by
  intro s k b hk hb hf hinitd hlock
  refine ⟨b.freshPort.port, b.freshPort.draws, ?_⟩
  rw [exec_deinit_of_bus hk hb hf, if_neg (by simp [hinitd]), if_neg (not_not_intro hlock)]
  rfl

/-- Settles O35: the checks of INIT and DEINIT, one after the other. -/
theorem lifecycleMisuseFaults : Obligations.LifecycleMisuseFaults := by
  refine fun s => ⟨fun hk i hi => exec_lifecycle_of_no_bus hi hk, fun k b hk hb hf => ?_⟩
  rw [exec_init_of_bus hk hb hf, exec_deinit_of_bus hk hb hf]
  refine ⟨fun hinitd => ?_, fun hinitd => ?_, fun hinitd hlock => ?_⟩
  · rw [if_pos hinitd]
  · rw [if_pos hinitd]
  · rw [if_neg (by simp [hinitd]), if_pos hlock]

end Sys2Proof.Machine
end

section
/-!
SUPPORT. The construction of an instance in a thread's turn (R118, R119).
-/

namespace Sys2Proof.Machine

/-- R16: no instance uses a line of p where each of the four pairs of lines differs. -/
theorem pinsInUse_of_lines_ne {s : State} {p : Pins}
    (h : ∀ b ∈ s.buses, b.pins.scl ≠ p.scl ∧ b.pins.scl ≠ p.sda ∧ b.pins.sda ≠ p.scl ∧ b.pins.sda ≠ p.sda) :
    s.pinsInUse p = false := by
  refine List.any_eq_false.2 fun b hb hused => ?_
  obtain ⟨hcc, hcd, hdc, hdd⟩ := h b hb
  obtain hline | hline | hline | hline := of_decide_eq_true hused
  · exact hcc hline
  · exact hdd hline
  · exact hcd hline
  · exact hdc hline

/-- A positive T_HALF on two lines that no other instance uses passes the check of a construction (R118). -/
theorem construct_of_lines_free {s : State} {tHalf : Nat} {p : Pins} (ht : 0 < tHalf) (hp : p.scl ≠ p.sda)
    (hfree : s.pinsInUse p = false) :
    s.construct tHalf p =
      .next (({ s.takeRequest with buses := s.buses ++ [Bus.constructed tHalf p] } : State).ret none
        (.handle s.buses.length)) :=
  if_neg (by simp [ht.ne', hp, hfree])

theorem fetch_of_construct {s : State} {tHalf : Nat} {p : Pins} (hb : s.cur ∉ s.blocked) (hx : s.txnOf s.cur = none)
    (hr : s.requestOf s.cur = some (.construct tHalf p)) : s.fetch = .done (s.construct tHalf p) := by
  rw [State.fetch, if_neg hb, hx, hr]

/-- Settles O40: the turn constructs the instance, behind the others. -/
theorem constructAddsInstance : Obligations.ConstructAddsInstance := by
  intro s tHalf p hb hx hr ht hp hlines
  have hfree : s.turn.pinsInUse p = false := pinsInUse_of_lines_ne hlines
  have hstep : step s = s.turn.construct tHalf p := step_of_fetch_done (fetch_of_construct hb hx hr)
  exact ⟨_, Bus.constructed tHalf p, hstep.trans (construct_of_lines_free ht hp hfree),
    rfl, rfl, rfl, rfl, rfl, rfl, rfl, rfl, rfl⟩

end Sys2Proof.Machine
end

section
/-!
SUPPORT. The delays and the number of events of one micro-op that completes (R132).
-/

namespace Sys2Proof.Machine

theorem length_sendByteEvents (T : Nat) (v : Byte) : (sendByteEvents T v).length = 48 := rfl

theorem length_ackchkEvents (bits : List Bool) (last : Bool) :
    (ackchkEvents bits last).length = 4 + (bits.length + 1) := by
  simp [ackchkEvents]
  omega

theorem length_rxmEvents (T a : Nat) (v : Byte) : (rxmEvents T a v).length = 43 := rfl

/-- Settles O28: a completed micro-op has the events of its rule, with their half periods. -/
theorem microOpDelaySums : Obligations.MicroOpDelaySums := by
  intro i s x b s' b' hi hx h hc hb'
  obtain ⟨es, hr⟩ := ran_of_completed hi hx h hc hb'
  have hsum : dlySum es = halfPeriods i * b.tHalf := hr.events.dlySum.trans (Nat.mul_comm ..)
  rw [newEvents_of_hist hr.hist]
  cases hr.events with
  | idle | lock | unlock => exact ⟨rfl, rfl⟩
  | sendnack => exact ⟨hsum.trans (Nat.one_mul _), rfl⟩
  | start | stop | sendack => exact ⟨hsum, rfl⟩
  | txi imm => exact ⟨hsum, length_sendByteEvents ..⟩
  | txm j a v => exact ⟨hsum, congrArg (· + 1) (length_sendByteEvents ..)⟩
  | rxm j a v => exact ⟨hsum, length_rxmEvents ..⟩
  | ackchk bits last hlen hbits =>
    exact ⟨hsum.trans (Nat.zero_mul _), bits.length + 1, Nat.le_add_left .., Nat.succ_le_succ hlen,
      length_ackchkEvents ..⟩

end Sys2Proof.Machine
end

section
/-!
SUPPORT. The clock line (R127): no instruction samples it, and only INIT changes its mode.
-/

namespace Sys2Proof.Machine

/-! ### Events that spare the clock line -/

/-- The events that neither sample SCL nor change its mode. -/
def sparesClock : Event → Bool
  | .rdScl _ | .sclIn | .sclOut => false
  | _ => true

/-- From b to b' the history gained only events that spare the clock line. -/
def Bus.ClockSpared (b b' : Bus) : Prop :=
  ∃ es : List Entry, b'.hist = b.hist ++ es ∧ ∀ e ∈ es, sparesClock e.event = true

theorem clockSpared_of_hist {b b' : Bus} (h : b'.hist = b.hist) : b.ClockSpared b' :=
  ⟨[], by simp [h], nofun⟩

theorem clockSpared_of_tagged {b b' : Bus} {t : Nat} {es : List Event} (h : b'.hist = b.hist ++ tagged t es)
    (hes : es.all sparesClock = true) : b.ClockSpared b' := by
  refine ⟨_, h, fun e he => ?_⟩
  obtain ⟨f, hf, rfl⟩ := List.mem_map.1 he
  exact List.all_eq_true.1 hes f hf

theorem Bus.ClockSpared.trans {b c d : Bus} (hbc : b.ClockSpared c) (hcd : c.ClockSpared d) : b.ClockSpared d := by
  obtain ⟨es, hes, hspares⟩ := hbc
  obtain ⟨fs, hfs, hspares'⟩ := hcd
  refine ⟨es ++ fs, by rw [hfs, hes, List.append_assoc], fun e he => ?_⟩
  obtain he | he := List.mem_append.1 he
  · exact hspares e he
  · exact hspares' e he

theorem clockSpared_emit (t : Nat) (e : Event) (he : sparesClock e = true) (b : Bus) : b.ClockSpared (b.emit t e) :=
  clockSpared_of_tagged (es := [e]) (by rw [emit_eq]) (by simp [he])

theorem clockSpared_emits (t : Nat) (es : List Event) (hes : es.all sparesClock = true) (b : Bus) :
    b.ClockSpared (b.emits t es) :=
  clockSpared_of_tagged (by rw [emits_eq]) hes

theorem sendByteEvents_spareClock (T : Nat) (v : Byte) : (sendByteEvents T v).all sparesClock = true := by
  have hbit (d : Bool) : (sendBitEvents T d).all sparesClock = true := by cases d <;> rfl
  simp [sendByteEvents, List.all_flatMap, hbit]

theorem clockSpared_txbyte (t : Nat) (v : Byte) (b : Bus) : b.ClockSpared (b.txbyte t v) :=
  clockSpared_of_tagged (by rw [txbyte_eq]) (sendByteEvents_spareClock b.tHalf v)

theorem clockSpared_received (j : BitVec 24) (t : Nat) (b : Bus) : b.ClockSpared (b.received j t) := by
  obtain ⟨v, env, draws, h, -⟩ := receive_spec j t b
  exact clockSpared_of_tagged (congrArg Bus.hist h) rfl

theorem clockSpared_ackchk (t : Nat) (b : Bus) : b.ClockSpared (b.ackchk t).2 := by
  obtain ⟨bits, last, -, hr⟩ := ran_ackchk t b
  refine clockSpared_of_tagged hr.hist ?_
  simp [ackchkEvents, sparesClock]

/-! ### Instructions that spare the clock line -/

/-- From s to s' every bus that was there gained only events that spare the clock line. -/
def State.ClockSpared (s s' : State) : Prop :=
  ∀ (k : Nat) (b : Bus), s.buses[k]? = some b → ∃ b', s'.buses[k]? = some b' ∧ b.ClockSpared b'

section
variable {s s' : State}

theorem clockSpared_of_buses (h : s'.buses = s.buses) : s.ClockSpared s' :=
  fun _ b hb => ⟨b, h ▸ hb, clockSpared_of_hist rfl⟩

theorem State.ClockSpared.trans {s1 : State} (h : s.ClockSpared s1) (h' : s1.ClockSpared s') : s.ClockSpared s' := by
  intro k b hb
  obtain ⟨c, hc, hbc⟩ := h k b hb
  obtain ⟨d, hd, hcd⟩ := h' k c hc
  exact ⟨d, hd, hbc.trans hcd⟩

/-- One bus is replaced. -/
theorem clockSpared_of_set {k : Nat} {b c : Bus} (hb : s.buses[k]? = some b) (h : b.ClockSpared c)
    (hs' : s'.buses = s.buses.set k c) : s.ClockSpared s' := by
  rw [State.ClockSpared, hs']
  refine forall_getElem?_set (P := fun _ => Bus.ClockSpared) (fun d hd => ?_) fun _ _ _ => clockSpared_of_hist rfl
  exact Option.some.inj (hb.symm.trans hd) ▸ h

theorem clockSpared_onBus (k : Nat) {f : Bus → Bus} (hf : ∀ b : Bus, b.ClockSpared (f b)) :
    s.ClockSpared (s.onBus k f) := by
  obtain ⟨h, -⟩ | ⟨b, hb, -, h⟩ := onBus_cases s k f <;> rw [h]
  · exact clockSpared_of_buses rfl
  · exact clockSpared_of_set hb (hf b) rfl

theorem clockSpared_raise {k t : Nat} {r : FaultReason} : s.ClockSpared (s.raise k t r) :=
  clockSpared_onBus k (clockSpared_emit t (.fault r) rfl)

theorem Touched.clockSpared {t : Nat} (h : Touched t s s') : s.ClockSpared s' := by
  intro k b hb
  obtain hk | ⟨d, u, hd, -, hk⟩ := h.buses k
  · exact ⟨b, hk.trans hb, clockSpared_of_hist rfl⟩
  · obtain rfl := Option.some.inj (hb.symm.trans hd)
    exact ⟨_, hk, clockSpared_of_tagged rfl rfl⟩

theorem clockSpared_carryOn (x : Txn) {f : Bus → Bus} (hf : ∀ b : Bus, b.ClockSpared (f b)) :
    s.ClockSpared (s.carryOn x f) := by
  obtain h | ⟨b, hb, -, h⟩ := carryOn_cases s x f <;> rw [h]
  · exact clockSpared_of_buses rfl
  · exact clockSpared_of_set hb (hf b) rfl

theorem clockSpared_withCommand {f : Txn → Bus → State}
    (hf : ∀ (x : Txn) (b : Bus), s.buses[x.bus]? = some b → s.ClockSpared (f x b)) (h : s.withCommand f = .next s') :
    s.ClockSpared s' := by
  obtain ⟨x, b, -, hb, ⟨-, rfl⟩ | ⟨-, rfl⟩⟩ := withCommand_cases h
  · exact clockSpared_of_buses rfl
  · exact hf x b hb

theorem clockSpared_busMicroOp {f : Txn → Bus → Bus} (hf : ∀ (x : Txn) (b : Bus), b.ClockSpared (f x b))
    (h : s.busMicroOp f = .next s') : s.ClockSpared s' :=
  clockSpared_withCommand (fun x b hb => clockSpared_of_set hb (hf x b) rfl) h

/-- The access of TXM and RXM, whatever it comes to. -/
theorem clockSpared_accessByte {x : Txn} {b c : Bus} {e : Event} {f : Bus → Bus} (j : BitVec 24) (w ok : Bool)
    (mem : List Host.Cell) (hb : s.buses[x.bus]? = some b) (hc : b.ClockSpared c) (he : sparesClock e = true)
    (hf : ∀ d : Bus, d.ClockSpared (f d)) : s.ClockSpared (s.accessByte x j w ok c e mem f) := by
  have hset {d : Bus} (hd : b.ClockSpared d) : s.ClockSpared (s.setBus x.bus d) := clockSpared_of_set hb hd rfl
  obtain h | ⟨r, h⟩ | h := accessByte_cases s x j w ok c e mem f <;> rw [h]
  · exact clockSpared_of_buses rfl
  · exact (hset hc).trans clockSpared_raise
  · have hevent := hset (hc.trans (clockSpared_emit x.thread e he c))
    have htouch := (touch_touched ({ s.setBus x.bus (c.emit x.thread e) with mem := mem } : State) x.thread w
      (x.cmd.bufAddr j.toNat)).clockSpared
    exact (hevent.trans htouch).trans (clockSpared_carryOn x hf)

theorem clockSpared_issueTxn {op : TxnOp} {dev : BitVec 7} {reg : BitVec 16} (h : s.issueTxn op dev reg = .next s') :
    s.ClockSpared s' := by
  have hfail (k : Nat) (c : Code) : s.ClockSpared (s.failPrecondition k c) :=
    clockSpared_onBus k fun _ => clockSpared_of_hist rfl
  unfold State.issueTxn at h
  split at h
  · cases h
    exact clockSpared_of_buses rfl
  · split at h
    · cases h
    · cases h
      split_ifs
      · exact clockSpared_of_buses rfl
      · exact hfail _ .eZeroCount
      · exact hfail _ .eNullBuf
      · exact clockSpared_raise
      · exact clockSpared_of_buses rfl

theorem clockSpared_execDeinit (h : execDeinit s = .next s') : s.ClockSpared s' := by
  unfold execDeinit at h
  split at h
  · cases h
    exact clockSpared_of_buses rfl
  · split at h
    · cases h
    · rename_i b hb
      cases h
      split_ifs
      · exact clockSpared_of_buses rfl
      · exact clockSpared_raise
      · exact clockSpared_raise
      · exact clockSpared_of_set hb (clockSpared_of_tagged (t := s.cur) (es := [.prel]) rfl rfl) rfl

/-- INIT spares the clock line too, unless it initialises its bus (R101). -/
theorem execInit_clockSpared_or_initialises (h : execInit s = .next s') :
    s.ClockSpared s' ∨
      ∃ k b, s.buses[k]? = some b ∧ s'.buses = s.buses.set k (b.initialise s.cur) := by
  unfold execInit at h
  split at h
  · cases h
    exact .inl (clockSpared_of_buses rfl)
  · split at h
    · cases h
    · rename_i b hb
      cases h
      split_ifs
      · exact .inl (clockSpared_of_buses rfl)
      · exact .inl clockSpared_raise
      · exact .inr ⟨_, b, hb, rfl⟩

/-- Every instruction but INIT spares the clock line. -/
theorem exec_clockSpared {i : Instr} (hi : i ≠ .init) (h : exec i s = .next s') : s.ClockSpared s' := by
  cases i with
  | init => exact absurd rfl hi
  | deinit => exact clockSpared_execDeinit h
  | probe | read8 | read16 | readna | write8 | write16 => exact clockSpared_issueTxn h
  | idle | start | stop | sendack | sendnack =>
    exact clockSpared_busMicroOp (fun x b => clockSpared_emits x.thread _ rfl b) h
  | txi imm => exact clockSpared_busMicroOp (fun x b => clockSpared_txbyte x.thread imm b) h
  | txm j =>
    exact clockSpared_withCommand (f := s.txmByte j) (fun x b hb =>
      clockSpared_accessByte j false _ _ hb (clockSpared_of_hist rfl) rfl (clockSpared_txbyte x.thread _)) h
  | rxm j =>
    exact clockSpared_withCommand (f := s.rxmByte j) (fun x b hb =>
      clockSpared_accessByte j true _ _ hb (clockSpared_received j x.thread b) rfl
        (clockSpared_emits x.thread [.sdaOut] rfl)) h
  | ackchk =>
    exact clockSpared_withCommand (fun x b hb => clockSpared_of_set hb (clockSpared_ackchk x.thread b) rfl) h
  | lock =>
    refine clockSpared_withCommand (fun x b hb => ?_) h
    split_ifs
    · exact clockSpared_raise
    · exact clockSpared_of_set hb (clockSpared_emit x.thread .lock rfl b) rfl
    · exact clockSpared_of_buses rfl
  | unlock =>
    refine clockSpared_withCommand (fun x b hb => ?_) h
    split_ifs
    · exact clockSpared_of_set hb (clockSpared_emit x.thread .unlock rfl b) rfl
    · exact clockSpared_of_buses rfl

end

/-! ### The rule of R127 -/

/-- R127 on the events of one instruction: SCL is neither read nor made an input, and INIT alone makes it an output,
once at most. -/
def ClockRule (i : Instr) (es : List Event) : Prop :=
  (∀ e ∈ es, (∀ v, e ≠ .rdScl v) ∧ e ≠ .sclIn ∧ (e = .sclOut → i = .init)) ∧ es.count .sclOut ≤ 1

theorem Bus.ClockSpared.clockRule {b b' : Bus} (h : b.ClockSpared b') (i : Instr) : ClockRule i (newEvents b b') := by
  obtain ⟨es, hes, hspares⟩ := h
  have hnew : ∀ e ∈ newEvents b b', sparesClock e = true := by
    simpa [newEvents, hes] using hspares
  have hnot {f : Event} (hf : sparesClock f = false) : f ∉ newEvents b b' := fun he => by simp [hnew f he] at hf
  refine ⟨fun e he => ⟨?_, ?_, ?_⟩, ?_⟩
  · exact fun v hv => hnot rfl (hv ▸ he)
  · exact fun hin => hnot rfl (hin ▸ he)
  · exact fun hout => absurd (hout ▸ he) (hnot rfl)
  · exact (List.count_eq_zero.2 (hnot rfl)).trans_le (Nat.zero_le 1)

/-- INIT makes SCL an output once (R101). -/
theorem initialise_clockRule (t : Nat) (b : Bus) : ClockRule .init (newEvents b (b.initialise t)) := by
  obtain ⟨busy, env, draws, -, h⟩ := initialise_spec t b
  rw [newEvents_of_hist (congrArg Bus.hist h)]
  cases busy <;> simp [ClockRule]

/-- What an instruction may do to the clock line, on each bus. -/
theorem exec_clockRule {i : Instr} {s s' : State} {k : Nat} {b : Bus} (h : exec i s = .next s')
    (hb : s.buses[k]? = some b) : ∃ b', s'.buses[k]? = some b' ∧ ClockRule i (newEvents b b') := by
  have of_spared (hs : s.ClockSpared s') : ∃ b', s'.buses[k]? = some b' ∧ ClockRule i (newEvents b b') :=
    (hs k b hb).imp fun _ hb' => hb'.imp_right fun hspared => hspared.clockRule i
  by_cases hi : i = .init
  · subst hi
    obtain hs | ⟨j, c, hc, hs'⟩ := execInit_clockSpared_or_initialises h
    · exact of_spared hs
    · rw [hs']
      refine forall_getElem?_set (P := fun _ b b' => ClockRule .init (newEvents b b')) (fun d hd => ?_)
        (fun _ _ _ => (clockSpared_of_hist rfl).clockRule .init) k b hb
      obtain rfl := Option.some.inj (hc.symm.trans hd)
      exact initialise_clockRule s.cur c
  · exact of_spared (exec_clockSpared hi h)

/-- Settles O54: all instructions but INIT spare the clock line, and INIT makes it an output once. -/
theorem clockIsNeverRead : Obligations.ClockIsNeverRead := by
  intro i s s' k b b' h hb hb'
  obtain ⟨c, hc, hrule⟩ := exec_clockRule h hb
  obtain rfl := Option.some.inj (hc.symm.trans hb')
  exact hrule

end Sys2Proof.Machine
end
